-- ==== Sys2Proof/Word.lean ====
section
/-! DEFINITION. The two word types of the DDE: a 32-bit command, data or snapshot word, and an 8-bit image byte. -/

namespace Sys2Proof

/-- A 32-bit word: CMD, WDATA, RDATA and the words of CUR and DES (10_state.md R32, R33, R39). Unsigned (R18). -/
abbrev Word := BitVec 32

/-- One byte of the stored image (10_state.md R35). -/
abbrev Byte := BitVec 8

end Sys2Proof
end

