-- ==== Sys2Proof/Syntax.lean ====
section
/-! DEFINITION. The commands of the DDE: one constructor per row of spec/opcode_table.json (30_encoding.md R104).
Operands are those of the assembler syntax of R108; WDATA is no operand of the command word and is read from its
register (10_state.md R39). -/

namespace Sys2Proof

inductive Instr where
  /-- INIT (44_system.md R270). -/
  | init
  /-- WRDES r, m (40_dot_matrix.md R140). -/
  | wrdes (r m : Nat)
  /-- RDCUR r, m (R141). -/
  | rdcur (r m : Nat)
  /-- PAINT f (R143). -/
  | paint (f : Bool)
  /-- CLEAR (R146). -/
  | clear
  /-- FILL (R149). -/
  | fill
  /-- INVERSE (R152). -/
  | inverse
  /-- MAGNETIZE (R156). -/
  | magnetize
  /-- RDDES r, m (R142). -/
  | rddes (r m : Nat)
  /-- FIRE r, m, c, s (41_image_assembly.md R170). -/
  | fire (r m c : Nat) (s : Bool)
  /-- TRANSMIT p (42_serial_transmit.md R200). -/
  | transmit (p : Bool)
  /-- CLRIMG (43_accessors.md R230). -/
  | clrimg
  /-- SETROWSET r (R231). -/
  | setrowset (r : Nat)
  /-- SETROWRESET r (R232). -/
  | setrowreset (r : Nat)
  /-- GETROWSET (R233). -/
  | getrowset
  /-- GETROWRESET (R234). -/
  | getrowreset
  /-- SETCOL m, c (R235). -/
  | setcol (m c : Nat)
  /-- GETCOL m (R236). -/
  | getcol (m : Nat)
  /-- SETADDR (R237). -/
  | setaddr
  /-- GETADDR (R238). -/
  | getaddr
  /-- SETDIR d (R239). -/
  | setdir (d : Bool)
  /-- GETDIR (R240). -/
  | getdir
  /-- SETIND ib (R241). -/
  | setind (ib : Nat)
  /-- GETIND (R242). -/
  | getind
  /-- RDIMG k (R243). -/
  | rdimg (k : Nat)
deriving DecidableEq, Repr

end Sys2Proof
end

