-- ==== Sys2Proof/WellFormed.lean ====
section
/-! DEFINITION. Which commands fit the fields of the command word (30_encoding.md R101, R108): "An operand that does
not fit its field is an assembler error, not a command". -/

namespace Sys2Proof

/-- Fields A and B have 8 bits (R101). -/
def fitsByte (n : Nat) : Bool := decide (n < 256)

/-- COL is C[4:0] (R101). -/
def fitsCol (n : Nat) : Bool := decide (n < 32)

/-- IB is C[2:0] (R101). -/
def fitsInd (n : Nat) : Bool := decide (n < 8)

/-- Every operand fits its field. -/
def Instr.wf : Instr → Bool
  | .init => true
  | .wrdes r m => fitsByte r && fitsByte m
  | .rdcur r m => fitsByte r && fitsByte m
  | .paint _ => true
  | .clear => true
  | .fill => true
  | .inverse => true
  | .magnetize => true
  | .rddes r m => fitsByte r && fitsByte m
  | .fire r m c _ => fitsByte r && fitsByte m && fitsCol c
  | .transmit _ => true
  | .clrimg => true
  | .setrowset r => fitsByte r
  | .setrowreset r => fitsByte r
  | .getrowset => true
  | .getrowreset => true
  | .setcol m c => fitsByte m && fitsCol c
  | .getcol m => fitsByte m
  | .setaddr => true
  | .getaddr => true
  | .setdir _ => true
  | .getdir => true
  | .setind ib => fitsInd ib
  | .getind => true
  | .rdimg k => fitsByte k

end Sys2Proof
end

