-- ==== Sys2Proof/Decode.lean ====
section
/-! DEFINITION. Decoding and encoding of command words (30_encoding.md R101 to R107), total on every 32-bit word, and
the machine-readable opcode table's match and mask pairs (R103). -/

namespace Sys2Proof

/-! ## Fields of a command word (R101, R102) -/

/-- OP = CMD[31:24]. -/
def fieldOp (w : Word) : Nat := (w.extractLsb' 24 8).toNat

/-- A = CMD[23:16], zero-extended: r or k. -/
def fieldA (w : Word) : Nat := (w.extractLsb' 16 8).toNat

/-- B = CMD[15:8], zero-extended: m. -/
def fieldB (w : Word) : Nat := (w.extractLsb' 8 8).toNat

/-- C = CMD[7:0]. -/
def fieldC (w : Word) : Nat := (w.extractLsb' 0 8).toNat

/-- C[7] = S. -/
def fieldS (w : Word) : Bool := w.getLsbD 7

/-- C[6:5], which FIRE and SETCOL require to be 0. -/
def fieldMid (w : Word) : Nat := (w.extractLsb' 5 2).toNat

/-- C[4:0] = COL. -/
def fieldCol (w : Word) : Nat := (w.extractLsb' 0 5).toNat

/-- C[2:0] = IB. -/
def fieldInd (w : Word) : Nat := (w.extractLsb' 0 3).toNat

/-- C[0] = F, P or D. -/
def fieldFlag (w : Word) : Bool := w.getLsbD 0

/-- C[7:1], which the one-bit-flag commands require to be 0. -/
def fieldAboveFlag (w : Word) : Nat := (w.extractLsb' 1 7).toNat

/-- C[7:3], which SETIND requires to be 0. -/
def fieldAboveInd (w : Word) : Nat := (w.extractLsb' 3 5).toNat

/-- `i` when the pattern's fixed zeros are zero, else the word is illegal (R103). -/
def legalIf (zeros : Bool) (i : Instr) : Option Instr := if zeros then some i else none

/-- The command a word stands for, or none: an ILLEGAL word (R106). Total (R107). -/
def decode (w : Word) : Option Instr :=
  let a := fieldA w
  let b := fieldB w
  let c := fieldC w
  match fieldOp w with
  | 0x01 => legalIf (a == 0 && b == 0 && c == 0) .init
  | 0x02 => legalIf (c == 0) (.wrdes a b)
  | 0x03 => legalIf (c == 0) (.rdcur a b)
  | 0x04 => legalIf (a == 0 && b == 0 && fieldAboveFlag w == 0) (.paint (fieldFlag w))
  | 0x05 => legalIf (a == 0 && b == 0 && c == 0) .clear
  | 0x06 => legalIf (a == 0 && b == 0 && c == 0) .fill
  | 0x07 => legalIf (a == 0 && b == 0 && c == 0) .inverse
  | 0x08 => legalIf (a == 0 && b == 0 && c == 0) .magnetize
  | 0x09 => legalIf (c == 0) (.rddes a b)
  | 0x10 => legalIf (fieldMid w == 0) (.fire a b (fieldCol w) (fieldS w))
  | 0x11 => legalIf (a == 0 && b == 0 && fieldAboveFlag w == 0) (.transmit (fieldFlag w))
  | 0x12 => legalIf (a == 0 && b == 0 && c == 0) .clrimg
  | 0x13 => legalIf (b == 0 && c == 0) (.setrowset a)
  | 0x14 => legalIf (b == 0 && c == 0) (.setrowreset a)
  | 0x15 => legalIf (a == 0 && b == 0 && c == 0) .getrowset
  | 0x16 => legalIf (a == 0 && b == 0 && c == 0) .getrowreset
  | 0x17 => legalIf (a == 0 && !fieldS w && fieldMid w == 0) (.setcol b (fieldCol w))
  | 0x18 => legalIf (a == 0 && c == 0) (.getcol b)
  | 0x19 => legalIf (a == 0 && b == 0 && c == 0) .setaddr
  | 0x1A => legalIf (a == 0 && b == 0 && c == 0) .getaddr
  | 0x1B => legalIf (a == 0 && b == 0 && fieldAboveFlag w == 0) (.setdir (fieldFlag w))
  | 0x1C => legalIf (a == 0 && b == 0 && c == 0) .getdir
  | 0x1D => legalIf (a == 0 && b == 0 && fieldAboveInd w == 0) (.setind (fieldInd w))
  | 0x1E => legalIf (a == 0 && b == 0 && c == 0) .getind
  | 0x1F => legalIf (b == 0 && c == 0) (.rdimg a)
  | _ => none

/-! ## Encoding (R108: CMD = OP<<24 | A<<16 | B<<8 | C) -/

/-- The word with the four fields given; a field keeps its low 8 bits. -/
def wordOf (op a b c : Nat) : Word :=
  BitVec.ofNat 8 op ++ BitVec.ofNat 8 a ++ BitVec.ofNat 8 b ++ BitVec.ofNat 8 c

/-- The OP field of each command (R104). -/
def opcode : Instr → Nat
  | .init => 0x01
  | .wrdes _ _ => 0x02
  | .rdcur _ _ => 0x03
  | .paint _ => 0x04
  | .clear => 0x05
  | .fill => 0x06
  | .inverse => 0x07
  | .magnetize => 0x08
  | .rddes _ _ => 0x09
  | .fire _ _ _ _ => 0x10
  | .transmit _ => 0x11
  | .clrimg => 0x12
  | .setrowset _ => 0x13
  | .setrowreset _ => 0x14
  | .getrowset => 0x15
  | .getrowreset => 0x16
  | .setcol _ _ => 0x17
  | .getcol _ => 0x18
  | .setaddr => 0x19
  | .getaddr => 0x1A
  | .setdir _ => 0x1B
  | .getdir => 0x1C
  | .setind _ => 0x1D
  | .getind => 0x1E
  | .rdimg _ => 0x1F

/-- The command word of a command (R104, R108). -/
def encode (i : Instr) : Word :=
  match i with
  | .wrdes r m => wordOf (opcode i) r m 0
  | .rdcur r m => wordOf (opcode i) r m 0
  | .rddes r m => wordOf (opcode i) r m 0
  | .paint f => wordOf (opcode i) 0 0 f.toNat
  | .fire r m c s => wordOf (opcode i) r m (s.toNat * 128 + c)
  | .transmit p => wordOf (opcode i) 0 0 p.toNat
  | .setrowset r => wordOf (opcode i) r 0 0
  | .setrowreset r => wordOf (opcode i) r 0 0
  | .setcol m c => wordOf (opcode i) 0 m c
  | .getcol m => wordOf (opcode i) 0 m 0
  | .setdir d => wordOf (opcode i) 0 0 d.toNat
  | .setind ib => wordOf (opcode i) 0 0 ib
  | .rdimg k => wordOf (opcode i) k 0 0
  | .init => wordOf (opcode i) 0 0 0
  | .clear => wordOf (opcode i) 0 0 0
  | .fill => wordOf (opcode i) 0 0 0
  | .inverse => wordOf (opcode i) 0 0 0
  | .magnetize => wordOf (opcode i) 0 0 0
  | .clrimg => wordOf (opcode i) 0 0 0
  | .getrowset => wordOf (opcode i) 0 0 0
  | .getrowreset => wordOf (opcode i) 0 0 0
  | .setaddr => wordOf (opcode i) 0 0 0
  | .getaddr => wordOf (opcode i) 0 0 0
  | .getdir => wordOf (opcode i) 0 0 0
  | .getind => wordOf (opcode i) 0 0 0

/-! ## The opcode table's match and mask pairs (R103, opcode_table.json) -/

/-- One row of opcode_table.json. -/
structure OpcodeRow where
  mnemonic : String
  pattern : Word
  mask : Word
deriving DecidableEq, Repr

/-- A row accepts a word when `(CMD & mask) == match` (R103). -/
def OpcodeRow.accepts (row : OpcodeRow) (w : Word) : Bool := (w &&& row.mask) == row.pattern

/-- The rows of opcode_table.json, in its order. -/
def opcodeRows : List OpcodeRow :=
  [⟨"INIT", 0x01000000, 0xFFFFFFFF⟩, ⟨"WRDES", 0x02000000, 0xFF0000FF⟩, ⟨"RDCUR", 0x03000000, 0xFF0000FF⟩,
   ⟨"PAINT", 0x04000000, 0xFFFFFFFE⟩, ⟨"CLEAR", 0x05000000, 0xFFFFFFFF⟩, ⟨"FILL", 0x06000000, 0xFFFFFFFF⟩,
   ⟨"INVERSE", 0x07000000, 0xFFFFFFFF⟩, ⟨"MAGNETIZE", 0x08000000, 0xFFFFFFFF⟩, ⟨"RDDES", 0x09000000, 0xFF0000FF⟩] ++
  [⟨"FIRE", 0x10000000, 0xFF000060⟩, ⟨"TRANSMIT", 0x11000000, 0xFFFFFFFE⟩, ⟨"CLRIMG", 0x12000000, 0xFFFFFFFF⟩,
   ⟨"SETROWSET", 0x13000000, 0xFF00FFFF⟩, ⟨"SETROWRESET", 0x14000000, 0xFF00FFFF⟩,
   ⟨"GETROWSET", 0x15000000, 0xFFFFFFFF⟩, ⟨"GETROWRESET", 0x16000000, 0xFFFFFFFF⟩,
   ⟨"SETCOL", 0x17000000, 0xFFFF00E0⟩, ⟨"GETCOL", 0x18000000, 0xFFFF00FF⟩] ++
  [⟨"SETADDR", 0x19000000, 0xFFFFFFFF⟩, ⟨"GETADDR", 0x1A000000, 0xFFFFFFFF⟩, ⟨"SETDIR", 0x1B000000, 0xFFFFFFFE⟩,
   ⟨"GETDIR", 0x1C000000, 0xFFFFFFFF⟩, ⟨"SETIND", 0x1D000000, 0xFFFFFFF8⟩, ⟨"GETIND", 0x1E000000, 0xFFFFFFFF⟩,
   ⟨"RDIMG", 0x1F000000, 0xFF00FFFF⟩]

/-- The mnemonic of each command (R104). -/
def mnemonic : Instr → String
  | .init => "INIT"
  | .wrdes _ _ => "WRDES"
  | .rdcur _ _ => "RDCUR"
  | .paint _ => "PAINT"
  | .clear => "CLEAR"
  | .fill => "FILL"
  | .inverse => "INVERSE"
  | .magnetize => "MAGNETIZE"
  | .rddes _ _ => "RDDES"
  | .fire _ _ _ _ => "FIRE"
  | .transmit _ => "TRANSMIT"
  | .clrimg => "CLRIMG"
  | .setrowset _ => "SETROWSET"
  | .setrowreset _ => "SETROWRESET"
  | .getrowset => "GETROWSET"
  | .getrowreset => "GETROWRESET"
  | .setcol _ _ => "SETCOL"
  | .getcol _ => "GETCOL"
  | .setaddr => "SETADDR"
  | .getaddr => "GETADDR"
  | .setdir _ => "SETDIR"
  | .getdir => "GETDIR"
  | .setind _ => "SETIND"
  | .getind => "GETIND"
  | .rdimg _ => "RDIMG"

/-- The command read from an instruction whose bits are `w`: the first word (bits 31..0) is CMD, the second (bits
63..32) is WDATA, which no decoding reads (R100, R103). -/
def decodeTableWord (nbits w : Nat) : Option Instr := decode (BitVec.ofNat 32 (w % 2 ^ nbits))

end Sys2Proof
end

