-- ==== Sys2Proof/Config.lean ====
section
/-! DEFINITION. The configuration of the DDE (00_scope.md R8 to R16): plain data, fixed for the block's lifetime.
All its values are OPEN in the spec, so every statement about the machine holds for every configuration.
The spec's checks of it (R16) and the helpers that read it (R21) are in Machine/Params.lean. -/

namespace Sys2Proof

/-- IND_MODE (R14). -/
inductive IndMode where
  | static
  | auto
deriving DecidableEq, Repr

/-- The implementation parameters. Lists hold the indexed ones: COLS[m] is entry m of `cols`, and so on. -/
structure Config where
  /-- ROWS, R (R9). -/
  rows : Nat
  /-- MODULES, M (R9). -/
  modules : Nat
  /-- COLS[m] (R9). -/
  cols : List Nat
  /-- MAXCOL (R10). -/
  maxCol : Nat
  /-- NCC (R11). -/
  ncc : Nat
  /-- CCT[i] (R11). -/
  cct : List Nat
  /-- NAW (R12). -/
  naw : Nat
  /-- ADDR[m] (R12). -/
  addr : List Nat
  /-- NL (R13). -/
  nl : Nat
  /-- ROWSET_LINE[r] (R13). -/
  rowSetLine : List Nat
  /-- ROWRESET_LINE[r] (R13). -/
  rowResetLine : List Nat
  /-- COLCODE_LINE[j] (R13). -/
  colCodeLine : List Nat
  /-- ADDR_LINE[i] (R13). -/
  addrLine : List Nat
  /-- DIR_LINE (R13). -/
  dirLine : Nat
  /-- IND_LINE[k] (R13). -/
  indLine : List Nat
  /-- IND_MODE (R14). -/
  indMode : IndMode
  /-- IND_TOGGLE (R14). -/
  indToggle : Nat
  /-- T_CLR, in microseconds (R15). -/
  tClr : Rat
  /-- T_CLK (R15). -/
  tClk : Rat
  /-- T_LATCH (R15). -/
  tLatch : Rat
  /-- T_EN (R15). -/
  tEn : Rat
  /-- T_EN_MAX (R15, R208). -/
  tEnMax : Rat
  /-- T_ST (R15). -/
  tSt : Rat
  /-- INVERSE_CYCLE (R15, R154). -/
  inverseCycle : Bool
deriving DecidableEq, Repr

/-- DESIGN CHOICE (log 1, unsafe): the configuration of the block whose State.reset the host asks for, EX1 of
95_test_vectors.md section 1. EX1 leaves IND_TOGGLE (R14) and the values of the timing parameters (R15) open: IND_TOGGLE
is 0 here, every hold is one microsecond, and so is T_EN_MAX. No statement rests on these values. -/
def Config.ex1 : Config where
  rows := 2
  modules := 1
  cols := [8]
  maxCol := 8
  ncc := 4
  cct := [1, 2, 3, 4, 5, 6, 7, 8]
  naw := 2
  addr := [1]
  nl := 16
  rowSetLine := [0, 1]
  rowResetLine := [2, 3]
  colCodeLine := [4, 5, 6, 7]
  addrLine := [8, 9]
  dirLine := 10
  indLine := [11, 12, 13]
  indMode := .static
  indToggle := 0
  tClr := 1
  tClk := 1
  tLatch := 1
  tEn := 1
  tEnMax := 1
  tSt := 1
  inverseCycle := false

end Sys2Proof
end

