-- ==== Sys2Proof/Machine/Bits.lean ====
section
/-! DEFINITION. Bit extraction and the single-bit masks (00_scope.md R18, R19; 10_state.md R42). -/

namespace Sys2Proof.Machine

/-- `bit(x, i) = (x >> i) & 1`, with the grouping written out (R19). -/
def bit (x i : Nat) : Bool := ((x >>> i) &&& 1) == 1

/-- Bit `i` of a 32-bit word (R19). -/
def wordBit (w : Word) (i : Nat) : Bool := bit w.toNat i

/-- BIT32[i] = 1 << i (R42). -/
def bit32 (i : Nat) : Word := 1#32 <<< i

/-- BIT8[i] = 1 << i (R42, D15). -/
def bit8 (i : Nat) : Byte := 1#8 <<< i

/-- A byte with bit `i` driven to `b` by the mask BIT8[i]. -/
def setBit8 (x : Byte) (i : Nat) (b : Bool) : Byte := if b then x ||| bit8 i else x &&& ~~~(bit8 i)

/-- SENTINEL, the not-found value (00_scope.md R21, D27). -/
def sentinel : Word := 0xFFFFFFFF#32

end Sys2Proof.Machine
end

