-- ==== Sys2Proof/Machine/Params.lean ====
section
/-! DEFINITION. Reading the configuration (00_scope.md R9 to R13, R21) and its validity check (R16).
An index outside a list reads 0. A valid configuration never reaches that: R16 fixes every list's length, and the
bounds checks of 60_exceptions.md R302 come before any use of an index. -/

namespace Sys2Proof.Machine

/-- COLS[m]. -/
def colCount (c : Config) (m : Nat) : Nat := c.cols.getD m 0

/-- ADDR[m]. -/
def moduleAddr (c : Config) (m : Nat) : Nat := c.addr.getD m 0

/-- ROWSET_LINE[r]. -/
def rowSet (c : Config) (r : Nat) : Nat := c.rowSetLine.getD r 0

/-- ROWRESET_LINE[r]. -/
def rowReset (c : Config) (r : Nat) : Nat := c.rowResetLine.getD r 0

/-- COLCODE_LINE[j]. -/
def codeLine (c : Config) (j : Nat) : Nat := c.colCodeLine.getD j 0

/-- ADDR_LINE[i]. -/
def addressLine (c : Config) (i : Nat) : Nat := c.addrLine.getD i 0

/-- IND_LINE[k]. -/
def indicatorLine (c : Config) (k : Nat) : Nat := c.indLine.getD k 0

/-- FULL(m), the module's full column mask; no shift by 32 is computed (R21). -/
def full (c : Config) (m : Nat) : Word :=
  if colCount c m = 32 then 0xFFFFFFFF#32 else bit32 (colCount c m) - 1#32

/-- OFF(m) = MAXCOL - COLS[m], the offset of the right-aligned window (R21, 41_image_assembly.md R174). -/
def off (c : Config) (m : Nat) : Nat := c.maxCol - colCount c m

/-- CCT[OFF(m) + col], the column code of column `col` of module `m` (41_image_assembly.md R174). -/
def columnCode (c : Config) (m col : Nat) : Nat := c.cct.getD (off c m + col) 0

/-- NBYTES = ceil(NL / 8) (R13). -/
def nbytes (c : Config) : Nat := (c.nl + 7) / 8

/-- ceil(NL / 32), the size of the image word space (10_state.md R43). -/
def nwords (c : Config) : Nat := (c.nl + 31) / 32

/-- Every line number of R13. -/
def roleLines (c : Config) : List Nat :=
  c.rowSetLine ++ c.rowResetLine ++ c.colCodeLine ++ c.addrLine ++ [c.dirLine] ++ c.indLine

/-- The indexed parameters have one entry per index (R9, R11 to R13, R17). -/
def shapesFit (c : Config) : Bool :=
  c.cols.length == c.modules && c.addr.length == c.modules && c.cct.length == c.maxCol &&
  c.rowSetLine.length == c.rows && c.rowResetLine.length == c.rows &&
  c.colCodeLine.length == c.ncc && c.addrLine.length == c.naw && c.indLine.length == 3

/-- First and second condition of R16: the grid and its bounds. -/
def gridFits (c : Config) : Bool :=
  decide (1 ≤ c.rows) && decide (1 ≤ c.modules) && c.cols.all (fun n => decide (1 ≤ n) && decide (n ≤ c.maxCol)) &&
  decide (c.maxCol ≤ 32) && decide (c.rows ≤ 256) && decide (c.modules ≤ 256) && decide (c.nl ≤ 8192)

/-- Third and fourth condition of R16: the column codes and the module addresses. -/
def codesFit (c : Config) : Bool :=
  decide (1 ≤ c.ncc) && decide (c.ncc ≤ 32) && c.cct.all (fun x => decide (x < 2 ^ c.ncc)) &&
  decide (c.naw ≤ 32) && c.addr.all (fun x => decide (x < 2 ^ c.naw))

/-- Fifth and sixth condition of R16: line numbers below NL and pairwise distinct. -/
def linesFit (c : Config) : Bool :=
  (roleLines c).all (fun l => decide (l < c.nl)) && decide (roleLines c).Nodup

/-- Seventh and eighth condition of R16: IND_TOGGLE and the timing parameters. -/
def timingFits (c : Config) : Bool :=
  decide (c.indToggle ≤ 2) && decide (0 ≤ c.tClr) && decide (0 ≤ c.tClk) && decide (0 ≤ c.tLatch) &&
  decide (0 ≤ c.tEn) && decide (0 ≤ c.tSt) && decide (c.tEn ≤ c.tEnMax)

/-- A configuration is valid when all conditions of R16 hold. -/
def validConfig (c : Config) : Bool := shapesFit c && gridFits c && codesFit c && linesFit c && timingFits c

/-- One dot: row, module, column. -/
structure Dot where
  r : Nat
  m : Nat
  c : Nat
deriving DecidableEq, Repr

/-- The sweep visits every (r, m, c), r outermost, then m, then c, each ascending (R22). -/
def sweep (c : Config) : List Dot :=
  (List.range c.rows).flatMap fun r => (List.range c.modules).flatMap fun m =>
    (List.range (colCount c m)).map fun col => ⟨r, m, col⟩

end Sys2Proof.Machine
end

