-- ==== Sys2Proof/Machine/Snapshot.lean ====
section
/-! DEFINITION. The two dot-matrix snapshots' form: R × M words of 32 bits (10_state.md R32, R33). -/

namespace Sys2Proof.Machine

/-- An array of rows, each a list of one word per module; word (r, m) is entry m of entry r. -/
abbrev Snapshot := List (List Word)

/-- The word at (r, m). An index outside the array reads 0; the prologue's bounds check comes before any read (R302). -/
def Snapshot.word (s : Snapshot) (r m : Nat) : Word := (s.getD r []).getD m 0#32

/-- The array with the word at (r, m) replaced. -/
def Snapshot.put (s : Snapshot) (r m : Nat) (w : Word) : Snapshot := s.modify r fun row => row.set m w

/-- `for r in 0..R-1: for m in 0..M-1: X[r][m] <- f r m`. -/
def tabulate (c : Config) (f : Nat → Nat → Word) : Snapshot :=
  (List.range c.rows).map fun r => (List.range c.modules).map fun m => f r m

/-- Every word 0. -/
def zeroSnapshot (c : Config) : Snapshot := tabulate c fun _ _ => 0#32

/-- R rows of M words. -/
def Snapshot.fits (s : Snapshot) (c : Config) : Bool :=
  s.length == c.rows && s.all fun row => row.length == c.modules

/-- Bit c of word (r, m) is column c of module m in row r (20_memory.md R72). -/
def Snapshot.dot (s : Snapshot) (d : Dot) : Bool := wordBit (s.word d.r d.m) d.c

end Sys2Proof.Machine
end

