-- ==== Sys2Proof/Machine/Image.lean ====
section
/-! DEFINITION. The image's byte store (10_state.md R35; 20_memory.md R71) and its one-bit lines.
The bytes are a list of (byte address, byte) pairs in one canonical form: addresses strictly rising, no entry equal to
what an unlisted address reads as. An unlisted byte reads 0, the reset contents of R35. -/

namespace Sys2Proof.Machine

/-- The stored bytes of IMG. -/
abbrev Memory := List Host.Cell

/-- What an unlisted byte reads as: "Reset value: 0 in every line" (R35). -/
def unlisted : Byte := 0#8

/-- The canonical form. -/
def Memory.wf (mem : Memory) : Bool :=
  decide (mem.Pairwise fun x y => x.1 < y.1) && mem.all fun cell => cell.2 != unlisted

/-- One byte. -/
def Memory.read (mem : Memory) (a : Nat) : Byte :=
  match mem with
  | [] => unlisted
  | (a', b) :: rest => if a' = a then b else Memory.read rest a

/-- The store without address `a`. -/
def Memory.erase (mem : Memory) (a : Nat) : Memory := mem.filter fun cell => cell.1 != a

/-- The store with a cell put in address order. -/
def Memory.insertCell (mem : Memory) (a : Nat) (b : Byte) : Memory :=
  match mem with
  | [] => [(a, b)]
  | (a', b') :: rest => if a < a' then (a, b) :: (a', b') :: rest else (a', b') :: Memory.insertCell rest a b

/-- Write one byte, keeping the canonical form: writing what an unlisted address reads as removes the entry. -/
def Memory.write (mem : Memory) (a : Nat) (b : Byte) : Memory :=
  if b = unlisted then mem.erase a else (mem.erase a).insertCell a b

/-- Line L is bit (L & 7) of byte (L >> 3) (R71). -/
def Memory.line (mem : Memory) (L : Nat) : Bool := (mem.read (L / 8)).getLsbD (L % 8)

/-- Drive stored line L to `b`, by the 8-bit mask table (R42, R71). -/
def Memory.setLine (mem : Memory) (L : Nat) (b : Bool) : Memory :=
  mem.write (L / 8) (setBit8 (mem.read (L / 8)) (L % 8) b)

/-- `IMG[L] <- b`: only lines below NL exist, so the padding bits are never written (R35). -/
def putLine (c : Config) (L : Nat) (b : Bool) (mem : Memory) : Memory :=
  if L < c.nl then mem.setLine L b else mem

/-- `for j in 0..n-1: IMG[lineOf j] <- bit(v, j)`. -/
def driveField (c : Config) (lineOf : Nat → Nat) (n v : Nat) (mem : Memory) : Memory :=
  (List.range n).foldl (fun img j => putLine c (lineOf j) (bit v j) img) mem

/-- `for j in 0..n-1: IMG[lineOf j] <- 0`. -/
def clearLines (c : Config) (lineOf : Nat → Nat) (n : Nat) (mem : Memory) : Memory :=
  (List.range n).foldl (fun img j => putLine c (lineOf j) false img) mem

/-- `sum over j < n of IMG[lineOf j] << j`. -/
def readField (mem : Memory) (lineOf : Nat → Nat) (n : Nat) : Nat :=
  ((List.range n).map fun j => (mem.line (lineOf j)).toNat <<< j).sum

/-- An image with every line 0. -/
def zeroImage : Memory := []

/-- Steps (1) to (6) of AF without the toggle: the image of one dot's actuation (41_image_assembly.md R171 to R177).
`ind` is IND after the toggle. -/
def assembleImage (c : Config) (d : Dot) (s : Bool) (ind : BitVec 3) : Memory :=
  let img := zeroImage                                                           -- (1)
  let img := putLine c (if s then rowSet c d.r else rowReset c d.r) true img     -- (2)
  let img := driveField c (codeLine c) c.ncc (columnCode c d.m d.c) img          -- (3)
  let img := driveField c (addressLine c) c.naw (moduleAddr c d.m) img           -- (4)
  let img := putLine c c.dirLine (!s) img                                        -- (5)
  driveField c (indicatorLine c) 3 ind.toNat img                                 -- (6)

/-- The image SHOWIND builds: the indicator lines alone (44_system.md R271). -/
def indicatorImage (c : Config) (ind : BitVec 3) : Memory :=
  driveField c (indicatorLine c) 3 ind.toNat zeroImage

end Sys2Proof.Machine
end

