-- ==== Sys2Proof/Machine/Trace.lean ====
section
/-! DEFINITION. The five output pins (10_state.md R40), the pin trace (00_scope.md R20; 20_memory.md R81), the events
of one transmission (42_serial_transmit.md R201) and of the self-test (44_system.md R271), and the equivalence of
traces (R209). -/

namespace Sys2Proof.Machine

/-- The five direct output pins (R40). -/
inductive Pin where
  | clk
  | data
  | latch
  | clr
  | en
deriving DecidableEq, Repr

/-- The level of each pin (R40). -/
structure Pins where
  clk : Bool
  data : Bool
  latch : Bool
  clr : Bool
  en : Bool
deriving DecidableEq, Repr

/-- Reset levels (R40, D11). -/
def Pins.reset : Pins := ⟨false, false, false, true, false⟩

/-- The level of one pin. -/
def Pins.level (p : Pins) : Pin → Bool
  | .clk => p.clk
  | .data => p.data
  | .latch => p.latch
  | .clr => p.clr
  | .en => p.en

/-- The levels after one pin is driven. -/
def Pins.drive (p : Pins) (pin : Pin) (v : Bool) : Pins :=
  match pin with
  | .clk => { p with clk := v }
  | .data => { p with data := v }
  | .latch => { p with latch := v }
  | .clr => { p with clr := v }
  | .en => { p with en := v }

/-- One entry of the pin trace. -/
inductive PinEvent where
  /-- `Pin(p, v)` (R20). -/
  | pin (p : Pin) (v : Bool)
  /-- `Hold(t)` (R20, R207). -/
  | hold (t : Rat)
  /-- The model's own mark, no pin event of the spec: here a reset gives all five pins their reset levels at once
  (R340, R342; log 3). -/
  | rst
deriving DecidableEq, Repr

/-- A pin trace, oldest entry first. -/
abbrev Trace := List PinEvent

/-- The levels after one entry. -/
def Pins.after (p : Pins) : PinEvent → Pins
  | .pin q v => p.drive q v
  | .hold _ => p
  | .rst => Pins.reset

/-- The levels after a trace: "Each pin holds the level of its last write" (R40). -/
def Pins.afterAll (p : Pins) (tr : Trace) : Pins := tr.foldl Pins.after p

/-- Is it a pin write event? (R211) -/
def PinEvent.isWrite : PinEvent → Bool
  | .pin _ _ => true
  | .hold _ => false
  | .rst => false

/-- Is it a hold event? (R211) -/
def PinEvent.isHold : PinEvent → Bool
  | .pin _ _ => false
  | .hold _ => true
  | .rst => false

/-- Step (c) of TX for one line: data, then a clock pulse (R204). -/
def shiftLine (c : Config) (b : Bool) : Trace :=
  [.pin .data b, .pin .clk true, .hold c.tClk, .pin .clk false]

/-- Step (c) for lines n-1 down to 0 (R204). -/
def shiftLines (c : Config) (img : Memory) : Nat → Trace
  | 0 => []
  | n + 1 => shiftLine c (img.line n) ++ shiftLines c img n

/-- Step (b), the clear pulse (R203). -/
def clearPulse (c : Config) : Trace := [.pin .clr false, .hold c.tClr, .pin .clr true]

/-- Step (d), the latch pulse (R205). -/
def latchPulse (c : Config) : Trace := [.pin .latch true, .hold c.tLatch, .pin .latch false]

/-- Step (e), the energize pulse (R206). -/
def energizePulse (c : Config) : Trace := [.pin .en true, .hold c.tEn, .pin .en false]

/-- The events of TX(p) for a staged image (R201). -/
def txTrace (c : Config) (img : Memory) (p : Bool) : Trace :=
  .pin .clk false ::                                    -- (a)
    (clearPulse c ++                                    -- (b)
      (shiftLines c img c.nl ++                         -- (c)
        (latchPulse c ++                                -- (d)
          (if p then energizePulse c else []))))        -- (e)

/-- The events of one shown indicator state of the self-test, with its hold (44_system.md R271). -/
def showTrace (c : Config) (ind : BitVec 3) : Trace :=
  txTrace c (indicatorImage c ind) false ++ [.hold c.tSt]

/-- The events of SELFTEST: three times all on, all off (R271). -/
def selfTestTrace (c : Config) : Trace :=
  (List.replicate 3 (showTrace c 7#3 ++ showTrace c 0#3)).flatten

/-- One five-pin level vector of a trace and the longest hold asked for while it lasts. -/
structure Dwell where
  levels : Pins
  hold : Rat
deriving DecidableEq, Repr

/-- The level vectors a trace produces, under the two normalisations of R209: "a write that leaves its pin's level
unchanged is dropped, and adjacent `Hold`s are merged by taking the maximum". `d` is the vector in force. -/
def dwellsFrom (d : Dwell) : Trace → List Dwell
  | [] => [d]
  | .hold t :: rest => dwellsFrom ⟨d.levels, if d.hold ≤ t then t else d.hold⟩ rest
  | .pin q v :: rest =>
      if d.levels.level q = v then dwellsFrom d rest else d :: dwellsFrom ⟨d.levels.drive q v, 0⟩ rest
  | .rst :: rest => if d.levels = Pins.reset then dwellsFrom d rest else d :: dwellsFrom ⟨Pins.reset, 0⟩ rest

/-- A trace in the normal form of R209, from given levels. -/
def normalise (p : Pins) (tr : Trace) : List Dwell := dwellsFrom ⟨p, 0⟩ tr

/-- Two traces from the same levels are equivalent when they "produce the same sequence of five-pin level vectors"
(R209). -/
def traceEquiv (p : Pins) (x y : Trace) : Bool :=
  (normalise p x).map Dwell.levels == (normalise p y).map Dwell.levels

/-- A conforming DDE "produces a trace equivalent to the one its rules give, with each hold at least as long" (R209). -/
def conforms (p : Pins) (produced required : Trace) : Bool :=
  traceEquiv p produced required &&
  ((normalise p produced).zip (normalise p required)).all fun xy => decide (xy.2.hold ≤ xy.1.hold)

/-- The least time a trace takes: the sum of its holds (70_reset_and_hazards.md R360). -/
def minTime (tr : Trace) : Rat :=
  match tr with
  | [] => 0
  | .hold t :: rest => t + minTime rest
  | .pin _ _ :: rest => minTime rest
  | .rst :: rest => minTime rest

end Sys2Proof.Machine
end

