-- ==== Sys2Proof/Machine/State.lean ====
section
/-! DEFINITION. The state of the DDE as plain data (10_state.md R30 to R43), the ways a step can stop, and the state
after reset (70_reset_and_hazards.md R340, R341). -/

namespace Sys2Proof.Machine

/-- Ways a step can stop with a fault: none. The spec's own faults (ILLEGAL, BOUNDS, CONFIG; 60_exceptions.md R300)
are taken as next states, and no behaviour is left undefined (93_implementation_defined.md). -/
inductive Fault where
deriving DecidableEq, Repr

/-- Ways a step can have no meaning. -/
inductive Refusal where
  /-- Raised by exec's arm of an instruction without a meaning yet; safe (nothing is claimed of it). No arm raises it. -/
  | notModelled (mnemonic : String)
deriving DecidableEq, Repr

/-- What the sequencer holds of a running command or reset sequence (R41): the loop cursors and the position in the
running pin trace. -/
structure Cursors where
  /-- Repeat count: the sweep of MAGNETIZE or the round of the self-test. -/
  rep : Nat
  r : Nat
  m : Nat
  c : Nat
  /-- Line index of the running transmission: NL-1 down to 0 (42_serial_transmit.md R204). -/
  line : Nat
  /-- Pin-trace entries since the command, or the reset sequence, began. -/
  pos : Nat
deriving DecidableEq, Repr

/-- The cursors when a command or the reset sequence starts. DESIGN CHOICE (log 16): the spec gives a loop cursor no value
before its loop sets it; 0 here. The position is 0 because nothing has been emitted yet. -/
def Cursors.start : Cursors := ⟨0, 0, 0, 0, 0, 0⟩

/-- The sequencer's hidden state (R41); its constructors are the two phases. No command reads it. -/
inductive Sequencer where
  /-- "IDLE with no command" (R41): there is no running command, so no cursor and no position exists. -/
  | idle
  /-- BUSY: a command, or the reset sequence, is running. -/
  | busy (cursors : Cursors)
deriving DecidableEq, Repr

/-- BUSY at the start of a command (R41). -/
def Sequencer.start : Sequencer := .busy Cursors.start

/-- The cursors of the running command moved; IDLE has none to move. -/
def Sequencer.move (q : Sequencer) (f : Cursors → Cursors) : Sequencer :=
  match q with
  | .idle => .idle
  | .busy k => .busy (f k)

/-- READY: "1 when the sequencer is IDLE and able to accept a command" (R39). -/
def Sequencer.ready (q : Sequencer) : Bool :=
  match q with
  | .idle => true
  | .busy _ => false

/-- What the host does next at the port (R39, R340, R342; log 2). `rst` lists the moments at which the reset input is
asserted while this runs, each counted in pin-trace entries since the running command, or the running reset sequence,
began; the empty list is an undisturbed run. -/
inductive Input where
  /-- CMD and WDATA presented together, held until READY = 1 (R100, R354). -/
  | command (cmd wdata : Word) (rst : List Nat)
  /-- The reset input asserted, or power-up (R340, R325). -/
  | reset (rst : List Nat)
deriving DecidableEq, Repr

structure State where
  /-- The configuration (00_scope.md R8): no state of the spec, never written; here because `step` takes only a State. -/
  cfg : Config
  /-- CUR (R32). -/
  cur : Snapshot
  /-- DES (R33). -/
  des : Snapshot
  /-- IMG, as its stored bytes (R35). -/
  img : Memory
  /-- IND[0..2]: bit k is IND[k] (R37). -/
  ind : BitVec 3
  /-- FAULTED (R38). -/
  faulted : Bool
  /-- FAULTCODE (R38). -/
  faultCode : BitVec 3
  /-- CMD (R39). -/
  cmd : Word
  /-- WDATA (R39). -/
  wdata : Word
  /-- STATUS (R39). -/
  status : BitVec 3
  /-- RDATA (R39). -/
  rdata : Word
  /-- The output pins (R40). -/
  pins : Pins
  /-- The sequencer (R41). -/
  seq : Sequencer
  /-- The pin trace since power-up (R20, R81; log 3). -/
  trace : Trace
  /-- What the host does next, oldest first (log 2). -/
  inputs : List Input
deriving DecidableEq, Repr

/-- READY (R39), read off the sequencer: its one home. -/
def State.ready (s : State) : Bool := s.seq.ready

/-- The block of configuration `c` right after power-up's reset sequence (R340, R341, R306; vectors Z1, Z2). -/
def State.resetWith (c : Config) : State where
  cfg := c
  cur := zeroSnapshot c
  des := zeroSnapshot c
  img := zeroImage
  ind := 0#3
  faulted := !validConfig c
  faultCode := if validConfig c then 0#3 else 3#3
  cmd := 0#32
  wdata := 0#32
  status := 0#3
  rdata := 0#32
  pins := Pins.reset
  seq := Sequencer.idle
  trace := .rst :: (if validConfig c then selfTestTrace c else [])
  inputs := []

/-- The machine right after reset, for the configuration of log 1. -/
def State.reset : State := State.resetWith Config.ex1

end Sys2Proof.Machine
end

