-- ==== Sys2Proof/Machine/Flags.lean ====
section
/-! DEFINITION. Status and fault codes (60_exceptions.md R300) and every computation on the flags: the indicator flags
(10_state.md R37) and the auto-toggle (41_image_assembly.md R177). -/

namespace Sys2Proof.Machine

/-- STATUS 0 (R300). -/
def stOk : BitVec 3 := 0#3

/-- STATUS and FAULTCODE 1: ILLEGAL (R301). -/
def stIllegal : BitVec 3 := 1#3

/-- STATUS and FAULTCODE 2: BOUNDS (R302). -/
def stBounds : BitVec 3 := 2#3

/-- FAULTCODE 3: CONFIG (R303). -/
def stConfig : BitVec 3 := 3#3

/-- STATUS 4: refused, the DDE is in the fault state (R304). -/
def stFaulted : BitVec 3 := 4#3

/-- IND with flag k inverted. -/
def toggleFlag (ind : BitVec 3) (k : Nat) : BitVec 3 := ind ^^^ (1#3 <<< k)

/-- `if IND_MODE == AUTO: IND[IND_TOGGLE] <- IND[IND_TOGGLE] ^ 1` (41_image_assembly.md R171 step 6, R177). -/
def autoToggle (c : Config) (ind : BitVec 3) : BitVec 3 :=
  match c.indMode with
  | .static => ind
  | .auto => toggleFlag ind c.indToggle

/-- `for k in 0..2: IND[k] <- IB[k]` (43_accessors.md R241). -/
def indOfBits (ib : Nat) : BitVec 3 := BitVec.ofNat 3 ib

/-- `zext_32({IND[2], IND[1], IND[0]})` (R242). -/
def bitsOfInd (ind : BitVec 3) : Word := ind.setWidth 32

end Sys2Proof.Machine
end

