-- ==== Sys2Proof/Machine/Operands.lean ====
section
/-! DEFINITION. The operand forms' bounds conditions (60_exceptions.md R302) and the reads of the staged image through
its line roles (43_accessors.md). -/

namespace Sys2Proof.Machine

/-- r < R. -/
def rowOk (c : Config) (r : Nat) : Bool := decide (r < c.rows)

/-- m < M. -/
def moduleOk (c : Config) (m : Nat) : Bool := decide (m < c.modules)

/-- r < R and m < M: the snapshot space (10_state.md R43). -/
def wordOk (c : Config) (r m : Nat) : Bool := rowOk c r && moduleOk c m

/-- m < M and then col < COLS[m]: m is checked before COLS[m] is read (R311). -/
def columnOk (c : Config) (m col : Nat) : Bool := moduleOk c m && decide (col < colCount c m)

/-- r < R, m < M and col < COLS[m] (41_image_assembly.md R170). -/
def dotOk (c : Config) (r m col : Nat) : Bool := rowOk c r && columnOk c m col

/-- k < ceil(NL / 32) (43_accessors.md R243). -/
def imageWordOk (c : Config) (k : Nat) : Bool := decide (k < nwords c)

/-- The lowest row whose line is 1, or SENTINEL (R233, R234). -/
def firstRow (c : Config) (lineOf : Nat → Nat) (img : Memory) : Word :=
  match (List.range c.rows).find? fun r => img.line (lineOf r) with
  | some r => BitVec.ofNat 32 r
  | none => sentinel

/-- The lowest in-window column of module m whose code is on the column-code lines, or SENTINEL (R236). -/
def matchColumn (c : Config) (m : Nat) (img : Memory) : Word :=
  match (List.range (colCount c m)).find? fun col => columnCode c m col == readField img (codeLine c) c.ncc with
  | some col => BitVec.ofNat 32 col
  | none => sentinel

/-- The module-address lines as a binary field (R238). -/
def readAddress (c : Config) (img : Memory) : Word := BitVec.ofNat 32 (readField img (addressLine c) c.naw)

/-- The direction line, zero-extended (R240). -/
def readDirection (c : Config) (img : Memory) : Word := (BitVec.ofBool (img.line c.dirLine)).setWidth 32

/-- The lines 32k to 32k+31, line 32k at bit 0, lines at and above NL reading 0 (20_memory.md R73, R243). -/
def imageWord (c : Config) (k : Nat) (img : Memory) : Word :=
  BitVec.ofNat 32 (((List.range 32).map fun b =>
    (if 32 * k + b < c.nl then img.line (32 * k + b) else false).toNat <<< b).sum)

end Sys2Proof.Machine
end

