-- ==== Sys2Proof/Machine/Ops.lean ====
section
/-! DEFINITION. The shared operations of the sequencer: acceptance and response (10_state.md R39), the prologue, the
fault mechanism and the refusal (60_exceptions.md R304, R310, R311), the pin events (00_scope.md R20), TX, AF, the
sweep's fires, the cycle, INITSEQ with its self-test, and the reset sequence (70_reset_and_hazards.md R340, R342). -/

namespace Sys2Proof.Machine

/-! ## The host port -/

/-- The port accepts a command: CMD and WDATA are loaded and the sequencer becomes BUSY (R39, R41). -/
def State.accept (s : State) (cmd wdata : Word) (rest : List Input) : State :=
  { s with cmd := cmd, wdata := wdata, seq := Sequencer.start, inputs := rest }

/-- `respond(status, rdata)`: the command ends, its response is valid and READY returns to 1 (R20, R39, R82). -/
def State.respond (s : State) (status : BitVec 3) (rdata : Word) : State :=
  { s with status := status, rdata := rdata, seq := Sequencer.idle }

/-! ## Faults -/

/-- FAULTED <- 1 and FAULTCODE <- e (R310, R306). -/
def State.enterFault (s : State) (e : BitVec 3) : State := { s with faulted := true, faultCode := e }

/-- TAKING A FAULT, `raise Fault(e)` (R310). There is no return: only reset leaves the fault state (R314). -/
def State.raiseFault (s : State) (e : BitVec 3) : State := (s.enterFault e).respond e 0#32

/-- The refusal of a command while FAULTED = 1 (R304). -/
def State.refuse (s : State) : State := s.respond stFaulted (s.faultCode.setWidth 32)

/-- What an illegal word does (R311 checks 1 and 2). -/
def State.illegalWord (s : State) : State := if s.faulted then s.refuse else s.raiseFault stIllegal

/-- The prologue of a decoded command (R311 checks 1, 3 and 4). -/
def State.guarded (s : State) (inBounds : Bool) (body : State → State) : Host.Outcome State Fault Refusal :=
  if s.faulted then .next s.refuse
  else if inBounds then .next (body s)
  else .next (s.raiseFault stBounds)

/-! ## Writes -/

/-- IMG replaced. -/
def State.withImg (s : State) (img : Memory) : State := { s with img := img }

/-- IND replaced. -/
def State.withInd (s : State) (ind : BitVec 3) : State := { s with ind := ind }

/-- CUR replaced. -/
def State.withCur (s : State) (cur : Snapshot) : State := { s with cur := cur }

/-- DES replaced. -/
def State.withDes (s : State) (des : Snapshot) : State := { s with des := des }

/-- The sequencer's hidden state replaced (R41). -/
def State.withSeq (s : State) (seq : Sequencer) : State := { s with seq := seq }

/-- The cursors of the running command moved (R41). -/
def State.moveSeq (s : State) (f : Cursors → Cursors) : State := s.withSeq (s.seq.move f)

/-- Pin events are appended to the trace, drive the pins, and advance the position in it (R20, R40, R41). -/
def State.emit (s : State) (evs : Trace) : State :=
  { s with
    trace := s.trace ++ evs
    pins := s.pins.afterAll evs
    seq := s.seq.move fun k => { k with pos := k.pos + evs.length } }

/-- A part of a run with its events gathered first and then appended to the trace in one piece: the same events as when
each is appended at once (State.tx_spec), without a copy of the whole trace for each. -/
def State.gather (s : State) (part : State → State) : State :=
  let t := part { s with trace := [] }
  { t with trace := s.trace ++ t.trace }

/-! ## Transmission and assembly -/

/-- Step (c) of TX at line L: the line index is L while the line is shifted (R41; 42_serial_transmit.md R204). -/
def State.shiftOne (s : State) (L : Nat) : State :=
  (s.moveSeq fun k => { k with line := L }).emit (shiftLine s.cfg (s.img.line L))

/-- Step (c) of TX for lines n-1 down to 0 (R204). -/
def State.shiftOut (s : State) : Nat → State
  | 0 => s
  | n + 1 => (s.shiftOne n).shiftOut n

/-- `TX(p)`, steps (a) to (e): "TX reads IMG and writes only the five pins" (42_serial_transmit.md R201). Its events are
txTrace (State.tx_spec). -/
def State.tx (s : State) (p : Bool) : State :=
  s.gather fun s =>
    let s := s.emit [.pin .clk false]
    let s := s.emit (clearPulse s.cfg)
    let s := s.shiftOut s.cfg.nl
    let s := s.emit (latchPulse s.cfg)
    s.emit (if p then energizePulse s.cfg else [])

/-- The cursors r, m and c at one dot (R41). -/
def State.atDot (s : State) (d : Dot) : State := s.moveSeq fun k => { k with r := d.r, m := d.m, c := d.c }

/-- `AF(r, m, c, s)` (41_image_assembly.md R171): the image is assembled afresh, with the auto-toggle of step (6), and
transmitted with the energize pulse, step (7). DESIGN CHOICE (log 16): r, m and c are at the dot in every AF, so FIRE,
which runs no loop over dots, loads them with its operands. -/
def State.af (s : State) (d : Dot) (set : Bool) : State :=
  let s := s.atDot d
  let s := s.withInd (autoToggle s.cfg s.ind)
  let s := s.withImg (assembleImage s.cfg d set s.ind)
  s.tx true

/-- One dot to be fired, with its target state (1 = set). -/
structure Fire where
  dot : Dot
  set : Bool
deriving DecidableEq, Repr

/-- Every dot of the sweep, each to the state `f` gives (R22). -/
def everyDot (c : Config) (f : Dot → Bool) : List Fire := (sweep c).map fun d => ⟨d, f d⟩

/-- PAINT's condition on a dot (40_dot_matrix.md R143): its desired bit differs from its current one, or the paint is
forced. -/
def paintGoes (cur : Snapshot) (force : Bool) (f : Fire) : Bool := force || f.set != cur.dot f.dot

/-- One pass of a sweep's loop body: the cursors at the dot, and AF where the condition `go` holds (R41, R143, R156). -/
def State.visit (s : State) (go : Fire → Bool) (f : Fire) : State :=
  if go f then s.af f.dot f.set else s.atDot f.dot

/-- A sweep: every listed dot is visited, and those where `go` holds are fired. -/
def State.sweepWhere (s : State) (go : Fire → Bool) (fires : List Fire) : State :=
  fires.foldl (fun t f => t.visit go f) s

/-- A sweep that fires every dot it visits. -/
def State.fireAll (s : State) (fires : List Fire) : State := s.sweepWhere (fun _ => true) fires

/-- `for rep in 0..n-1`: n sweeps of the same dots, the repeat count at each sweep's number (R156, R41). -/
def State.sweepTimes (s : State) (go : Fire → Bool) (fires : List Fire) : Nat → State
  | 0 => s
  | n + 1 => ((s.sweepTimes go fires n).moveSeq fun k => { k with rep := n }).sweepWhere go fires

/-! ## Snapshots -/

/-- The cycle: desired copied into current, word for word (R131). -/
def State.cycle (s : State) : State := s.withCur (tabulate s.cfg fun r m => s.des.word r m)

/-- Both arrays written: `CUR[r][m] <- f r m; DES[r][m] <- f r m`. -/
def State.setBoth (s : State) (f : Nat → Nat → Word) : State :=
  (s.withCur (tabulate s.cfg f)).withDes (tabulate s.cfg f)

/-! ## Initialization and reset -/

/-- `SHOWIND(); Hold(T_ST)` with the flags at `ind` (44_system.md R271). -/
def State.showInd (s : State) (ind : BitVec 3) : State :=
  let s := s.withInd ind
  let s := s.withImg (indicatorImage s.cfg ind)
  let s := s.tx false
  s.emit [.hold s.cfg.tSt]

/-- One round of SELFTEST, the repeat count at its number: all on, then all off (R271, R41). -/
def State.selfTestRound (s : State) (rep : Nat) : State :=
  ((s.moveSeq fun k => { k with rep := rep }).showInd 7#3).showInd 0#3

/-- SELFTEST: three rounds (R271). -/
def State.selfTest (s : State) : State := ((s.selfTestRound 0).selfTestRound 1).selfTestRound 2

/-- INITSEQ (R270). -/
def State.initSeq (s : State) : State :=
  let s := s.setBoth fun _ _ => 0#32
  let s := s.withImg zeroImage
  let s := s.withInd 0#3
  s.selfTest

/-- Steps 1 and 2 of the reset sequence: BUSY, and every reset value of R341; the pins take their levels at once. The
position counts the mark of that moment (log 3). -/
def State.resetValues (s : State) : State :=
  { cfg := s.cfg
    cur := zeroSnapshot s.cfg
    des := zeroSnapshot s.cfg
    img := zeroImage
    ind := 0#3
    faulted := false
    faultCode := 0#3
    cmd := 0#32
    wdata := 0#32
    status := stOk
    rdata := 0#32
    pins := Pins.reset
    seq := .busy { Cursors.start with pos := 1 }
    trace := s.trace ++ [.rst]
    inputs := s.inputs }

/-- The reset sequence (R340): reset values, the configuration check (R306), then INITSEQ or the CONFIG fault, then IDLE. -/
def State.resetSequence (s : State) : State :=
  let s := s.resetValues
  let s := if validConfig s.cfg then s.initSeq else s.enterFault stConfig
  s.withSeq Sequencer.idle

/-- Reset during a command or a reset sequence (R342): `t` is where the run from `s` would have gone; it is abandoned
after its first `k` trace entries, and "its remaining pin events are not emitted". What it wrote does not survive the
reset that follows, nor do the cursors, of which only the position at the cut is given (log 7). -/
def State.abandonAt (s : State) (k : Nat) (t : State) : State :=
  { s with trace := s.trace ++ (t.trace.drop s.trace.length).take k, seq := .busy { Cursors.start with pos := k } }

/-- The reset sequence, itself cut by the reset input at each of the listed positions and started again. -/
def State.resetUnder (s : State) : List Nat → State
  | [] => s.resetSequence
  | k :: ks => (s.abandonAt k s.resetSequence).resetUnder ks

end Sys2Proof.Machine
end

