-- ==== Sys2Proof/Machine/Accessors.lean ====
section
/-! DEFINITION. The accessors of the staged image and of the indicator flags (43_accessors.md). -/

namespace Sys2Proof.Machine

/-- SETROWSET: every row-reset line cleared, then the set line of row r driven to 1 (R231). -/
def execSetrowset (r : Nat) (s : State) : Host.Outcome State Fault Refusal :=
  s.guarded (rowOk s.cfg r) fun s =>
    (s.withImg (putLine s.cfg (rowSet s.cfg r) true (clearLines s.cfg (rowReset s.cfg) s.cfg.rows s.img))).respond
      stOk 0#32

/-- SETROWRESET: every row-set line cleared, then the reset line of row r driven to 1 (R232). -/
def execSetrowreset (r : Nat) (s : State) : Host.Outcome State Fault Refusal :=
  s.guarded (rowOk s.cfg r) fun s =>
    (s.withImg (putLine s.cfg (rowReset s.cfg r) true (clearLines s.cfg (rowSet s.cfg) s.cfg.rows s.img))).respond
      stOk 0#32

/-- GETROWSET: the first active row-set line (R233). -/
def execGetrowset (s : State) : Host.Outcome State Fault Refusal :=
  s.guarded true fun s => s.respond stOk (firstRow s.cfg (rowSet s.cfg) s.img)

/-- GETROWRESET: the first active row-reset line (R234). -/
def execGetrowreset (s : State) : Host.Outcome State Fault Refusal :=
  s.guarded true fun s => s.respond stOk (firstRow s.cfg (rowReset s.cfg) s.img)

/-- SETCOL: drive the column-code lines for column c of module m (R235). -/
def execSetcol (m c : Nat) (s : State) : Host.Outcome State Fault Refusal :=
  s.guarded (columnOk s.cfg m c) fun s =>
    (s.withImg (driveField s.cfg (codeLine s.cfg) s.cfg.ncc (columnCode s.cfg m c) s.img)).respond stOk 0#32

/-- GETCOL: decode the column-code lines against module m's window (R236). -/
def execGetcol (m : Nat) (s : State) : Host.Outcome State Fault Refusal :=
  s.guarded (moduleOk s.cfg m) fun s => s.respond stOk (matchColumn s.cfg m s.img)

/-- SETADDR: drive the module-address lines with WDATA; bits at and above NAW are ignored (R237). -/
def execSetaddr (s : State) : Host.Outcome State Fault Refusal :=
  s.guarded true fun s =>
    (s.withImg (driveField s.cfg (addressLine s.cfg) s.cfg.naw s.wdata.toNat s.img)).respond stOk 0#32

/-- GETADDR: the module-address lines as a binary field (R238). -/
def execGetaddr (s : State) : Host.Outcome State Fault Refusal :=
  s.guarded true fun s => s.respond stOk (readAddress s.cfg s.img)

/-- SETDIR: drive the direction line (R239). -/
def execSetdir (d : Bool) (s : State) : Host.Outcome State Fault Refusal :=
  s.guarded true fun s => (s.withImg (putLine s.cfg s.cfg.dirLine d s.img)).respond stOk 0#32

/-- GETDIR: read the direction line (R240). -/
def execGetdir (s : State) : Host.Outcome State Fault Refusal :=
  s.guarded true fun s => s.respond stOk (readDirection s.cfg s.img)

/-- SETIND: write the three indicator flags; IMG is not written (R241). -/
def execSetind (ib : Nat) (s : State) : Host.Outcome State Fault Refusal :=
  s.guarded true fun s => (s.withInd (indOfBits ib)).respond stOk 0#32

/-- GETIND: read the three indicator flags (R242). -/
def execGetind (s : State) : Host.Outcome State Fault Refusal :=
  s.guarded true fun s => s.respond stOk (bitsOfInd s.ind)

/-- RDIMG: read 32 lines of the staged image (R243). -/
def execRdimg (k : Nat) (s : State) : Host.Outcome State Fault Refusal :=
  s.guarded (imageWordOk s.cfg k) fun s => s.respond stOk (imageWord s.cfg k s.img)

end Sys2Proof.Machine
end

