-- ==== Sys2Proof/Machine/Assembly.lean ====
section
/-! DEFINITION. Image assembly and transmission commands (41_image_assembly.md, 42_serial_transmit.md; CLRIMG of
43_accessors.md). -/

namespace Sys2Proof.Machine

/-- FIRE: assemble and fire one dot (R170). -/
def execFire (r m c : Nat) (set : Bool) (s : State) : Host.Outcome State Fault Refusal :=
  s.guarded (dotOk s.cfg r m c) fun s => (s.af ⟨r, m, c⟩ set).respond stOk 0#32

/-- TRANSMIT: shift out the staged image (R200). -/
def execTransmit (p : Bool) (s : State) : Host.Outcome State Fault Refusal :=
  s.guarded true fun s => (s.tx p).respond stOk 0#32

/-- CLRIMG: zero the staged image (R230). -/
def execClrimg (s : State) : Host.Outcome State Fault Refusal :=
  s.guarded true fun s => (s.withImg zeroImage).respond stOk 0#32

end Sys2Proof.Machine
end

