-- ==== Sys2Proof/Machine/DotMatrix.lean ====
section
/-! DEFINITION. The dot-matrix commands (40_dot_matrix.md). -/

namespace Sys2Proof.Machine

/-- WRDES: write one desired word, all 32 bits (R140). -/
def execWrdes (r m : Nat) (s : State) : Host.Outcome State Fault Refusal :=
  s.guarded (wordOk s.cfg r m) fun s => (s.withDes (s.des.put r m s.wdata)).respond stOk 0#32

/-- RDCUR: read one current word (R141). -/
def execRdcur (r m : Nat) (s : State) : Host.Outcome State Fault Refusal :=
  s.guarded (wordOk s.cfg r m) fun s => s.respond stOk (s.cur.word r m)

/-- RDDES: read one desired word (R142). -/
def execRddes (r m : Nat) (s : State) : Host.Outcome State Fault Refusal :=
  s.guarded (wordOk s.cfg r m) fun s => s.respond stOk (s.des.word r m)

/-- PAINT: diffed or forced repaint, then the cycle (R143). AF writes neither CUR nor DES, so the sweep reads the two
snapshots at entry. -/
def execPaint (f : Bool) (s : State) : Host.Outcome State Fault Refusal :=
  s.guarded true fun s =>
    (s.sweepWhere (paintGoes s.cur f) (everyDot s.cfg s.des.dot)).cycle.respond stOk 0#32

/-- CLEAR: both arrays 0, every dot fired to reset (R146). -/
def execClear (s : State) : Host.Outcome State Fault Refusal :=
  s.guarded true fun s =>
    ((s.setBoth fun _ _ => 0#32).fireAll (everyDot s.cfg fun _ => false)).respond stOk 0#32

/-- FILL: both arrays FULL(m), every dot fired to set (R149). -/
def execFill (s : State) : Host.Outcome State Fault Refusal :=
  s.guarded true fun s =>
    ((s.setBoth fun _ m => full s.cfg m).fireAll (everyDot s.cfg fun _ => true)).respond stOk 0#32

/-- INVERSE: DES is the 32-bit complement of CUR, every dot is fired to its desired bit, and the cycle runs only when
INVERSE_CYCLE is true (R152, R154). -/
def execInverse (s : State) : Host.Outcome State Fault Refusal :=
  s.guarded true fun s =>
    let s := s.withDes (tabulate s.cfg fun r m => ~~~(s.cur.word r m))
    let s := s.fireAll (everyDot s.cfg s.des.dot)
    let s := if s.cfg.inverseCycle then s.cycle else s
    s.respond stOk 0#32

/-- MAGNETIZE: N = WDATA sweeps over the set dots of CUR, then the cycle (R156, R157). -/
def execMagnetize (s : State) : Host.Outcome State Fault Refusal :=
  s.guarded true fun s =>
    (s.sweepTimes (fun f => s.cur.dot f.dot) (everyDot s.cfg fun _ => true) s.wdata.toNat).cycle.respond stOk 0#32

end Sys2Proof.Machine
end

