-- ==== Sys2Proof/Machine/System.lean ====
section
/-! DEFINITION. The system command (44_system.md): INIT. -/

namespace Sys2Proof.Machine

/-- INIT: re-initialize the engine (R270 to R273). -/
def execInit (s : State) : Host.Outcome State Fault Refusal :=
  s.guarded true fun s => s.initSeq.respond stOk 0#32

end Sys2Proof.Machine
end

