-- ==== Sys2Proof/Machine/Dispatch.lean ====
section
/-! DEFINITION. The meaning of every command, one arm per row of spec/opcode_table.json. -/

namespace Sys2Proof.Machine

def exec (i : Instr) (s : State) : Host.Outcome State Fault Refusal :=
  match i with
  | .init => Sys2Proof.Machine.execInit s
  | .wrdes r m => Sys2Proof.Machine.execWrdes r m s
  | .rdcur r m => Sys2Proof.Machine.execRdcur r m s
  | .paint f => Sys2Proof.Machine.execPaint f s
  | .clear => Sys2Proof.Machine.execClear s
  | .fill => Sys2Proof.Machine.execFill s
  | .inverse => Sys2Proof.Machine.execInverse s
  | .magnetize => Sys2Proof.Machine.execMagnetize s
  | .rddes r m => Sys2Proof.Machine.execRddes r m s
  | .fire r m c set => Sys2Proof.Machine.execFire r m c set s
  | .transmit p => Sys2Proof.Machine.execTransmit p s
  | .clrimg => Sys2Proof.Machine.execClrimg s
  | .setrowset r => Sys2Proof.Machine.execSetrowset r s
  | .setrowreset r => Sys2Proof.Machine.execSetrowreset r s
  | .getrowset => Sys2Proof.Machine.execGetrowset s
  | .getrowreset => Sys2Proof.Machine.execGetrowreset s
  | .setcol m c => Sys2Proof.Machine.execSetcol m c s
  | .getcol m => Sys2Proof.Machine.execGetcol m s
  | .setaddr => Sys2Proof.Machine.execSetaddr s
  | .getaddr => Sys2Proof.Machine.execGetaddr s
  | .setdir d => Sys2Proof.Machine.execSetdir d s
  | .getdir => Sys2Proof.Machine.execGetdir s
  | .setind ib => Sys2Proof.Machine.execSetind ib s
  | .getind => Sys2Proof.Machine.execGetind s
  | .rdimg k => Sys2Proof.Machine.execRdimg k s

end Sys2Proof.Machine
end

