-- ==== Sys2Proof/Machine/Port.lean ====
section
/-! DEFINITION. The host port: what one action of the host does (10_state.md R39; 60_exceptions.md R311;
70_reset_and_hazards.md R340, R342, R354). -/

namespace Sys2Proof.Machine

/-- An accepted command runs: its word is decoded, and an illegal word is refused or raises ILLEGAL (R311). -/
def runAccepted (s : State) : Host.Outcome State Fault Refusal :=
  match decode s.cmd with
  | some i => exec i s
  | none => .next s.illegalWord

/-- How the run of an accepted command ends under the reset input: with its response when `rst` is never asserted, or
abandoned and followed by the reset sequence (R342). -/
def underReset (rst : List Nat) (s : State) (o : Host.Outcome State Fault Refusal) :
    Host.Outcome State Fault Refusal :=
  match rst, o with
  | [], o => o
  | k :: ks, .next t => .next ((s.abandonAt k t).resetUnder ks)
  | _ :: _, .fault f => .fault f
  | _ :: _, .refused r => .refused r

/-- The host's next action. A command presented while READY = 0 is not accepted: the host goes on presenting it, and
nothing changes (R354). The reset input acts in any phase (R340). With nothing presented the DDE waits (R343). -/
def serve (s : State) : Host.Outcome State Fault Refusal :=
  match s.inputs with
  | [] => .next s
  | .reset rst :: rest => .next (State.resetUnder { s with inputs := rest } rst)
  | .command cmd wdata rst :: rest =>
      if s.ready then underReset rst (s.accept cmd wdata rest) (runAccepted (s.accept cmd wdata rest))
      else .next s

/-- The action that presents an instruction word, its CMD in bits 31..0 and its WDATA in bits 63..32 (R100). -/
def presentWord (nbits w : Nat) : Input :=
  .command (BitVec.ofNat 32 (w % 2 ^ nbits)) (BitVec.ofNat 32 (w % 2 ^ nbits / 2 ^ 32)) []

end Sys2Proof.Machine
end

