-- ==== Sys2Proof/Machine/Step.lean ====
section
/-! DEFINITION. One step of the machine: the host's next action, taken to its end (20_memory.md R76, R80). -/

namespace Sys2Proof.Machine

def step (s : State) : Host.Outcome State Fault Refusal := serve s

/-- `s` with an instruction presented at the port as the host's next action (log 4). -/
def State.withFetchWord (s : State) (nbits w : Nat) : State := { s with inputs := presentWord nbits w :: s.inputs }

end Sys2Proof.Machine
end

