-- ==== Sys2Proof/Machine/Assembler.lean ====
section
/-! DEFINITION. The assembler of 30_encoding.md R108 on parsed statements, and the pseudo-instructions of R109 to R112:
sequences of commands, each atomic by itself (R121). -/

namespace Sys2Proof.Machine

/-- A parsed statement: a command with its operands, and the `#` value that stands beside them, if one does (R108). -/
structure Statement where
  instr : Instr
  value : Option Word
deriving DecidableEq, Repr

/-- Does the statement's syntax have a `#` value that is no field of the command word? (R108: `WRDES r, m, #value`,
`MAGNETIZE #n`, `SETADDR #a`.) SETIND's `#b` is its operand (log 13). -/
def takesValue : Instr → Bool
  | .wrdes _ _ => true
  | .magnetize => true
  | .setaddr => true
  | .init => false
  | .rdcur _ _ => false
  | .rddes _ _ => false
  | .paint _ => false
  | .clear => false
  | .fill => false
  | .inverse => false
  | .fire _ _ _ _ => false
  | .transmit _ => false
  | .clrimg => false
  | .setrowset _ => false
  | .setrowreset _ => false
  | .getrowset => false
  | .getrowreset => false
  | .setcol _ _ => false
  | .getcol _ => false
  | .getaddr => false
  | .setdir _ => false
  | .getdir => false
  | .setind _ => false
  | .getind => false
  | .rdimg _ => false

/-- "WDATA = the `#` value, or 0 when there is none" (R108). DEDUCED (log 13): `SETIND #b` has its value both in the IB
field and in WDATA, which SETIND ignores. -/
def Statement.wdata (st : Statement) : Word :=
  match st.instr with
  | .setind ib => BitVec.ofNat 32 ib
  | _ => st.value.getD 0#32

/-- CMD and WDATA of a statement. None, an assembler error, when an operand does not fit its field, and for what is no
statement of the syntax: a `#` value beside a command that takes none, or none beside one that takes it (R108). -/
def assembleStatement (st : Statement) : Option Input :=
  if st.instr.wf && (st.value.isSome == takesValue st.instr) then
    some (.command (encode st.instr) st.wdata [])
  else none

/-- The pseudo-instructions. -/
inductive Pseudo where
  /-- `PAINT` with no operand (R109). -/
  | paint
  /-- `SETDESIRED S` (R110). -/
  | setDesired (snap : Snapshot)
  /-- `PAINTSNAP S` (R111). -/
  | paintSnap (snap : Snapshot)
  /-- `GETDOTS` (R112). -/
  | getDots
deriving DecidableEq, Repr

/-- `for r = 0 .. R-1 (outer) and m = 0 .. M-1 (inner)`. -/
def rowMajor (c : Config) (f : Nat → Nat → Statement) : List Statement :=
  (List.range c.rows).flatMap fun r => (List.range c.modules).map fun m => f r m

/-- The expansion of `SETDESIRED S` (R110). -/
def expandSetDesired (c : Config) (snap : Snapshot) : List Statement :=
  rowMajor c fun r m => ⟨.wrdes r m, some (snap.word r m)⟩

/-- What a pseudo-instruction expands to (R109 to R112). -/
def Pseudo.expand (c : Config) : Pseudo → List Statement
  | .paint => [⟨.paint false, none⟩]
  | .setDesired snap => expandSetDesired c snap
  | .paintSnap snap => expandSetDesired c snap ++ [⟨.paint false, none⟩]
  | .getDots => rowMajor c fun r m => ⟨.rdcur r m, none⟩

end Sys2Proof.Machine
end

