-- ==== Sys2Proof/Machine/Chain.lean ====
section
/-! DEFINITION. The informative model of the external shift-register chain (42_serial_transmit.md R212, R213): part of
the DDE's environment, not of its state. PRESUMED (log 9): the spec marks it "from general knowledge, not in source".
No rule of the DDE depends on it. -/

namespace Sys2Proof.Machine

/-- N shift stages, stage 0 first, N storage outputs, and what the outputs were at each rising edge of EN so far
(oldest first). -/
structure Chain where
  sr : List Bool
  q : List Bool
  energized : List (List Bool)
deriving DecidableEq, Repr

/-- Rising edge of CLK: SR[i] <- SR[i-1] for i >= 1, and SR[0] <- DATA (R212). -/
def shiftIn (sr : List Bool) (data : Bool) : List Bool := (data :: sr).take sr.length

/-- One entry of the pin trace, seen by the chain from the levels `p` (R212). -/
def Chain.sees (ch : Chain) (p : Pins) (e : PinEvent) : Chain where
  sr :=
    if (p.after e).clr = false then ch.sr.map fun _ => false
    else if p.clk = false ∧ (p.after e).clk = true then shiftIn ch.sr (p.after e).data
    else ch.sr
  q := if p.latch = false ∧ (p.after e).latch = true then ch.sr else ch.q
  energized := if p.en = false ∧ (p.after e).en = true then ch.energized ++ [ch.q] else ch.energized

/-- A whole trace, from the levels `p`. -/
def Chain.seesAll (ch : Chain) (p : Pins) (tr : Trace) : Chain :=
  match tr with
  | [] => ch
  | e :: rest => Chain.seesAll (ch.sees p e) (p.after e) rest

end Sys2Proof.Machine
end

