-- ==== Sys2Proof/Safety.lean ====
section
/-! DEFINITION. The terms claims about the machine use: its invariant, when the two snapshots agree, the events of a
list of fires, counts over a trace, and timed realisations of a trace (42_serial_transmit.md R207, R208). -/

namespace Sys2Proof.Machine

/-- The bounds condition of each command, as 60_exceptions.md R302 lists it: an index outside its space. -/
def boundsCondition (c : Config) : Instr → Prop
  | .wrdes r m => c.rows ≤ r ∨ c.modules ≤ m
  | .rdcur r m => c.rows ≤ r ∨ c.modules ≤ m
  | .rddes r m => c.rows ≤ r ∨ c.modules ≤ m
  | .fire r m col _ => c.rows ≤ r ∨ c.modules ≤ m ∨ c.cols.getD m 0 ≤ col
  | .setrowset r => c.rows ≤ r
  | .setrowreset r => c.rows ≤ r
  | .setcol m col => c.modules ≤ m ∨ c.cols.getD m 0 ≤ col
  | .getcol m => c.modules ≤ m
  | .rdimg k => c.nl ≤ 32 * k
  | .init => False
  | .paint _ => False
  | .clear => False
  | .fill => False
  | .inverse => False
  | .magnetize => False
  | .transmit _ => False
  | .clrimg => False
  | .getrowset => False
  | .getrowreset => False
  | .setaddr => False
  | .getaddr => False
  | .setdir _ => False
  | .getdir => False
  | .setind _ => False
  | .getind => False

/-- What holds at reset and after every step. -/
structure State.Inv (s : State) : Prop where
  /-- CUR and DES are R × M words (10_state.md R32, R33). -/
  curFits : s.cur.fits s.cfg = true
  desFits : s.des.fits s.cfg = true
  /-- The image's store is canonical, and its padding bits read 0 (R35). -/
  imgCanonical : s.img.wf = true
  padding : ∀ L, s.cfg.nl ≤ L → s.img.line L = false
  /-- STATUS is a code of 60_exceptions.md R300. -/
  statusCode : s.status.toNat ≤ 4
  /-- FAULTCODE "holds 1, 2 or 3" in the fault state (R300), and 0 outside it (R341). -/
  faultCode : s.faultCode.toNat ≤ 3
  faultFlag : s.faulted = true ↔ s.faultCode ≠ 0#3
  /-- CONFIG is the fault of an invalid configuration, and of nothing else (R303, R306). -/
  config : validConfig s.cfg = false ↔ s.faultCode = 3#3
  /-- The sequencer is IDLE, so READY = 1 (R31, R82). -/
  idle : s.seq = Sequencer.idle
  /-- The resting levels of the control pins (R40, R203, R206). -/
  resting : s.pins.clk = false ∧ s.pins.latch = false ∧ s.pins.clr = true ∧ s.pins.en = false
  /-- "Each pin holds the level of its last write" (R40). -/
  levels : s.pins = Pins.reset.afterAll s.trace

/-- CUR == DES in every word (10_state.md R44). -/
def State.inSync (s : State) : Prop :=
  ∀ r m, r < s.cfg.rows → m < s.cfg.modules → s.cur.word r m = s.des.word r m

/-- The number of 1 bits of a word. -/
def popcount (w : Word) : Nat := ((List.range 32).filter fun i => w.getLsbD i).length

/-- Σ over r < R and m < M of popcount((CUR[r][m] ^ DES[r][m]) & FULL(m)) (40_dot_matrix.md R144). -/
def State.diffCount (s : State) : Nat :=
  ((List.range s.cfg.rows).map fun r => ((List.range s.cfg.modules).map fun m =>
    popcount ((s.cur.word r m ^^^ s.des.word r m) &&& full s.cfg m)).sum).sum

/-- R × Σ over m of COLS[m] (R144). -/
def dotCount (c : Config) : Nat := c.rows * ((List.range c.modules).map (colCount c)).sum

/-- The number of energize pulses in a trace: one per AF (41_image_assembly.md R178). -/
def pulses (tr : Trace) : Nat := (tr.filter fun e => e == .pin .en true).length

/-- The number of rising edges of a pin in a trace, from the levels `p` (42_serial_transmit.md R211). -/
def risingEdges (q : Pin) (p : Pins) : Trace → Nat
  | [] => 0
  | e :: rest =>
      (if p.level q = false ∧ (p.after e).level q = true then 1 else 0) + risingEdges q (p.after e) rest

/-- The number of falling edges of a pin. -/
def fallingEdges (q : Pin) (p : Pins) : Trace → Nat
  | [] => 0
  | e :: rest =>
      (if p.level q = true ∧ (p.after e).level q = false then 1 else 0) + fallingEdges q (p.after e) rest

/-- The values DATA is driven to, in order (R210). -/
def dataValues : Trace → List Bool
  | [] => []
  | .pin .data v :: rest => v :: dataValues rest
  | .pin .clk _ :: rest => dataValues rest
  | .pin .latch _ :: rest => dataValues rest
  | .pin .clr _ :: rest => dataValues rest
  | .pin .en _ :: rest => dataValues rest
  | .hold _ :: rest => dataValues rest
  | .rst :: rest => dataValues rest

/-- The DATA level at each rising edge of CLK, from the levels `p` (R210). -/
def clockedData (p : Pins) : Trace → List Bool
  | [] => []
  | e :: rest =>
      (if p.clk = false ∧ (p.after e).clk = true then [p.data] else []) ++ clockedData (p.after e) rest

/-- The trace of AF for each of a list of dots, the flags starting at `ind` (R171, R177). -/
def fireTrace (c : Config) (ind : BitVec 3) : List Fire → Trace
  | [] => []
  | f :: fs =>
      txTrace c (assembleImage c f.dot f.set (autoToggle c ind)) true ++ fireTrace c (autoToggle c ind) fs

/-- IND after n AF calls (R177). -/
def indAfter (c : Config) (ind : BitVec 3) : Nat → BitVec 3
  | 0 => ind
  | n + 1 => indAfter c (autoToggle c ind) n

/-- IMG after AF for each of a list of dots: the image of the last AF, or unchanged if none ran (R352). -/
def imageAfter (c : Config) (ind : BitVec 3) (img : Memory) : List Fire → Memory
  | [] => img
  | f :: fs => imageAfter c (autoToggle c ind) (assembleImage c f.dot f.set (autoToggle c ind)) fs

/-- A trace with, for each entry, the time that passes before the next one. -/
abbrev TimedTrace := List (PinEvent × Rat)

/-- The times keep every hold: "at least t microseconds", and any time of zero or more elsewhere (R207). -/
def paced (tt : TimedTrace) : Prop :=
  ∀ e ∈ tt, 0 ≤ e.2 ∧ ∀ t, e.1 = .hold t → t ≤ e.2

/-- The lengths of the EN-high intervals of a timed trace; `high` is the length so far of the one in progress (R208).
DESIGN CHOICE (log 15, unsafe): an interval that a reset ends (R342), and one still in progress at the end of the trace,
count as intervals, with the length they reached. -/
def enIntervals (high : Option Rat) : TimedTrace → List Rat
  | [] => high.toList
  | (e, d) :: rest =>
      match high, e with
      | none, .pin .en true => enIntervals (some d) rest
      | some h, .pin .en false => h :: enIntervals none rest
      | some h, .rst => h :: enIntervals none rest
      | some h, _ => enIntervals (some (h + d)) rest
      | none, _ => enIntervals none rest

/-- What R208 and 70_reset_and_hazards.md R355 ask of an implementation's timing: every EN-high interval lasts at least
T_EN and at most T_EN_MAX. DESIGN CHOICE (log 15, unsafe): the bound T_EN is asked of an interval that a reset cuts short
too, on which the spec is silent. -/
def energizeSafe (c : Config) (tt : TimedTrace) : Prop :=
  ∀ d ∈ enIntervals none tt, c.tEn ≤ d ∧ d ≤ c.tEnMax

end Sys2Proof.Machine
end

