-- ==== Sys2Proof/Certificates/Slice0/Obligations.lean ====
section
/-! DEFINITION. The statements about the DDE, from the numbered rules of spec/. A next state is written as the state
before with the fields the rule writes replaced, so that each result states its frame: no other field changes. -/

open Sys2Proof Sys2Proof.Machine

/-! ## Encoding (30_encoding.md) -/

/-- Every command that fits its fields is read back from its word, with every operand (R101, R103, R104, R108). -/
def Obligations.DecodeInvertsEncode : Prop :=
  ∀ i : Instr, i.wf = true → decode (encode i) = some i

/-- Every legal word is the word of the command it decodes to, whose operands fit their fields (R102, R103). -/
def Obligations.EncodeInvertsDecode : Prop :=
  ∀ (w : Word) (i : Instr), decode w = some i → i.wf = true ∧ encode i = w

/-- R107: a word decodes to exactly the one row that accepts it, or is illegal; no two rows accept one word, because
their OP values differ. -/
def Obligations.WordsDecodeByTheTable : Prop :=
  (∀ w : Word, decode w = none ∧ (∀ row ∈ opcodeRows, row.accepts w = false) ∨
    ∃ i row, decode w = some i ∧ row ∈ opcodeRows ∧ row.accepts w = true ∧ row.mnemonic = mnemonic i ∧
      ∀ other ∈ opcodeRows, other.accepts w = true → other = row) ∧
  ∀ x ∈ opcodeRows, ∀ y ∈ opcodeRows, x ≠ y →
    x.pattern.extractLsb' 24 8 ≠ y.pattern.extractLsb' 24 8 ∧ ∀ w : Word, ¬ (x.accepts w = true ∧ y.accepts w = true)

/-- Which bits of a word matching a row are which operand (R101, R102, R104). -/
def Obligations.OperandFieldsOfEachRow : Prop :=
  ∀ w : Word,
    (w &&& 0xFF0000FF#32 = 0x02000000#32 → decode w = some (.wrdes (w.toNat / 65536 % 256) (w.toNat / 256 % 256))) ∧
    (w &&& 0xFF0000FF#32 = 0x03000000#32 → decode w = some (.rdcur (w.toNat / 65536 % 256) (w.toNat / 256 % 256))) ∧
    (w &&& 0xFF0000FF#32 = 0x09000000#32 → decode w = some (.rddes (w.toNat / 65536 % 256) (w.toNat / 256 % 256))) ∧
    (w &&& 0xFFFFFFFE#32 = 0x04000000#32 → decode w = some (.paint (w.toNat % 2 == 1))) ∧
    (w &&& 0xFF000060#32 = 0x10000000#32 → decode w = some
      (.fire (w.toNat / 65536 % 256) (w.toNat / 256 % 256) (w.toNat % 32) (w.toNat / 128 % 2 == 1))) ∧
    (w &&& 0xFFFFFFFE#32 = 0x11000000#32 → decode w = some (.transmit (w.toNat % 2 == 1))) ∧
    (w &&& 0xFF00FFFF#32 = 0x13000000#32 → decode w = some (.setrowset (w.toNat / 65536 % 256))) ∧
    (w &&& 0xFF00FFFF#32 = 0x14000000#32 → decode w = some (.setrowreset (w.toNat / 65536 % 256))) ∧
    (w &&& 0xFFFF00E0#32 = 0x17000000#32 → decode w = some (.setcol (w.toNat / 256 % 256) (w.toNat % 32))) ∧
    (w &&& 0xFFFF00FF#32 = 0x18000000#32 → decode w = some (.getcol (w.toNat / 256 % 256))) ∧
    (w &&& 0xFFFFFFFE#32 = 0x1B000000#32 → decode w = some (.setdir (w.toNat % 2 == 1))) ∧
    (w &&& 0xFFFFFFF8#32 = 0x1D000000#32 → decode w = some (.setind (w.toNat % 8))) ∧
    (w &&& 0xFF00FFFF#32 = 0x1F000000#32 → decode w = some (.rdimg (w.toNat / 65536 % 256)))

/-- Words written out from the patterns of R104 and the vectors of 95_test_vectors.md. -/
def Obligations.SampleWordsDecode : Prop :=
  decode 0x01000000#32 = some .init ∧ decode 0x02050700#32 = some (.wrdes 5 7) ∧
  decode 0x04000001#32 = some (.paint true) ∧ decode 0x10010283#32 = some (.fire 1 2 3 true) ∧
  decode 0x11000001#32 = some (.transmit true) ∧ decode 0x12000000#32 = some .clrimg ∧
  decode 0x17000003#32 = some (.setcol 0 3) ∧ decode 0x1D000005#32 = some (.setind 5) ∧
  decode 0x00000000#32 = none ∧ decode 0x10000020#32 = none ∧ decode 0x20000000#32 = none

/-! ## The step, the prologue and faults (60_exceptions.md; 10_state.md R39) -/

/-- A presented legal command is accepted and run: the step is exec of the decoded command, at the state with CMD and
WDATA loaded and the sequencer BUSY, whatever cursors it starts with (log 16). -/
def Obligations.StepRunsTheDecodedCommand : Prop :=
  ∀ (s : State) (cmd wdata : Word) (rest : List Input) (i : Instr) (k : Cursors),
    s.inputs = .command cmd wdata [] :: rest → s.ready = true → decode cmd = some i →
    step s = exec i { s with cmd := cmd, wdata := wdata, seq := .busy k, inputs := rest }

/-- R311, with the conditions of R301 and R302 and the effects of R304 and R310: the first check that applies decides. -/
def Obligations.PrologueOrder : Prop :=
  ∀ (s : State) (cmd wdata : Word) (rest : List Input),
    s.inputs = .command cmd wdata [] :: rest → s.ready = true →
    ∃ t, step s = .next t ∧
      (s.faulted = true →
        t = { s with cmd := cmd, wdata := wdata, inputs := rest, seq := Sequencer.idle, status := 4#3,
                     rdata := s.faultCode.setWidth 32 }) ∧
      (s.faulted = false → decode cmd = none →
        t = { s with cmd := cmd, wdata := wdata, inputs := rest, seq := Sequencer.idle, status := 1#3, rdata := 0#32,
                     faulted := true, faultCode := 1#3 }) ∧
      ∀ i, s.faulted = false → decode cmd = some i →
        (boundsCondition s.cfg i →
          t = { s with cmd := cmd, wdata := wdata, inputs := rest, seq := Sequencer.idle, status := 2#3, rdata := 0#32,
                       faulted := true, faultCode := 2#3 }) ∧
        (¬ boundsCondition s.cfg i →
          (∀ k, exec i { s with cmd := cmd, wdata := wdata, seq := .busy k, inputs := rest } = .next t) ∧
            t.status = 0#3 ∧ t.faulted = false ∧ t.faultCode = s.faultCode)

/-- R304: a command refused in the fault state has no effect but its response. -/
def Obligations.RefusedCommandHasNoEffect : Prop :=
  (∀ (i : Instr) (s : State), s.faulted = true →
    exec i s = .next { s with seq := Sequencer.idle, status := 4#3, rdata := s.faultCode.setWidth 32 }) ∧
  ∀ (s : State) (cmd wdata : Word) (rest : List Input),
    s.faulted = true → s.inputs = .command cmd wdata [] :: rest → s.ready = true →
    step s = .next { s with cmd := cmd, wdata := wdata, inputs := rest, seq := Sequencer.idle, status := 4#3,
                            rdata := s.faultCode.setWidth 32 }

/-- R310: a fault writes FAULTED, FAULTCODE and the response, nothing else; it is sticky, and only a reset clears it. -/
def Obligations.FaultsArePreciseAndSticky : Prop :=
  (∀ (i : Instr) (s : State), s.faulted = false → boundsCondition s.cfg i →
    exec i s = .next { s with faulted := true, faultCode := 2#3, status := 2#3, rdata := 0#32, seq := Sequencer.idle }) ∧
  (∀ (s : State) (cmd wdata : Word) (rest : List Input), s.faulted = false →
    s.inputs = .command cmd wdata [] :: rest → s.ready = true → decode cmd = none →
    step s = .next { s with cmd := cmd, wdata := wdata, inputs := rest, faulted := true, faultCode := 1#3,
                            status := 1#3, rdata := 0#32, seq := Sequencer.idle }) ∧
  (∀ s t : State, s.faulted = true → step s = .next t →
    t.faulted = true ∧ t.faultCode = s.faultCode ∨
    ∃ input rest, s.inputs = input :: rest ∧
      ((∃ rst, input = .reset rst) ∨ ∃ cmd wdata k ks, input = .command cmd wdata (k :: ks)))

/-- Every command in bounds of a fault-free DDE completes with STATUS = OK, READY = 1 and the fault state and the port's
registers as they were; no command, and no step, ever stops the machine (R300, R312, R82). -/
def Obligations.CommandsComplete : Prop :=
  (∀ (i : Instr) (s : State), s.faulted = false → ¬ boundsCondition s.cfg i →
    ∃ t, exec i s = .next t ∧ t.status = 0#3 ∧ t.ready = true ∧ t.faulted = false ∧ t.faultCode = s.faultCode ∧
      t.cmd = s.cmd ∧ t.wdata = s.wdata ∧ t.inputs = s.inputs ∧ t.cfg = s.cfg) ∧
  (∀ (i : Instr) (s : State), ∃ t, exec i s = .next t ∧ t.ready = true ∧ t.status.toNat ≤ 4) ∧
  ∀ s : State, ∃ t, step s = .next t

/-- Every step keeps the invariant of Safety.lean: the arrays' shape, the image's canonical form and its 0 padding, the
status and fault codes, an IDLE sequencer, and the resting levels of the pins. -/
def Obligations.StepKeepsTheInvariant : Prop :=
  ∀ s t : State, s.Inv → step s = .next t → t.Inv

/-- The state after reset meets the invariant, for every configuration, the one of State.reset too (log 1). -/
def Obligations.ResetMeetsTheInvariant : Prop :=
  (∀ c : Config, (State.resetWith c).Inv) ∧ State.reset.Inv

/-- No step writes the configuration (00_scope.md R8; 20_memory.md R84). -/
def Obligations.ConfigurationIsNeverWritten : Prop :=
  ∀ s t : State, step s = .next t → t.cfg = s.cfg

/-- The pin trace only grows: a step appends its events (20_memory.md R81). -/
def Obligations.TraceOnlyGrows : Prop :=
  ∀ s t : State, step s = .next t → ∃ evs, t.trace = s.trace ++ evs

/-! ## Reset and the port (70_reset_and_hazards.md) -/

/-- Asserting reset leaves the values of R341 and the self-test's events, whatever the state before. That the mark `rst`
stands in the trace is the model's choice (log 3). -/
def Obligations.ResetLeavesTheResetValues : Prop :=
  ∀ (s : State) (rest : List Input), s.inputs = .reset [] :: rest → validConfig s.cfg = true →
    ∃ t, step s = .next t ∧
      (∀ r m, t.cur.word r m = 0#32 ∧ t.des.word r m = 0#32) ∧ (∀ L, t.img.line L = false) ∧ t.ind = 0#3 ∧
      t.faulted = false ∧ t.faultCode = 0#3 ∧ t.cmd = 0#32 ∧ t.wdata = 0#32 ∧ t.status = 0#3 ∧ t.rdata = 0#32 ∧
      t.ready = true ∧ t.seq = Sequencer.idle ∧ t.pins = ⟨false, false, false, true, false⟩ ∧
      t.trace = s.trace ++ [.rst] ++ selfTestTrace s.cfg ∧ t.cfg = s.cfg ∧ t.inputs = rest

/-- R306 and R346: with an invalid configuration, reset enters the CONFIG fault with no pin event and READY = 1, and
every later command is refused with STATUS 4 and RDATA 3. -/
def Obligations.InvalidConfigurationFaultsAtReset : Prop :=
  ∀ (s : State) (rest : List Input), s.inputs = .reset [] :: rest → validConfig s.cfg = false →
    ∃ t, step s = .next t ∧ t.faulted = true ∧ t.faultCode = 3#3 ∧ t.ready = true ∧ t.trace = s.trace ++ [.rst] ∧
      t.inputs = rest ∧
      ∀ i : Instr, exec i t = .next { t with seq := Sequencer.idle, status := 4#3, rdata := 3#32 }

/-- R342: reset inside a command abandons it after the events emitted so far; no response is given, the pins and every
register end as after any reset, and the reset sequence's events follow. The positions k and the mark `rst` are the model's
choice (logs 2 and 3); that an invalid configuration leaves STATUS and RDATA 0, as State.resetWith has it, is the model's
deduction (log 5). -/
def Obligations.ResetAbandonsTheCommand : Prop :=
  ∀ (s t : State) (cmd wdata : Word) (k : Nat) (rest : List Input) (i : Instr) (evs : Trace) (q : Cursors),
    s.inputs = .command cmd wdata [k] :: rest → s.ready = true → decode cmd = some i →
    exec i { s with cmd := cmd, wdata := wdata, seq := .busy q, inputs := rest } = .next t →
    t.trace = s.trace ++ evs →
    step s = .next { State.resetWith s.cfg with
                      trace := s.trace ++ evs.take k ++ (State.resetWith s.cfg).trace, inputs := rest }

/-- R340, R342: however often the reset input cuts a reset sequence, or the command before it, the step ends in the
state after reset, with the trace so far kept; `evs`, what the cut runs emitted, is left open here. That a step runs to
there is the model's choice (log 2), and that an invalid configuration leaves STATUS and RDATA 0, as State.resetWith has
it, is its deduction (log 5). -/
def Obligations.CutResetsEndInTheResetState : Prop :=
  ∀ (s : State) (input : Input) (rest : List Input), s.inputs = input :: rest →
    ((∃ rst, input = .reset rst) ∨ s.ready = true ∧ ∃ cmd wdata k ks, input = .command cmd wdata (k :: ks)) →
    ∃ evs, step s = .next { State.resetWith s.cfg with
                             trace := s.trace ++ evs ++ (State.resetWith s.cfg).trace, inputs := rest }

/-- A command presented while READY = 0 stays presented and nothing changes: the model's deduction from R354 (log 11), in
a state no run reaches between steps (log 7). With nothing presented the step leaves the state as it is: the model's
choice (log 2) for the waiting of R343. -/
def Obligations.PortWaits : Prop :=
  (∀ (s : State) (cmd wdata : Word) (rst : List Nat) (rest : List Input),
    s.inputs = .command cmd wdata rst :: rest → s.ready = false → step s = .next s) ∧
  ∀ s : State, s.inputs = [] → step s = .next s

/-! ## Dot-matrix commands (40_dot_matrix.md) -/

/-- WRDES stores all 32 bits of WDATA in one word of DES, and changes no other word (R140). -/
def Obligations.WrdesWritesOneWord : Prop :=
  ∀ (s : State) (r m : Nat), s.faulted = false → s.des.fits s.cfg = true → r < s.cfg.rows → m < s.cfg.modules →
    ∃ des, exec (.wrdes r m) s =
        .next { s with des := des, status := 0#3, rdata := 0#32, seq := Sequencer.idle } ∧
      des.fits s.cfg = true ∧
      ∀ r' m', des.word r' m' = if r' = r ∧ m' = m then s.wdata else s.des.word r' m'

/-- RDCUR and RDDES answer one word and change nothing (R141, R142). -/
def Obligations.SnapshotReadsAnswerOneWord : Prop :=
  ∀ (s : State) (r m : Nat), s.faulted = false → r < s.cfg.rows → m < s.cfg.modules →
    exec (.rdcur r m) s = .next { s with status := 0#3, rdata := s.cur.word r m, seq := Sequencer.idle } ∧
    exec (.rddes r m) s = .next { s with status := 0#3, rdata := s.des.word r m, seq := Sequencer.idle }

/-- PAINT fires, in sweep order, the dots whose desired bit differs (all, when forced) to their desired bit, and then
copies DES into CUR; DES is unchanged (R143). -/
def Obligations.PaintFiresTheDifference : Prop :=
  ∀ (s : State) (force : Bool) (fires : List Fire), s.faulted = false →
    fires = ((sweep s.cfg).map fun d => ⟨d, (s.des.word d.r d.m).getLsbD d.c⟩).filter
      (fun f => force || f.set != (s.cur.word f.dot.r f.dot.m).getLsbD f.dot.c) →
    ∃ cur, exec (.paint force) s =
        .next { s with cur := cur, img := imageAfter s.cfg s.ind s.img fires,
                       ind := indAfter s.cfg s.ind fires.length, trace := s.trace ++ fireTrace s.cfg s.ind fires,
                       pins := s.pins.afterAll (fireTrace s.cfg s.ind fires),
                       status := 0#3, rdata := 0#32, seq := Sequencer.idle } ∧
      cur.fits s.cfg = true ∧
      ∀ r m, r < s.cfg.rows → m < s.cfg.modules → cur.word r m = s.des.word r m

/-- R144: how many dots PAINT fires, counted by its energize pulses, one per AF. -/
def Obligations.PaintFireCounts : Prop :=
  ∀ (s t : State) (evs : Trace), s.faulted = false → validConfig s.cfg = true → t.trace = s.trace ++ evs →
    (exec (.paint false) s = .next t → pulses evs = s.diffCount) ∧
    (exec (.paint true) s = .next t → pulses evs = dotCount s.cfg)

/-- R145: after PAINT the snapshots agree; PAINT 0 on agreeing snapshots fires nothing; only WRDES, and INVERSE with
INVERSE_CYCLE false, can break the agreement; CLEAR, FILL and MAGNETIZE leave it; and the commands outside the dot-matrix
writers and INIT do not touch CUR or DES. -/
def Obligations.PaintConverges : Prop :=
  (∀ (s t : State) (f : Bool), s.faulted = false → exec (.paint f) s = .next t → t.inSync) ∧
  (∀ s t : State, validConfig s.cfg = true → s.faulted = false → s.inSync → exec (.paint false) s = .next t →
    t.trace = s.trace ∧ t.img = s.img ∧ t.ind = s.ind ∧ t.pins = s.pins) ∧
  (∀ (i : Instr) (s t : State), s.inSync → exec i s = .next t →
    t.inSync ∨ (∃ r m, i = .wrdes r m) ∨ (i = .inverse ∧ s.cfg.inverseCycle = false)) ∧
  (∀ (i : Instr) (s t : State), s.faulted = false → exec i s = .next t → i = .clear ∨ i = .fill ∨ i = .magnetize →
    t.inSync) ∧
  ∀ (i : Instr) (s t : State), exec i s = .next t →
    (t.cur = s.cur ∧ t.des = s.des) ∨ i = .init ∨ (∃ r m, i = .wrdes r m) ∨ (∃ f, i = .paint f) ∨ i = .clear ∨
      i = .fill ∨ i = .inverse ∨ i = .magnetize

/-- CLEAR zeroes both snapshots and fires every dot once, to reset: R × Σ COLS[m] fires (R146, R147). -/
def Obligations.ClearZeroesAndFiresEveryDot : Prop :=
  ∀ (s : State) (fires : List Fire), s.faulted = false → fires = (sweep s.cfg).map (fun d => ⟨d, false⟩) →
    (∃ cur des, exec .clear s =
        .next { s with cur := cur, des := des, img := imageAfter s.cfg s.ind s.img fires,
                       ind := indAfter s.cfg s.ind fires.length, trace := s.trace ++ fireTrace s.cfg s.ind fires,
                       pins := s.pins.afterAll (fireTrace s.cfg s.ind fires),
                       status := 0#3, rdata := 0#32, seq := Sequencer.idle } ∧
      cur.fits s.cfg = true ∧ des.fits s.cfg = true ∧ ∀ r m, cur.word r m = 0#32 ∧ des.word r m = 0#32) ∧
    pulses (fireTrace s.cfg s.ind fires) = dotCount s.cfg

/-- FILL makes every word of both snapshots the module's column mask, 0 at and above COLS[m], and fires every dot once,
to set (R149, R150). -/
def Obligations.FillSetsTheColumnMasks : Prop :=
  ∀ (s : State) (fires : List Fire), s.faulted = false → validConfig s.cfg = true →
    fires = (sweep s.cfg).map (fun d => ⟨d, true⟩) →
    ∃ cur des, exec .fill s =
        .next { s with cur := cur, des := des, img := imageAfter s.cfg s.ind s.img fires,
                       ind := indAfter s.cfg s.ind fires.length, trace := s.trace ++ fireTrace s.cfg s.ind fires,
                       pins := s.pins.afterAll (fireTrace s.cfg s.ind fires),
                       status := 0#3, rdata := 0#32, seq := Sequencer.idle } ∧
      cur.fits s.cfg = true ∧ des.fits s.cfg = true ∧
      ∀ r m, r < s.cfg.rows → m < s.cfg.modules → cur.word r m = des.word r m ∧
        ∀ k, k < 32 → (cur.word r m).getLsbD k = decide (k < s.cfg.cols.getD m 0)

/-- INVERSE makes DES the 32-bit complement of CUR, fires every dot to its desired bit, and runs the cycle exactly when
INVERSE_CYCLE is true (R152, R154). -/
def Obligations.InverseComplementsTheDisplay : Prop :=
  ∀ (s : State) (fires : List Fire), s.faulted = false → validConfig s.cfg = true →
    fires = (sweep s.cfg).map (fun d => ⟨d, !(s.cur.word d.r d.m).getLsbD d.c⟩) →
    ∃ cur des, exec .inverse s =
        .next { s with cur := cur, des := des, img := imageAfter s.cfg s.ind s.img fires,
                       ind := indAfter s.cfg s.ind fires.length, trace := s.trace ++ fireTrace s.cfg s.ind fires,
                       pins := s.pins.afterAll (fireTrace s.cfg s.ind fires),
                       status := 0#3, rdata := 0#32, seq := Sequencer.idle } ∧
      des.fits s.cfg = true ∧ (s.cfg.inverseCycle = false → cur = s.cur) ∧
      (s.cfg.inverseCycle = true → cur.fits s.cfg = true) ∧
      ∀ r m, r < s.cfg.rows → m < s.cfg.modules → des.word r m = ~~~(s.cur.word r m) ∧
        (s.cfg.inverseCycle = true → cur.word r m = ~~~(s.cur.word r m))

/-- R153: firing every dot to the complement, and firing only the dots whose complemented bit differs from CUR, are the
same AF calls. -/
def Obligations.InverseReadingsAgree : Prop :=
  ∀ (s t : State), s.faulted = false → validConfig s.cfg = true → exec .inverse s = .next t →
    (∃ evs, t.trace = s.trace ++ evs ∧ pulses evs = dotCount s.cfg ∧
      evs = fireTrace s.cfg s.ind ((sweep s.cfg).map fun d => ⟨d, (t.des.word d.r d.m).getLsbD d.c⟩) ∧
      evs = fireTrace s.cfg s.ind (((sweep s.cfg).map fun d => ⟨d, (t.des.word d.r d.m).getLsbD d.c⟩).filter
        fun f => f.set != (s.cur.word f.dot.r f.dot.m).getLsbD f.dot.c))

/-- MAGNETIZE runs N = WDATA sweeps, each firing every dot whose CUR bit is 1 to set, and then copies DES into CUR; DES
is unchanged (R156, R157). -/
def Obligations.MagnetizeRefiresTheSetDots : Prop :=
  ∀ (s : State) (once fires : List Fire), s.faulted = false →
    once = ((sweep s.cfg).filter fun d => (s.cur.word d.r d.m).getLsbD d.c).map (fun d => ⟨d, true⟩) →
    fires = (List.replicate s.wdata.toNat once).flatten →
    ∃ cur, exec .magnetize s =
        .next { s with cur := cur, img := imageAfter s.cfg s.ind s.img fires,
                       ind := indAfter s.cfg s.ind fires.length, trace := s.trace ++ fireTrace s.cfg s.ind fires,
                       pins := s.pins.afterAll (fireTrace s.cfg s.ind fires),
                       status := 0#3, rdata := 0#32, seq := Sequencer.idle } ∧
      cur.fits s.cfg = true ∧
      ∀ r m, r < s.cfg.rows → m < s.cfg.modules → cur.word r m = s.des.word r m

/-- 10_state.md R44: which commands leave CUR == DES, what INVERSE leaves, and that WRDES may leave them unequal. -/
def Obligations.SnapshotsAgreeAfterTheCommands : Prop :=
  (∀ (i : Instr) (s t : State), s.faulted = false → exec i s = .next t →
    (i = .init ∨ (∃ f, i = .paint f) ∨ i = .clear ∨ i = .fill ∨ i = .magnetize ∨
      (i = .inverse ∧ s.cfg.inverseCycle = true)) → t.inSync) ∧
  (∀ s t : State, s.faulted = false → s.cfg.inverseCycle = false → exec .inverse s = .next t →
    ∀ r m, r < s.cfg.rows → m < s.cfg.modules → t.des.word r m = ~~~(t.cur.word r m)) ∧
  ∃ (s t : State) (r m : Nat), s.inSync ∧ s.faulted = false ∧ exec (.wrdes r m) s = .next t ∧ ¬ t.inSync

/-- The sweep visits every dot in bounds exactly once, r outermost, then m, then c, each ascending (00_scope.md R22). -/
def Obligations.SweepVisitsInOrder : Prop :=
  ∀ c : Config,
    (∀ d : Dot, d ∈ sweep c ↔ d.r < c.rows ∧ d.m < c.modules ∧ d.c < c.cols.getD d.m 0) ∧
    (sweep c).Pairwise (fun x y => x.r < y.r ∨ x.r = y.r ∧ (x.m < y.m ∨ x.m = y.m ∧ x.c < y.c))

/-! ## Image assembly (41_image_assembly.md) -/

/-- FIRE assembles the dot's image afresh, after the auto-toggle, and transmits it with the energize pulse; CUR and DES
are not touched (R170, R171, R178). -/
def Obligations.FireActuatesOneDot : Prop :=
  ∀ (s : State) (r m c : Nat) (set : Bool), s.faulted = false → r < s.cfg.rows → m < s.cfg.modules →
    c < s.cfg.cols.getD m 0 →
    ∃ ind, (s.cfg.indMode = .static → ind = s.ind) ∧
      (s.cfg.indMode = .auto → ∀ k, k < 3 →
        ind.getLsbD k = if k = s.cfg.indToggle then !s.ind.getLsbD k else s.ind.getLsbD k) ∧
      exec (.fire r m c set) s =
        .next { s with ind := ind, img := assembleImage s.cfg ⟨r, m, c⟩ set ind,
                       trace := s.trace ++ txTrace s.cfg (assembleImage s.cfg ⟨r, m, c⟩ set ind) true,
                       pins := s.pins.afterAll (txTrace s.cfg (assembleImage s.cfg ⟨r, m, c⟩ set ind) true),
                       status := 0#3, rdata := 0#32, seq := Sequencer.idle }

/-- R172 to R177 and R179: the lines at 1 in an assembled image are exactly those of the row select, the column code of
the right-aligned window, the module address, the direction and the indicators; no line of an earlier image is left. -/
def Obligations.AssembledImageLines : Prop :=
  ∀ (c : Config) (d : Dot) (set : Bool) (ind : BitVec 3) (L : Nat), validConfig c = true →
    d.r < c.rows → d.m < c.modules → d.c < c.cols.getD d.m 0 →
    ((assembleImage c d set ind).line L = true ↔
      (set = true ∧ L = c.rowSetLine.getD d.r 0) ∨ (set = false ∧ L = c.rowResetLine.getD d.r 0) ∨
      (∃ j, j < c.ncc ∧ L = c.colCodeLine.getD j 0 ∧
        (c.cct.getD (c.maxCol - c.cols.getD d.m 0 + d.c) 0).testBit j = true) ∨
      (∃ i, i < c.naw ∧ L = c.addrLine.getD i 0 ∧ (c.addr.getD d.m 0).testBit i = true) ∨
      (set = false ∧ L = c.dirLine) ∨
      (∃ k, k < 3 ∧ L = c.indLine.getD k 0 ∧ ind.getLsbD k = true))

/-- R175: the column-code lookup never leaves the table, and the last column selects the last entry. -/
def Obligations.ColumnWindowStaysInTheTable : Prop :=
  ∀ (c : Config) (m col : Nat), validConfig c = true → m < c.modules → col < c.cols.getD m 0 →
    c.maxCol - c.cols.getD m 0 ≤ off c m + col ∧ off c m + col ≤ c.maxCol - 1 ∧ off c m + col < c.cct.length ∧
    off c m + (c.cols.getD m 0 - 1) = c.maxCol - 1

/-! ## Serial transmission (42_serial_transmit.md) -/

/-- TRANSMIT sends the staged image as it is, by steps (a) to (e) of R201, and changes only the pins and the trace
(R200 to R206). -/
def Obligations.TransmitShiftsOutTheImage : Prop :=
  ∀ (s : State) (p : Bool), s.faulted = false →
    exec (.transmit p) s =
      .next { s with
        trace := s.trace ++ ([.pin .clk false, .pin .clr false, .hold s.cfg.tClr, .pin .clr true] ++
          ((List.range s.cfg.nl).reverse.flatMap fun L =>
            [.pin .data (s.img.line L), .pin .clk true, .hold s.cfg.tClk, .pin .clk false]) ++
          [.pin .latch true, .hold s.cfg.tLatch, .pin .latch false] ++
          if p then [.pin .en true, .hold s.cfg.tEn, .pin .en false] else []),
        pins := { clk := false, data := if s.cfg.nl = 0 then s.pins.data else s.img.line 0, latch := false,
                  clr := true, en := if p then false else s.pins.en },
        status := 0#3, rdata := 0#32, seq := Sequencer.idle }

/-- R210: DATA is driven to IMG[NL-1] down to IMG[0], and each is there at one rising edge of CLK. -/
def Obligations.DataGoesOutHighestLineFirst : Prop :=
  ∀ (c : Config) (img : Memory) (p : Bool) (pins : Pins),
    dataValues (txTrace c img p) = (List.range c.nl).reverse.map img.line ∧
    clockedData pins (txTrace c img p) = (List.range c.nl).reverse.map img.line

/-- R211: the counts of events, of writes, of holds and of pulses in one transmission from the resting levels. -/
def Obligations.TransmissionEventCounts : Prop :=
  ∀ (c : Config) (img : Memory) (p : Bool) (pins : Pins), pins.clr = true → pins.latch = false → pins.en = false →
    (txTrace c img p).length = 1 + 3 + 4 * c.nl + 3 + 3 * p.toNat ∧
    ((txTrace c img p).filter PinEvent.isWrite).length = 5 + 3 * c.nl + 2 * p.toNat ∧
    ((txTrace c img p).filter PinEvent.isHold).length = 2 + c.nl + p.toNat ∧
    risingEdges .clk pins (txTrace c img p) = c.nl ∧
    fallingEdges .clr pins (txTrace c img p) = 1 ∧ risingEdges .clr pins (txTrace c img p) = 1 ∧
    risingEdges .latch pins (txTrace c img p) = 1 ∧ fallingEdges .latch pins (txTrace c img p) = 1 ∧
    risingEdges .en pins (txTrace c img p) = p.toNat ∧ fallingEdges .en pins (txTrace c img p) = p.toNat

/-- R213: under the informative chain model of R212 (log 9), a transmission leaves line k at output k, whatever the
chain's length and content, and energizes exactly those outputs when p = 1. -/
def Obligations.ChainHoldsTheImage : Prop :=
  ∀ (c : Config) (img : Memory) (p : Bool) (pins : Pins) (ch : Chain), pins.latch = false → pins.en = false →
    c.nl ≤ ch.sr.length →
    (ch.seesAll pins (txTrace c img p)).q =
      (List.range ch.sr.length).map (fun k => decide (k < c.nl) && img.line k) ∧
    (ch.seesAll pins (txTrace c img p)).energized =
      ch.energized ++ if p then [(List.range ch.sr.length).map (fun k => decide (k < c.nl) && img.line k)] else []

/-- 20_memory.md R78: only TRANSMIT, FIRE, the bulk commands and INIT emit pin events, and EN is raised only by FIRE, the
bulk commands and TRANSMIT 1. -/
def Obligations.OnlyPulsedTransmissionsRaiseEnable : Prop :=
  ∀ (i : Instr) (s t : State) (evs : Trace), exec i s = .next t → t.trace = s.trace ++ evs →
    (evs ≠ [] → i = .init ∨ (∃ p, i = .transmit p) ∨ (∃ r m c b, i = .fire r m c b) ∨ (∃ f, i = .paint f) ∨
      i = .clear ∨ i = .fill ∨ i = .inverse ∨ i = .magnetize) ∧
    (.pin .en true ∈ evs → i = .transmit true ∨ (∃ r m c b, i = .fire r m c b) ∨ (∃ f, i = .paint f) ∨
      i = .clear ∨ i = .fill ∨ i = .inverse ∨ i = .magnetize)

/-- R207, R208: every timing of a pulsed transmission that keeps its holds has one EN-high interval, of at least T_EN;
an unpulsed one has none; and the timing that waits exactly the holds stays within T_EN_MAX. -/
def Obligations.EnergizeIntervals : Prop :=
  (∀ (c : Config) (img : Memory) (tt : TimedTrace), paced tt → tt.map Prod.fst = txTrace c img true →
    ∃ d, enIntervals none tt = [d] ∧ c.tEn ≤ d) ∧
  (∀ (c : Config) (img : Memory) (tt : TimedTrace), tt.map Prod.fst = txTrace c img false →
    enIntervals none tt = []) ∧
  ∀ (c : Config) (img : Memory), validConfig c = true →
    paced ((txTrace c img true).map fun e => (e, minTime [e])) ∧
    energizeSafe c ((txTrace c img true).map fun e => (e, minTime [e]))

/-- The lower bounds of 70_reset_and_hazards.md R360 on TX, on a list of fires and on the self-test: the sums of their
holds. -/
def Obligations.MinimumDurations : Prop :=
  ∀ c : Config,
    (∀ (img : Memory) (p : Bool),
      minTime (txTrace c img p) = c.tClr + c.nl * c.tClk + c.tLatch + if p then c.tEn else 0) ∧
    (∀ (ind : BitVec 3) (fires : List Fire),
      minTime (fireTrace c ind fires) = fires.length * (c.tClr + c.nl * c.tClk + c.tLatch + c.tEn)) ∧
    minTime (selfTestTrace c) = 6 * (c.tClr + c.nl * c.tClk + c.tLatch + c.tSt)

/-- R209: two traces are equivalent exactly when their level vectors, repeats dropped, are the same sequence; a write that
leaves its pin's level unchanged may be left out, and one that changes it may not; adjacent holds count as the longer of
the two, in either order; a hold may be made longer, and one shorter than required does not conform. -/
def Obligations.EquivalentTracesConform : Prop :=
  (∀ (p : Pins) (x y : Trace), traceEquiv p x y = true ↔
    (x.scanl Pins.after p).destutter (fun a b => a ≠ b) = (y.scanl Pins.after p).destutter (fun a b => a ≠ b)) ∧
  (∀ (p : Pins) (x y : Trace) (q : Pin) (v : Bool), (p.afterAll x).level q = v →
    conforms p (x ++ y) (x ++ [.pin q v] ++ y) = true ∧ conforms p (x ++ [.pin q v] ++ y) (x ++ y) = true) ∧
  (∀ (p : Pins) (x : Trace) (q : Pin) (v : Bool), (p.afterAll x).level q ≠ v →
    conforms p x (x ++ [.pin q v]) = false ∧ conforms p (x ++ [.pin q v]) x = false) ∧
  (∀ (p : Pins) (x y : Trace) (t u : Rat),
    normalise p (x ++ [.hold t, .hold u] ++ y) = normalise p (x ++ [.hold (max t u)] ++ y)) ∧
  (∀ (p : Pins) (x y : Trace) (t u : Rat), t ≤ u →
    conforms p (x ++ [.hold u] ++ y) (x ++ [.hold t] ++ y) = true) ∧
  ∀ (p : Pins) (x : Trace) (q : Pin) (v : Bool) (t u w : Rat), (p.afterAll x).level q ≠ v → 0 < t → u < t → w < t →
    conforms p (x ++ [.pin q v, .hold u, .hold w]) (x ++ [.pin q v, .hold t]) = false

/-! ## Accessors (43_accessors.md) -/

/-- CLRIMG makes every line 0 and changes nothing else (R230). -/
def Obligations.ClrimgZeroesTheImage : Prop :=
  ∀ s : State, s.faulted = false →
    ∃ img, exec .clrimg s = .next { s with img := img, status := 0#3, rdata := 0#32, seq := Sequencer.idle } ∧
      ∀ L, img.line L = false

/-- SETROWSET and SETROWRESET clear every line of the other polarity, drive the one line of row r to 1, and leave every
other line alone (R231, R232). -/
def Obligations.RowSelectIsExclusive : Prop :=
  ∀ (s : State) (r : Nat), s.faulted = false → validConfig s.cfg = true → r < s.cfg.rows →
    (∃ img, exec (.setrowset r) s =
        .next { s with img := img, status := 0#3, rdata := 0#32, seq := Sequencer.idle } ∧
      img.line (s.cfg.rowSetLine.getD r 0) = true ∧
      (∀ q, q < s.cfg.rows → img.line (s.cfg.rowResetLine.getD q 0) = false) ∧
      ∀ L, L ≠ s.cfg.rowSetLine.getD r 0 → (∀ q, q < s.cfg.rows → L ≠ s.cfg.rowResetLine.getD q 0) →
        img.line L = s.img.line L) ∧
    ∃ img, exec (.setrowreset r) s =
        .next { s with img := img, status := 0#3, rdata := 0#32, seq := Sequencer.idle } ∧
      img.line (s.cfg.rowResetLine.getD r 0) = true ∧
      (∀ q, q < s.cfg.rows → img.line (s.cfg.rowSetLine.getD q 0) = false) ∧
      ∀ L, L ≠ s.cfg.rowResetLine.getD r 0 → (∀ q, q < s.cfg.rows → L ≠ s.cfg.rowSetLine.getD q 0) →
        img.line L = s.img.line L

/-- GETROWSET and GETROWRESET answer the lowest row whose line is 1, or 0xFFFFFFFF when none is, and change nothing
(R233, R234). -/
def Obligations.RowScanFindsTheLowestRow : Prop :=
  ∀ s : State, s.faulted = false →
    (∃ v, exec .getrowset s = .next { s with status := 0#3, rdata := v, seq := Sequencer.idle } ∧
      (∀ r, r < s.cfg.rows → s.img.line (s.cfg.rowSetLine.getD r 0) = true →
        (∀ q, q < r → s.img.line (s.cfg.rowSetLine.getD q 0) = false) → v = BitVec.ofNat 32 r) ∧
      ((∀ r, r < s.cfg.rows → s.img.line (s.cfg.rowSetLine.getD r 0) = false) → v = 0xFFFFFFFF#32)) ∧
    ∃ v, exec .getrowreset s = .next { s with status := 0#3, rdata := v, seq := Sequencer.idle } ∧
      (∀ r, r < s.cfg.rows → s.img.line (s.cfg.rowResetLine.getD r 0) = true →
        (∀ q, q < r → s.img.line (s.cfg.rowResetLine.getD q 0) = false) → v = BitVec.ofNat 32 r) ∧
      ((∀ r, r < s.cfg.rows → s.img.line (s.cfg.rowResetLine.getD r 0) = false) → v = 0xFFFFFFFF#32)

/-- SETCOL drives all NCC column-code lines to the code of column c in module m's right-aligned window, and leaves every
other line alone (R235). -/
def Obligations.SetcolDrivesTheColumnCode : Prop :=
  ∀ (s : State) (m c : Nat), s.faulted = false → validConfig s.cfg = true → m < s.cfg.modules →
    c < s.cfg.cols.getD m 0 →
    ∃ img, exec (.setcol m c) s =
        .next { s with img := img, status := 0#3, rdata := 0#32, seq := Sequencer.idle } ∧
      (∀ j, j < s.cfg.ncc → img.line (s.cfg.colCodeLine.getD j 0) =
        (s.cfg.cct.getD (s.cfg.maxCol - s.cfg.cols.getD m 0 + c) 0).testBit j) ∧
      ∀ L, (∀ j, j < s.cfg.ncc → L ≠ s.cfg.colCodeLine.getD j 0) → img.line L = s.img.line L

/-- GETCOL answers the lowest column of module m's window whose code is on the column-code lines, or 0xFFFFFFFF when none
is, and changes nothing (R236). -/
def Obligations.GetcolDecodesTheColumnCode : Prop :=
  ∀ (s : State) (m : Nat), s.faulted = false → validConfig s.cfg = true → m < s.cfg.modules →
    ∃ v, exec (.getcol m) s = .next { s with status := 0#3, rdata := v, seq := Sequencer.idle } ∧
      (∀ c, c < s.cfg.cols.getD m 0 →
        (∀ j, j < s.cfg.ncc → s.img.line (s.cfg.colCodeLine.getD j 0) =
          (s.cfg.cct.getD (s.cfg.maxCol - s.cfg.cols.getD m 0 + c) 0).testBit j) →
        (∀ b, b < c → ∃ j, j < s.cfg.ncc ∧ s.img.line (s.cfg.colCodeLine.getD j 0) ≠
          (s.cfg.cct.getD (s.cfg.maxCol - s.cfg.cols.getD m 0 + b) 0).testBit j) → v = BitVec.ofNat 32 c) ∧
      ((∀ c, c < s.cfg.cols.getD m 0 → ∃ j, j < s.cfg.ncc ∧ s.img.line (s.cfg.colCodeLine.getD j 0) ≠
          (s.cfg.cct.getD (s.cfg.maxCol - s.cfg.cols.getD m 0 + c) 0).testBit j) → v = 0xFFFFFFFF#32)

/-- R244: SETCOL m, c followed by GETCOL m answers c, for a column whose code occurs once in the window. -/
def Obligations.SetcolThenGetcolReturnsTheColumn : Prop :=
  ∀ (s t : State) (m c : Nat), s.faulted = false → validConfig s.cfg = true → m < s.cfg.modules →
    c < s.cfg.cols.getD m 0 →
    (∀ b, b < s.cfg.cols.getD m 0 →
      s.cfg.cct.getD (s.cfg.maxCol - s.cfg.cols.getD m 0 + b) 0 =
        s.cfg.cct.getD (s.cfg.maxCol - s.cfg.cols.getD m 0 + c) 0 → b = c) →
    exec (.setcol m c) s = .next t →
    exec (.getcol m) t = .next { t with status := 0#3, rdata := BitVec.ofNat 32 c, seq := Sequencer.idle }

/-- SETADDR drives all NAW address lines to WDATA's low bits and no other line; GETADDR answers the lines as a binary
field, 0 at and above NAW, and changes nothing (R237, R238). -/
def Obligations.AddressLinesHoldTheAddress : Prop :=
  ∀ s : State, s.faulted = false → validConfig s.cfg = true →
    (∃ img, exec .setaddr s = .next { s with img := img, status := 0#3, rdata := 0#32, seq := Sequencer.idle } ∧
      (∀ i, i < s.cfg.naw → img.line (s.cfg.addrLine.getD i 0) = s.wdata.getLsbD i) ∧
      ∀ L, (∀ i, i < s.cfg.naw → L ≠ s.cfg.addrLine.getD i 0) → img.line L = s.img.line L) ∧
    ∃ v, exec .getaddr s = .next { s with status := 0#3, rdata := v, seq := Sequencer.idle } ∧
      ∀ i, i < 32 → v.getLsbD i = (decide (i < s.cfg.naw) && s.img.line (s.cfg.addrLine.getD i 0))

/-- SETDIR drives the direction line and no other; GETDIR answers it and changes nothing (R239, R240). -/
def Obligations.DirectionLineIsDriven : Prop :=
  ∀ (s : State) (d : Bool), s.faulted = false → validConfig s.cfg = true →
    (∃ img, exec (.setdir d) s = .next { s with img := img, status := 0#3, rdata := 0#32, seq := Sequencer.idle } ∧
      ∀ L, img.line L = if L = s.cfg.dirLine then d else s.img.line L) ∧
    exec .getdir s =
      .next { s with status := 0#3, rdata := if s.img.line s.cfg.dirLine then 1#32 else 0#32, seq := Sequencer.idle }

/-- SETIND writes the three flags from IB and nothing else, the image neither; GETIND answers them and changes nothing
(R241, R242). -/
def Obligations.IndicatorFlagsAreWrittenAndRead : Prop :=
  ∀ (s : State) (ib : Nat), s.faulted = false →
    (∃ ind, exec (.setind ib) s = .next { s with ind := ind, status := 0#3, rdata := 0#32, seq := Sequencer.idle } ∧
      ∀ k, k < 3 → ind.getLsbD k = ib.testBit k) ∧
    ∃ v, exec .getind s = .next { s with status := 0#3, rdata := v, seq := Sequencer.idle } ∧
      ∀ k, k < 32 → v.getLsbD k = (decide (k < 3) && s.ind.getLsbD k)

/-- RDIMG answers lines 32k to 32k+31, line 32k at bit 0 and lines at and above NL reading 0, and changes nothing
(R243; 20_memory.md R73). -/
def Obligations.RdimgReadsThirtyTwoLines : Prop :=
  ∀ (s : State) (k : Nat), s.faulted = false → 32 * k < s.cfg.nl →
    ∃ v, exec (.rdimg k) s = .next { s with status := 0#3, rdata := v, seq := Sequencer.idle } ∧
      ∀ b, b < 32 → v.getLsbD b = (decide (32 * k + b < s.cfg.nl) && s.img.line (32 * k + b))

/-- R245: in STATIC mode the five accessors stage the image AF assembles when IND is 0; otherwise AF's image also has the
indicator lines of the flags that are 1. -/
def Obligations.AccessorsStageTheAssembledImage : Prop :=
  ∀ (s t1 t2 t3 t4 t5 u : State) (r m c : Nat) (set : Bool), s.faulted = false → validConfig s.cfg = true →
    s.cfg.indMode = .static → r < s.cfg.rows → m < s.cfg.modules → c < s.cfg.cols.getD m 0 →
    exec .clrimg s = .next t1 → exec (if set then .setrowset r else .setrowreset r) t1 = .next t2 →
    exec (.setcol m c) t2 = .next t3 →
    exec .setaddr { t3 with wdata := BitVec.ofNat 32 (s.cfg.addr.getD m 0) } = .next t4 →
    exec (.setdir (!set)) t4 = .next t5 → exec (.fire r m c set) s = .next u →
    (s.ind = 0#3 → t5.img = u.img) ∧
    ∀ L, u.img.line L = true ↔ t5.img.line L = true ∨ ∃ k, k < 3 ∧ L = s.cfg.indLine.getD k 0 ∧ s.ind.getLsbD k = true

/-! ## Initialization (44_system.md) and the assembler (30_encoding.md) -/

/-- INIT zeroes both snapshots, the image and the flags, and emits six unpulsed transmissions, of the three indicator
lines and of the zero image in turn, each held for T_ST (R270 to R272). -/
def Obligations.InitRunsTheSelfTest : Prop :=
  ∀ s : State, s.faulted = false → validConfig s.cfg = true →
    ∃ (cur des : Snapshot) (img on : Memory) (pins : Pins),
      exec .init s =
        .next { s with cur := cur, des := des, img := img, ind := 0#3, pins := pins,
                       trace := s.trace ++ (List.replicate 3 (txTrace s.cfg on false ++ [.hold s.cfg.tSt] ++
                         txTrace s.cfg img false ++ [.hold s.cfg.tSt])).flatten,
                       status := 0#3, rdata := 0#32, seq := Sequencer.idle } ∧
      cur.fits s.cfg = true ∧ des.fits s.cfg = true ∧
      (∀ r m, cur.word r m = 0#32 ∧ des.word r m = 0#32) ∧
      (∀ L, img.line L = false) ∧
      (∀ L, on.line L = true ↔ ∃ k, k < 3 ∧ L = s.cfg.indLine.getD k 0) ∧
      pins = { clk := false, data := false, latch := false, clr := true, en := s.pins.en }

/-- The indicator flags after n AF calls: unchanged in STATIC mode; in AUTO mode flag IND_TOGGLE shows the parity of n
(R177, R242). -/
def Obligations.AutoToggleShowsTheParity : Prop :=
  ∀ (c : Config) (ind : BitVec 3) (n k : Nat), k < 3 →
    (indAfter c ind n).getLsbD k =
      if c.indMode = .auto ∧ k = c.indToggle ∧ n % 2 = 1 then !ind.getLsbD k else ind.getLsbD k

/-- What the assembler takes and refuses, with CMD the command's word and WDATA the `#` value or 0 (R108), and what each
pseudo-instruction expands to (R109 to R112): `PAINT` to `PAINT 0`; `SETDESIRED S` to `WRDES r, m, #S[r][m]`, rows outer
and modules inner; `PAINTSNAP S` to that and `PAINT 0`; `GETDOTS` to `RDCUR r, m` in the same order. That statements are
parsed ones, and that SETIND's `#b` stands in IB as well as in WDATA, is the model's reading (log 13). -/
def Obligations.PseudoInstructionsAssemble : Prop :=
  (∀ (st : Statement) (input : Input), assembleStatement st = some input →
    ∃ cmd wdata, input = .command cmd wdata [] ∧ decode cmd = some st.instr ∧
      (∀ v, st.value = some v → wdata = v) ∧
      (st.value = none → (∀ ib, st.instr ≠ .setind ib) → wdata = 0#32) ∧
      ∀ ib, st.instr = .setind ib → wdata = BitVec.ofNat 32 ib) ∧
  (∀ st : Statement, assembleStatement st = none ↔ match st.instr with
    | .wrdes r m => 256 ≤ r ∨ 256 ≤ m ∨ st.value = none
    | .magnetize | .setaddr => st.value = none
    | .rdcur r m | .rddes r m => 256 ≤ r ∨ 256 ≤ m ∨ st.value ≠ none
    | .fire r m c _ => 256 ≤ r ∨ 256 ≤ m ∨ 32 ≤ c ∨ st.value ≠ none
    | .setrowset r | .setrowreset r | .rdimg r => 256 ≤ r ∨ st.value ≠ none
    | .setcol m c => 256 ≤ m ∨ 32 ≤ c ∨ st.value ≠ none
    | .getcol m => 256 ≤ m ∨ st.value ≠ none
    | .setind ib => 8 ≤ ib ∨ st.value ≠ none
    | .init | .paint _ | .clear | .fill | .inverse | .transmit _ | .clrimg | .getrowset | .getrowreset | .getaddr
    | .setdir _ | .getdir | .getind => st.value ≠ none) ∧
  (∀ (c : Config) (snap : Snapshot),
    Pseudo.paint.expand c = [⟨.paint false, none⟩] ∧
    ((Pseudo.setDesired snap).expand c).length = c.rows * c.modules ∧
    (Pseudo.paintSnap snap).expand c = (Pseudo.setDesired snap).expand c ++ [⟨.paint false, none⟩] ∧
    (Pseudo.getDots.expand c).length = c.rows * c.modules ∧
    ∀ r m, r < c.rows → m < c.modules →
      ((Pseudo.setDesired snap).expand c)[r * c.modules + m]? = some ⟨.wrdes r m, some (snap.word r m)⟩ ∧
      (Pseudo.getDots.expand c)[r * c.modules + m]? = some ⟨.rdcur r m, none⟩) ∧
  ∀ (c : Config) (p : Pseudo) (st : Statement), validConfig c = true → st ∈ p.expand c →
    ∃ input, assembleStatement st = some input

/-! ## The normal form of a trace (42_serial_transmit.md R209) -/

/-- R209's normal form, by what a trace does: entries that keep the levels are one dwell, whose hold is the longest asked
for (0 when none is); an entry that changes the levels begins the next dwell; and one trace conforms to another exactly
when their dwells agree one by one in their levels, with holds at least as long. -/
def Obligations.TraceNormalForm : Prop :=
  (∀ (p : Pins) (x : Trace), (∀ e ∈ x, p.after e = p) →
    ∃ h, normalise p x = [⟨p, h⟩] ∧ 0 ≤ h ∧ (∀ t, .hold t ∈ x → t ≤ h) ∧ (h = 0 ∨ .hold h ∈ x)) ∧
  (∀ (p : Pins) (x y : Trace) (e : PinEvent), (p.afterAll x).after e ≠ p.afterAll x →
    normalise p (x ++ e :: y) = normalise p x ++ normalise ((p.afterAll x).after e) y) ∧
  ∀ (p : Pins) (x y : Trace), conforms p x y = true ↔
    List.Forall₂ (fun a b => a.levels = b.levels ∧ b.hold ≤ a.hold) (normalise p x) (normalise p y)

/-! ## The sequencer's hidden state (10_state.md R41) -/

/-- "no command reads it" (R41): what a command does is the same from every phase and every cursor. -/
def Obligations.NoCommandReadsTheSequencer : Prop :=
  ∀ (i : Instr) (s : State) (q : Sequencer), exec i { s with seq := q } = exec i s

/-- While a command runs, the cursors follow its loops (R41): the line index is the line being shifted, from the last line
down (42_serial_transmit.md R204); r, m and c are the dot a sweep visits, fired or not; the repeat count is the number of
MAGNETIZE's sweep (40_dot_matrix.md R156), or of the self-test's round (44_system.md R271); and the position counts the
trace's entries. The model's choices (log 16): an AF by itself, FIRE's, has r, m and c at its dot; the rounds are counted
from 0; and a cursor keeps its last value after its loop, and its value from before where what runs has no loop of it, so
that a transmission leaves rep, r, m and c, and an AF or a visit leaves rep. -/
def Obligations.CursorsFollowTheRun : Prop :=
  ∀ (s : State) (k : Cursors), s.seq = .busy k →
    (∀ L, (s.shiftOne L).seq = .busy { k with line := L, pos := k.pos + 4 }) ∧
    (∀ n, s.shiftOut (n + 1) = (s.shiftOne n).shiftOut n) ∧
    (∀ p, ∃ line, (s.tx p).seq = .busy { k with line := line, pos := k.pos + (txTrace s.cfg s.img p).length }) ∧
    (∀ (d : Dot) (set : Bool), ∃ line pos,
      (s.af d set).seq = .busy { rep := k.rep, r := d.r, m := d.m, c := d.c, line := line, pos := pos }) ∧
    (∀ (go : Fire → Bool) (f : Fire), ∃ line pos,
      (s.visit go f).seq = .busy { rep := k.rep, r := f.dot.r, m := f.dot.m, c := f.dot.c, line := line, pos := pos }) ∧
    (∀ (go : Fire → Bool) (fires : List Fire) (n : Nat), ∃ k',
      (s.sweepTimes go fires (n + 1)).seq = .busy k' ∧ k'.rep = n ∧
      k'.pos + s.trace.length = k.pos + (s.sweepTimes go fires (n + 1)).trace.length) ∧
    ∀ rep, ∃ k', (s.selfTestRound rep).seq = .busy k' ∧ k'.rep = rep ∧
      k'.pos + s.trace.length = k.pos + (s.selfTestRound rep).trace.length
end

