-- ==== Sys2Proof/Laws/Image.lean ====
section
/-! SUPPORT. The image's byte store keeps its canonical form, a byte and a line read back what was written, and every
other one is left alone; then the same for the fields of lines the commands drive. -/

namespace Sys2Proof.Machine

/-! ## Bits -/

theorem bit_eq_testBit (x i : Nat) : bit x i = x.testBit i := by
  simp only [bit, Nat.testBit, Nat.and_comm (x >>> i) 1, Nat.one_and_eq_mod_two]
  rcases Nat.mod_two_eq_zero_or_one (x >>> i) with h | h <;> simp [h]

theorem wordBit_eq (w : Word) (i : Nat) : wordBit w i = w.getLsbD i := bit_eq_testBit _ _

theorem setBit8_get (x : Byte) (i j : Nat) (b : Bool) (hj : j < 8) :
    (setBit8 x i b).getLsbD j = if j = i then b else x.getLsbD j := by
  unfold setBit8 bit8
  by_cases h : j = i
  · subst h; cases b <;> simp [hj]
  · have : ¬ (j < i) → ¬ j - i = 0 := by omega
    cases b <;> by_cases hlt : j < i <;> simp_all

/-! ## Bytes -/

theorem Memory.read_erase (mem : Memory) (a x : Nat) :
    (mem.erase a).read x = if x = a then unlisted else mem.read x := by
  induction mem with
  | nil => simp [Memory.erase, Memory.read]
  | cons cell rest ih =>
    obtain ⟨a', b⟩ := cell
    simp only [Memory.erase, List.filter_cons] at ih ⊢
    by_cases h : a' = a
    · by_cases hx : x = a <;> simp_all [Memory.read]
      intro h; exact absurd h.symm hx
    · by_cases hx : a' = x
      · subst hx; simp [h, Memory.read]
      · simp [h, Memory.read, hx, ih]

theorem Memory.read_insertCell (mem : Memory) (a x : Nat) (b : Byte) (h : ∀ cell ∈ mem, cell.1 ≠ a) :
    (mem.insertCell a b).read x = if x = a then b else mem.read x := by
  induction mem with
  | nil => simp [Memory.insertCell, Memory.read, eq_comm (a := a)]
  | cons cell rest ih =>
    obtain ⟨a', b'⟩ := cell
    have ha : a' ≠ a := h (a', b') (by simp)
    have ih := ih fun cell hc => h cell (by simp [hc])
    unfold Memory.insertCell
    split
    · simp [Memory.read, eq_comm (a := a)]
    · by_cases hx : a' = x
      · subst hx; simp [Memory.read, ha]
      · simp [Memory.read, hx, ih]

theorem Memory.not_mem_erase (mem : Memory) (a : Nat) : ∀ cell ∈ mem.erase a, cell.1 ≠ a := by
  simp [Memory.erase]

/-- A byte reads back what was written, and every other byte is left alone. -/
theorem Memory.read_write (mem : Memory) (a x : Nat) (b : Byte) :
    (mem.write a b).read x = if x = a then b else mem.read x := by
  unfold Memory.write
  split
  · next h => rw [Memory.read_erase]; simp [h]
  · rw [Memory.read_insertCell _ _ _ _ (Memory.not_mem_erase mem a), Memory.read_erase]
    split <;> rfl

/-! ## The canonical form -/

theorem Memory.wf_iff (mem : Memory) :
    mem.wf = true ↔ mem.Pairwise (fun x y => x.1 < y.1) ∧ ∀ cell ∈ mem, cell.2 ≠ unlisted := by
  simp [Memory.wf]

@[simp] theorem Memory.wf_zeroImage : zeroImage.wf = true := rfl

@[simp] theorem Memory.line_zeroImage (L : Nat) : zeroImage.line L = false := by
  simp [Memory.line, zeroImage, Memory.read, unlisted]

theorem Memory.wf_erase (mem : Memory) (a : Nat) (h : mem.wf = true) : (mem.erase a).wf = true := by
  rw [Memory.wf_iff] at h ⊢
  exact ⟨h.1.filter _, fun cell hc => h.2 cell (List.mem_filter.1 hc).1⟩

theorem Memory.mem_insertCell (mem : Memory) (a : Nat) (b : Byte) (cell : Host.Cell) :
    cell ∈ mem.insertCell a b ↔ cell = (a, b) ∨ cell ∈ mem := by
  induction mem with
  | nil => simp [Memory.insertCell]
  | cons c rest ih =>
    unfold Memory.insertCell
    split
    · simp
    · simp only [List.mem_cons, ih]; tauto

theorem Memory.wf_insertCell (mem : Memory) (a : Nat) (b : Byte) (h : mem.wf = true) (hb : b ≠ unlisted)
    (ha : ∀ cell ∈ mem, cell.1 ≠ a) : (mem.insertCell a b).wf = true := by
  rw [Memory.wf_iff] at h ⊢
  refine ⟨?_, fun cell hc => ?_⟩
  · obtain ⟨hp, -⟩ := h
    induction mem with
    | nil => simp [Memory.insertCell]
    | cons c rest ih =>
      have hc : c.1 ≠ a := ha c (by simp)
      rw [List.pairwise_cons] at hp
      unfold Memory.insertCell
      split
      · next hlt =>
        refine List.pairwise_cons.2 ⟨fun y hy => ?_, List.pairwise_cons.2 hp⟩
        rcases List.mem_cons.1 hy with rfl | hy
        · exact hlt
        · exact lt_trans hlt (hp.1 y hy)
      · next hlt =>
        refine List.pairwise_cons.2 ⟨fun y hy => ?_, ih (fun x hx => ha x (by simp [hx])) hp.2⟩
        rcases (Memory.mem_insertCell _ _ _ _).1 hy with rfl | hy
        · simp only at hlt hc ⊢; omega
        · exact hp.1 y hy
  · rcases (Memory.mem_insertCell _ _ _ _).1 hc with rfl | hc
    · exact hb
    · exact h.2 cell hc

/-- Writing a byte keeps the canonical form. -/
theorem Memory.wf_write (mem : Memory) (a : Nat) (b : Byte) (h : mem.wf = true) : (mem.write a b).wf = true := by
  unfold Memory.write
  split
  · exact Memory.wf_erase mem a h
  · next hb => exact Memory.wf_insertCell _ _ _ (Memory.wf_erase mem a h) hb (Memory.not_mem_erase mem a)

theorem Memory.read_of_lt_all (mem : Memory) (a : Nat) (h : ∀ cell ∈ mem, a < cell.1) : mem.read a = unlisted := by
  induction mem with
  | nil => rfl
  | cons c rest ih =>
    have hc := h c (by simp)
    have hne : ¬ c.1 = a := by omega
    simp [Memory.read, hne, ih fun x hx => h x (by simp [hx])]

/-- Equal contents are equal data: two canonical stores that read the same everywhere are the same list. -/
theorem Memory.ext_of_wf (x y : Memory) (hx : x.wf = true) (hy : y.wf = true) (h : ∀ a, x.read a = y.read a) :
    x = y := by
  rw [Memory.wf_iff] at hx hy
  induction x generalizing y with
  | nil =>
    cases y with
    | nil => rfl
    | cons d ys =>
      have := h d.1
      simp only [Memory.read, if_true] at this
      exact absurd this.symm (hy.2 d (by simp))
  | cons c xs ih =>
    cases y with
    | nil =>
      have := h c.1
      simp only [Memory.read, if_true] at this
      exact absurd this (hx.2 c (by simp))
    | cons d ys =>
      have hc := hx.2 c (by simp)
      have hd := hy.2 d (by simp)
      have hxp := List.pairwise_cons.1 hx.1
      have hyp := List.pairwise_cons.1 hy.1
      have hcd : c.1 = d.1 := by
        rcases lt_trichotomy c.1 d.1 with hlt | heq | hlt
        · have h1 := h c.1
          rw [Memory.read_of_lt_all (d :: ys)] at h1
          · simp only [Memory.read, if_true] at h1; exact absurd h1 hc
          · intro z hz
            rcases List.mem_cons.1 hz with rfl | hz
            · exact hlt
            · exact lt_trans hlt (hyp.1 z hz)
        · exact heq
        · have h1 := h d.1
          rw [Memory.read_of_lt_all (c :: xs)] at h1
          · simp only [Memory.read, if_true] at h1; exact absurd h1.symm hd
          · intro z hz
            rcases List.mem_cons.1 hz with rfl | hz
            · exact hlt
            · exact lt_trans hlt (hxp.1 z hz)
      have hb : c.2 = d.2 := by
        have h1 := h c.1
        simpa [Memory.read, hcd] using h1
      have hcell : c = d := Prod.ext hcd hb
      subst hcell
      rw [ih ys ⟨hxp.2, fun z hz => hx.2 z (by simp [hz])⟩
        ⟨hyp.2, fun z hz => hy.2 z (by simp [hz])⟩ (fun a => ?_)]
      by_cases ha : c.1 = a
      · subst ha
        rw [Memory.read_of_lt_all xs c.1 hxp.1, Memory.read_of_lt_all ys c.1 hyp.1]
      · have h1 := h a
        simpa [Memory.read, ha] using h1

/-! ## Lines -/

/-- A line reads back what was driven, and every other line is left alone (R71). -/
theorem Memory.line_setLine (mem : Memory) (L K : Nat) (b : Bool) :
    (mem.setLine L b).line K = if K = L then b else mem.line K := by
  unfold Memory.setLine Memory.line
  rw [Memory.read_write]
  by_cases h8 : K / 8 = L / 8
  · rw [if_pos h8, setBit8_get _ _ _ _ (by omega), h8]
    have : K % 8 = L % 8 ↔ K = L := by omega
    simp [this]
  · have : K ≠ L := by rintro rfl; exact h8 rfl
    simp [h8, this]

theorem Memory.wf_setLine (mem : Memory) (L : Nat) (b : Bool) (h : mem.wf = true) : (mem.setLine L b).wf = true :=
  Memory.wf_write _ _ _ h

/-- Only a line below NL can be driven (R35). -/
theorem line_putLine (c : Config) (mem : Memory) (L K : Nat) (b : Bool) :
    (putLine c L b mem).line K = if K = L ∧ L < c.nl then b else mem.line K := by
  unfold putLine
  by_cases h : L < c.nl <;> simp [h, Memory.line_setLine]

theorem wf_putLine (c : Config) (mem : Memory) (L : Nat) (b : Bool) (h : mem.wf = true) :
    (putLine c L b mem).wf = true := by
  unfold putLine; split
  · exact Memory.wf_setLine _ _ _ h
  · exact h

/-! ## Fields of lines -/

theorem driveField_succ (c : Config) (f : Nat → Nat) (n v : Nat) (mem : Memory) :
    driveField c f (n + 1) v mem = putLine c (f n) (bit v n) (driveField c f n v mem) := by
  simp [driveField, List.range_succ]

theorem clearLines_succ (c : Config) (f : Nat → Nat) (n : Nat) (mem : Memory) :
    clearLines c f (n + 1) mem = putLine c (f n) false (clearLines c f n mem) := by
  simp [clearLines, List.range_succ]

theorem wf_driveField (c : Config) (f : Nat → Nat) (n v : Nat) (mem : Memory) (h : mem.wf = true) :
    (driveField c f n v mem).wf = true := by
  induction n with
  | zero => exact h
  | succ n ih => rw [driveField_succ]; exact wf_putLine _ _ _ _ ih

theorem wf_clearLines (c : Config) (f : Nat → Nat) (n : Nat) (mem : Memory) (h : mem.wf = true) :
    (clearLines c f n mem).wf = true := by
  induction n with
  | zero => exact h
  | succ n ih => rw [clearLines_succ]; exact wf_putLine _ _ _ _ ih

/-- A driven field leaves every line that is none of its own alone. -/
theorem line_driveField_of_ne (c : Config) (f : Nat → Nat) (n v K : Nat) (mem : Memory) (h : ∀ j < n, K ≠ f j) :
    (driveField c f n v mem).line K = mem.line K := by
  induction n with
  | zero => rfl
  | succ n ih =>
    rw [driveField_succ, line_putLine, ih fun j hj => h j (by omega)]
    simp [h n (by omega)]

/-- A driven field of distinct lines below NL holds the value's bits, the 0 bits too. -/
theorem line_driveField (c : Config) (f : Nat → Nat) (n v j : Nat) (mem : Memory) (hj : j < n)
    (hnl : ∀ i < n, f i < c.nl) (hinj : ∀ i < n, ∀ k < n, f i = f k → i = k) :
    (driveField c f n v mem).line (f j) = v.testBit j := by
  induction n with
  | zero => omega
  | succ n ih =>
    rw [driveField_succ, line_putLine]
    by_cases h : j = n
    · subst h; simp [hnl j (by omega), bit_eq_testBit]
    · have hne : f j ≠ f n := fun e => h (hinj j (by omega) n (by omega) e)
      rw [if_neg (by simp [hne]), ih (by omega) (fun i hi => hnl i (by omega))
        (fun i hi k hk => hinj i (by omega) k (by omega))]

theorem line_clearLines (c : Config) (f : Nat → Nat) (n K : Nat) (mem : Memory) (hnl : ∀ i < n, f i < c.nl) :
    (clearLines c f n mem).line K = if ∃ j < n, K = f j then false else mem.line K := by
  induction n with
  | zero => simp [clearLines]
  | succ n ih =>
    rw [clearLines_succ, line_putLine, ih fun i hi => hnl i (by omega)]
    by_cases h : K = f n
    · simp only [h, hnl n (by omega), and_self, if_true]
      rw [if_pos ⟨n, by omega, rfl⟩]
    · have : (∃ j < n + 1, K = f j) ↔ ∃ j < n, K = f j := by
        constructor
        · rintro ⟨j, hj, e⟩
          exact ⟨j, by rcases Nat.lt_succ_iff_lt_or_eq.1 hj with h' | h'
                       · exact h'
                       · exact absurd (h' ▸ e) h, e⟩
        · rintro ⟨j, hj, e⟩; exact ⟨j, by omega, e⟩
      rw [if_neg (by simp [h])]
      simp only [this]

/-- Padding lines are never driven (R35). -/
theorem padding_putLine (c : Config) (mem : Memory) (L K : Nat) (b : Bool) (hK : c.nl ≤ K) :
    (putLine c L b mem).line K = mem.line K := by
  rw [line_putLine, if_neg]; rintro ⟨rfl, h⟩; omega

theorem padding_driveField (c : Config) (f : Nat → Nat) (n v K : Nat) (mem : Memory) (hK : c.nl ≤ K) :
    (driveField c f n v mem).line K = mem.line K := by
  induction n with
  | zero => rfl
  | succ n ih => rw [driveField_succ, padding_putLine _ _ _ _ _ hK, ih]

theorem padding_clearLines (c : Config) (f : Nat → Nat) (n K : Nat) (mem : Memory) (hK : c.nl ≤ K) :
    (clearLines c f n mem).line K = mem.line K := by
  induction n with
  | zero => rfl
  | succ n ih => rw [clearLines_succ, padding_putLine _ _ _ _ _ hK, ih]

/-! ## Assembled images -/

theorem wf_assembleImage (c : Config) (d : Dot) (b : Bool) (ind : BitVec 3) : (assembleImage c d b ind).wf = true := by
  unfold assembleImage
  exact wf_driveField _ _ _ _ _ (wf_putLine _ _ _ _ (wf_driveField _ _ _ _ _ (wf_driveField _ _ _ _ _
    (wf_putLine _ _ _ _ Memory.wf_zeroImage))))

theorem padding_assembleImage (c : Config) (d : Dot) (b : Bool) (ind : BitVec 3) (K : Nat) (hK : c.nl ≤ K) :
    (assembleImage c d b ind).line K = false := by
  unfold assembleImage
  simp only [padding_driveField _ _ _ _ _ _ hK, padding_putLine _ _ _ _ _ hK, Memory.line_zeroImage]

theorem putLine_zeroImage (c : Config) (L : Nat) : putLine c L false zeroImage = zeroImage := by
  unfold putLine; split
  · simp [Memory.setLine, setBit8, zeroImage, Memory.write, Memory.read, unlisted, Memory.erase]
  · rfl

theorem bit_zero (i : Nat) : bit 0 i = false := by simp [bit_eq_testBit]

/-- The last image the self-test shows is 0 in every line (44_system.md R272). -/
theorem indicatorImage_zero (c : Config) : indicatorImage c 0#3 = zeroImage := by
  simp [indicatorImage, driveField, List.range_succ, bit_zero, putLine_zeroImage]

theorem wf_indicatorImage (c : Config) (ind : BitVec 3) : (indicatorImage c ind).wf = true :=
  wf_driveField _ _ _ _ _ Memory.wf_zeroImage

/-- The lines at 1 after a line is driven. -/
theorem line_putLine_iff (c : Config) (L K : Nat) (b : Bool) (mem : Memory) (h : L < c.nl) :
    (putLine c L b mem).line K = true ↔ (K = L ∧ b = true) ∨ (K ≠ L ∧ mem.line K = true) := by
  rw [line_putLine]; by_cases hk : K = L <;> simp [hk, h]

/-- The lines at 1 after a field is driven: those of its 1 bits, and the others as before. -/
theorem line_driveField_iff (c : Config) (f : Nat → Nat) (n v K : Nat) (mem : Memory)
    (hnl : ∀ i < n, f i < c.nl) (hinj : ∀ i < n, ∀ k < n, f i = f k → i = k) :
    (driveField c f n v mem).line K = true ↔
      (∃ j, j < n ∧ K = f j ∧ v.testBit j = true) ∨ ((∀ j < n, K ≠ f j) ∧ mem.line K = true) := by
  by_cases h : ∃ j, j < n ∧ K = f j
  · obtain ⟨j, hj, rfl⟩ := h
    rw [line_driveField _ _ _ _ _ _ hj hnl hinj]
    refine ⟨fun h => .inl ⟨j, hj, rfl, h⟩, ?_⟩
    rintro (⟨i, hi, e, h⟩ | ⟨h, -⟩)
    · rw [hinj _ hj _ hi e]; exact h
    · exact absurd rfl (h j hj)
  · have h' : ∀ j < n, K ≠ f j := fun j hj e => h ⟨j, hj, e⟩
    rw [line_driveField_of_ne _ _ _ _ _ _ h']
    refine ⟨fun h => .inr ⟨h', h⟩, ?_⟩
    rintro (⟨i, hi, e, -⟩ | ⟨-, h⟩)
    · exact absurd e (h' i hi)
    · exact h

/-- A sum of bits at their places is below 2^n and has those bits. -/
theorem sum_bits (f : Nat → Bool) (n : Nat) :
    ((List.range n).map fun b => (f b).toNat <<< b).sum < 2 ^ n ∧
    ∀ j, (((List.range n).map fun b => (f b).toNat <<< b).sum).testBit j = (decide (j < n) && f j) := by
  induction n with
  | zero => simp
  | succ n ih =>
    obtain ⟨h1, h2⟩ := ih
    have e : ((List.range (n + 1)).map fun b => (f b).toNat <<< b).sum =
        2 ^ n * (f n).toNat + ((List.range n).map fun b => (f b).toNat <<< b).sum := by
      simp [List.range_succ, Nat.shiftLeft_eq]; ring
    rw [e]
    refine ⟨by rw [pow_succ]; cases f n <;> simp <;> omega, fun j => ?_⟩
    rw [Nat.testBit_two_pow_mul_add _ h1, h2]
    by_cases hj : j < n
    · simp [hj]; intro _; omega
    · by_cases hn : j = n
      · subst hn; cases f j <;> simp
      · obtain ⟨k, hk⟩ : ∃ k, j - n = k + 1 := ⟨j - n - 1, by omega⟩
        have : ¬ j < n + 1 := by omega
        simp only [hj, if_false, this, decide_false, Bool.false_and, hk]
        cases f n <;> simp [Nat.testBit_succ]

/-- The field read from the image has the image's lines as its bits. -/
theorem readField_bits (img : Memory) (f : Nat → Nat) (n : Nat) :
    readField img f n < 2 ^ n ∧ ∀ j, (readField img f n).testBit j = (decide (j < n) && img.line (f j)) :=
  sum_bits (fun j => img.line (f j)) n

end Sys2Proof.Machine
end

