-- ==== Sys2Proof/Laws/Trace.lean ====
section
/-! SUPPORT. The pin levels after a trace, and the parts of one transmission. -/

namespace Sys2Proof.Machine

theorem Pins.afterAll_append (p : Pins) (x y : Trace) : p.afterAll (x ++ y) = (p.afterAll x).afterAll y := by
  simp [Pins.afterAll]

@[simp] theorem Pins.afterAll_nil (p : Pins) : p.afterAll [] = p := rfl

@[simp] theorem Pins.afterAll_cons (p : Pins) (e : PinEvent) (x : Trace) :
    p.afterAll (e :: x) = (p.after e).afterAll x := rfl

@[simp] theorem Pins.after_pin (p : Pins) (q : Pin) (v : Bool) : p.after (.pin q v) = p.drive q v := rfl

@[simp] theorem Pins.after_hold (p : Pins) (t : Rat) : p.after (.hold t) = p := rfl

@[simp] theorem Pins.after_rst (p : Pins) : p.after .rst = Pins.reset := rfl

/-- Shifting n lines leaves CLK low and DATA at line 0. -/
theorem Pins.afterAll_shiftLines (c : Config) (img : Memory) (n : Nat) (p : Pins) (h : p.clk = false) :
    p.afterAll (shiftLines c img n) = { p with data := if n = 0 then p.data else img.line 0 } := by
  induction n generalizing p with
  | zero => rfl
  | succ n ih =>
    simp only [shiftLines, Pins.afterAll_append]
    rw [ih _ (by rfl)]
    cases p; simp only at h; subst h
    by_cases hn : n = 0
    · subst hn; rfl
    · simp [hn, shiftLine, Pins.drive]

/-- The levels after one transmission: CLK, LATCH and EN low, CLR high, DATA at line 0 (42_serial_transmit.md R201). -/
theorem Pins.afterAll_txTrace (c : Config) (img : Memory) (b : Bool) (p : Pins) :
    p.afterAll (txTrace c img b) =
      { clk := false, data := if c.nl = 0 then p.data else img.line 0, latch := false, clr := true,
        en := if b then false else p.en } := by
  simp only [txTrace, Pins.afterAll_cons, Pins.afterAll_append]
  rw [Pins.afterAll_shiftLines _ _ _ _ (by rfl)]
  cases b <;> rfl

theorem Pins.afterAll_showTrace (c : Config) (ind : BitVec 3) (p : Pins) :
    p.afterAll (showTrace c ind) =
      { clk := false, data := if c.nl = 0 then p.data else (indicatorImage c ind).line 0, latch := false, clr := true,
        en := p.en } := by
  rw [showTrace, Pins.afterAll_append, Pins.afterAll_txTrace]; rfl

/-- The self-test ends at the levels Z1 of 95_test_vectors.md gives when it starts from the reset levels. -/
theorem Pins.afterAll_selfTest (c : Config) : Pins.reset.afterAll (selfTestTrace c) = Pins.reset := by
  simp [selfTestTrace, List.replicate_succ, Pins.afterAll_append, Pins.afterAll_showTrace, indicatorImage_zero,
    Pins.reset]
  intro h; simp [h]

theorem shiftLines_eq (c : Config) (img : Memory) (n : Nat) :
    shiftLines c img n = (List.range n).reverse.flatMap fun L => shiftLine c (img.line L) := by
  induction n with
  | zero => rfl
  | succ n ih => rw [shiftLines, ih, List.range_succ]; simp

/-- A pulsed transmission is the unpulsed one and the energize pulse (R206). -/
theorem txTrace_pulsed (c : Config) (img : Memory) : txTrace c img true = txTrace c img false ++ energizePulse c := by
  simp [txTrace]

theorem minTime_append (x y : Trace) : minTime (x ++ y) = minTime x + minTime y := by
  induction x with
  | nil => simp [minTime]
  | cons e x ih => cases e <;> simp [minTime, ih, add_assoc]

theorem enable_not_mem_txTrace (c : Config) (img : Memory) : PinEvent.pin .en true ∉ txTrace c img false := by
  have h : ∀ n, PinEvent.pin .en true ∉ shiftLines c img n := by
    intro n
    induction n with
    | zero => simp [shiftLines]
    | succ n ih => simp [shiftLines, ih, shiftLine]
  simp [txTrace, clearPulse, latchPulse, h]

theorem Pins.drive_level (p : Pins) (q : Pin) (v : Bool) (h : p.level q = v) : p.drive q v = p := by
  subst h; cases q <;> rfl

theorem Pins.drive_ne (p : Pins) (q : Pin) (v : Bool) (h : p.level q ≠ v) : p.drive q v ≠ p := by
  intro e; apply h; rw [← e]; cases q <;> rfl

/-- An entry that keeps the levels stays in the dwell in force, whose hold becomes the longer of its own and the entry's. -/
theorem dwellsFrom_keep (d : Dwell) (e : PinEvent) (h : d.levels.after e = d.levels) :
    ∃ t, d.hold ≤ t ∧ (∀ u, e = .hold u → u ≤ t) ∧ (t = d.hold ∨ e = .hold t) ∧
      ∀ y, dwellsFrom d (e :: y) = dwellsFrom ⟨d.levels, t⟩ y := by
  cases e with
  | pin q v =>
    have hq : d.levels.level q = v := by by_contra hn; exact Pins.drive_ne _ _ _ hn h
    exact ⟨d.hold, le_rfl, by simp, .inl rfl, by simp [dwellsFrom, hq]⟩
  | hold t =>
    refine ⟨if d.hold ≤ t then t else d.hold, ?_, ?_, ?_, fun _ => rfl⟩
    · split <;> linarith
    · rintro _ ⟨⟩; split <;> linarith
    · split <;> simp
  | rst =>
    have hr : d.levels = Pins.reset := h.symm
    exact ⟨d.hold, le_rfl, by simp, .inl rfl, fun y => by cases d; simp_all [dwellsFrom]⟩

/-- An entry that changes the levels ends the dwell in force and begins one with no hold. -/
theorem dwellsFrom_change (d : Dwell) (e : PinEvent) (y : Trace) (h : d.levels.after e ≠ d.levels) :
    dwellsFrom d (e :: y) = d :: dwellsFrom ⟨d.levels.after e, 0⟩ y := by
  cases e with
  | pin q v =>
    have hq : d.levels.level q ≠ v := fun hn => h (Pins.drive_level _ _ _ hn)
    simp [dwellsFrom, hq]
  | hold t => simp at h
  | rst =>
    have hr : d.levels ≠ Pins.reset := fun e => h e.symm
    simp [dwellsFrom, hr]

end Sys2Proof.Machine
end

