-- ==== Sys2Proof/Laws/State.lean ====
section
/-! SUPPORT. What each shared update of the state does to each field, mostly by rfl; what TX does, with the line index; and when READY is 1. -/

namespace Sys2Proof.Machine

variable (s : State)

/-! ## accept -/

@[simp] theorem State.accept_cfg (cmd wdata : Word) (rest : List Input) : (s.accept cmd wdata rest).cfg = s.cfg := rfl
@[simp] theorem State.accept_cur (cmd wdata : Word) (rest : List Input) : (s.accept cmd wdata rest).cur = s.cur := rfl
@[simp] theorem State.accept_des (cmd wdata : Word) (rest : List Input) : (s.accept cmd wdata rest).des = s.des := rfl
@[simp] theorem State.accept_img (cmd wdata : Word) (rest : List Input) : (s.accept cmd wdata rest).img = s.img := rfl
@[simp] theorem State.accept_ind (cmd wdata : Word) (rest : List Input) : (s.accept cmd wdata rest).ind = s.ind := rfl
@[simp] theorem State.accept_faulted (cmd wdata : Word) (rest : List Input) : (s.accept cmd wdata rest).faulted = s.faulted := rfl
@[simp] theorem State.accept_faultCode (cmd wdata : Word) (rest : List Input) : (s.accept cmd wdata rest).faultCode = s.faultCode := rfl
@[simp] theorem State.accept_cmd (cmd wdata : Word) (rest : List Input) : (s.accept cmd wdata rest).cmd = cmd := rfl
@[simp] theorem State.accept_wdata (cmd wdata : Word) (rest : List Input) : (s.accept cmd wdata rest).wdata = wdata := rfl
@[simp] theorem State.accept_status (cmd wdata : Word) (rest : List Input) : (s.accept cmd wdata rest).status = s.status := rfl
@[simp] theorem State.accept_rdata (cmd wdata : Word) (rest : List Input) : (s.accept cmd wdata rest).rdata = s.rdata := rfl
@[simp] theorem State.accept_pins (cmd wdata : Word) (rest : List Input) : (s.accept cmd wdata rest).pins = s.pins := rfl
@[simp] theorem State.accept_seq (cmd wdata : Word) (rest : List Input) : (s.accept cmd wdata rest).seq = Sequencer.start := rfl
@[simp] theorem State.accept_trace (cmd wdata : Word) (rest : List Input) : (s.accept cmd wdata rest).trace = s.trace := rfl
@[simp] theorem State.accept_inputs (cmd wdata : Word) (rest : List Input) : (s.accept cmd wdata rest).inputs = rest := rfl

/-! ## respond -/

@[simp] theorem State.respond_cfg (st : BitVec 3) (v : Word) : (s.respond st v).cfg = s.cfg := rfl
@[simp] theorem State.respond_cur (st : BitVec 3) (v : Word) : (s.respond st v).cur = s.cur := rfl
@[simp] theorem State.respond_des (st : BitVec 3) (v : Word) : (s.respond st v).des = s.des := rfl
@[simp] theorem State.respond_img (st : BitVec 3) (v : Word) : (s.respond st v).img = s.img := rfl
@[simp] theorem State.respond_ind (st : BitVec 3) (v : Word) : (s.respond st v).ind = s.ind := rfl
@[simp] theorem State.respond_faulted (st : BitVec 3) (v : Word) : (s.respond st v).faulted = s.faulted := rfl
@[simp] theorem State.respond_faultCode (st : BitVec 3) (v : Word) : (s.respond st v).faultCode = s.faultCode := rfl
@[simp] theorem State.respond_cmd (st : BitVec 3) (v : Word) : (s.respond st v).cmd = s.cmd := rfl
@[simp] theorem State.respond_wdata (st : BitVec 3) (v : Word) : (s.respond st v).wdata = s.wdata := rfl
@[simp] theorem State.respond_status (st : BitVec 3) (v : Word) : (s.respond st v).status = st := rfl
@[simp] theorem State.respond_rdata (st : BitVec 3) (v : Word) : (s.respond st v).rdata = v := rfl
@[simp] theorem State.respond_pins (st : BitVec 3) (v : Word) : (s.respond st v).pins = s.pins := rfl
@[simp] theorem State.respond_seq (st : BitVec 3) (v : Word) : (s.respond st v).seq = Sequencer.idle := rfl
@[simp] theorem State.respond_trace (st : BitVec 3) (v : Word) : (s.respond st v).trace = s.trace := rfl
@[simp] theorem State.respond_inputs (st : BitVec 3) (v : Word) : (s.respond st v).inputs = s.inputs := rfl

/-! ## enterFault -/

@[simp] theorem State.enterFault_cfg (e : BitVec 3) : (s.enterFault e).cfg = s.cfg := rfl
@[simp] theorem State.enterFault_cur (e : BitVec 3) : (s.enterFault e).cur = s.cur := rfl
@[simp] theorem State.enterFault_des (e : BitVec 3) : (s.enterFault e).des = s.des := rfl
@[simp] theorem State.enterFault_img (e : BitVec 3) : (s.enterFault e).img = s.img := rfl
@[simp] theorem State.enterFault_ind (e : BitVec 3) : (s.enterFault e).ind = s.ind := rfl
@[simp] theorem State.enterFault_faulted (e : BitVec 3) : (s.enterFault e).faulted = true := rfl
@[simp] theorem State.enterFault_faultCode (e : BitVec 3) : (s.enterFault e).faultCode = e := rfl
@[simp] theorem State.enterFault_cmd (e : BitVec 3) : (s.enterFault e).cmd = s.cmd := rfl
@[simp] theorem State.enterFault_wdata (e : BitVec 3) : (s.enterFault e).wdata = s.wdata := rfl
@[simp] theorem State.enterFault_status (e : BitVec 3) : (s.enterFault e).status = s.status := rfl
@[simp] theorem State.enterFault_rdata (e : BitVec 3) : (s.enterFault e).rdata = s.rdata := rfl
@[simp] theorem State.enterFault_pins (e : BitVec 3) : (s.enterFault e).pins = s.pins := rfl
@[simp] theorem State.enterFault_seq (e : BitVec 3) : (s.enterFault e).seq = s.seq := rfl
@[simp] theorem State.enterFault_trace (e : BitVec 3) : (s.enterFault e).trace = s.trace := rfl
@[simp] theorem State.enterFault_inputs (e : BitVec 3) : (s.enterFault e).inputs = s.inputs := rfl

/-! ## raiseFault -/

@[simp] theorem State.raiseFault_cfg (e : BitVec 3) : (s.raiseFault e).cfg = s.cfg := rfl
@[simp] theorem State.raiseFault_cur (e : BitVec 3) : (s.raiseFault e).cur = s.cur := rfl
@[simp] theorem State.raiseFault_des (e : BitVec 3) : (s.raiseFault e).des = s.des := rfl
@[simp] theorem State.raiseFault_img (e : BitVec 3) : (s.raiseFault e).img = s.img := rfl
@[simp] theorem State.raiseFault_ind (e : BitVec 3) : (s.raiseFault e).ind = s.ind := rfl
@[simp] theorem State.raiseFault_faulted (e : BitVec 3) : (s.raiseFault e).faulted = true := rfl
@[simp] theorem State.raiseFault_faultCode (e : BitVec 3) : (s.raiseFault e).faultCode = e := rfl
@[simp] theorem State.raiseFault_cmd (e : BitVec 3) : (s.raiseFault e).cmd = s.cmd := rfl
@[simp] theorem State.raiseFault_wdata (e : BitVec 3) : (s.raiseFault e).wdata = s.wdata := rfl
@[simp] theorem State.raiseFault_status (e : BitVec 3) : (s.raiseFault e).status = e := rfl
@[simp] theorem State.raiseFault_rdata (e : BitVec 3) : (s.raiseFault e).rdata = 0#32 := rfl
@[simp] theorem State.raiseFault_pins (e : BitVec 3) : (s.raiseFault e).pins = s.pins := rfl
@[simp] theorem State.raiseFault_seq (e : BitVec 3) : (s.raiseFault e).seq = Sequencer.idle := rfl
@[simp] theorem State.raiseFault_trace (e : BitVec 3) : (s.raiseFault e).trace = s.trace := rfl
@[simp] theorem State.raiseFault_inputs (e : BitVec 3) : (s.raiseFault e).inputs = s.inputs := rfl

/-! ## refuse -/

@[simp] theorem State.refuse_cfg : (s.refuse).cfg = s.cfg := rfl
@[simp] theorem State.refuse_cur : (s.refuse).cur = s.cur := rfl
@[simp] theorem State.refuse_des : (s.refuse).des = s.des := rfl
@[simp] theorem State.refuse_img : (s.refuse).img = s.img := rfl
@[simp] theorem State.refuse_ind : (s.refuse).ind = s.ind := rfl
@[simp] theorem State.refuse_faulted : (s.refuse).faulted = s.faulted := rfl
@[simp] theorem State.refuse_faultCode : (s.refuse).faultCode = s.faultCode := rfl
@[simp] theorem State.refuse_cmd : (s.refuse).cmd = s.cmd := rfl
@[simp] theorem State.refuse_wdata : (s.refuse).wdata = s.wdata := rfl
@[simp] theorem State.refuse_status : (s.refuse).status = stFaulted := rfl
@[simp] theorem State.refuse_rdata : (s.refuse).rdata = s.faultCode.setWidth 32 := rfl
@[simp] theorem State.refuse_pins : (s.refuse).pins = s.pins := rfl
@[simp] theorem State.refuse_seq : (s.refuse).seq = Sequencer.idle := rfl
@[simp] theorem State.refuse_trace : (s.refuse).trace = s.trace := rfl
@[simp] theorem State.refuse_inputs : (s.refuse).inputs = s.inputs := rfl

/-! ## withImg -/

@[simp] theorem State.withImg_cfg (v : Memory) : (s.withImg v).cfg = s.cfg := rfl
@[simp] theorem State.withImg_cur (v : Memory) : (s.withImg v).cur = s.cur := rfl
@[simp] theorem State.withImg_des (v : Memory) : (s.withImg v).des = s.des := rfl
@[simp] theorem State.withImg_img (v : Memory) : (s.withImg v).img = v := rfl
@[simp] theorem State.withImg_ind (v : Memory) : (s.withImg v).ind = s.ind := rfl
@[simp] theorem State.withImg_faulted (v : Memory) : (s.withImg v).faulted = s.faulted := rfl
@[simp] theorem State.withImg_faultCode (v : Memory) : (s.withImg v).faultCode = s.faultCode := rfl
@[simp] theorem State.withImg_cmd (v : Memory) : (s.withImg v).cmd = s.cmd := rfl
@[simp] theorem State.withImg_wdata (v : Memory) : (s.withImg v).wdata = s.wdata := rfl
@[simp] theorem State.withImg_status (v : Memory) : (s.withImg v).status = s.status := rfl
@[simp] theorem State.withImg_rdata (v : Memory) : (s.withImg v).rdata = s.rdata := rfl
@[simp] theorem State.withImg_pins (v : Memory) : (s.withImg v).pins = s.pins := rfl
@[simp] theorem State.withImg_seq (v : Memory) : (s.withImg v).seq = s.seq := rfl
@[simp] theorem State.withImg_trace (v : Memory) : (s.withImg v).trace = s.trace := rfl
@[simp] theorem State.withImg_inputs (v : Memory) : (s.withImg v).inputs = s.inputs := rfl

/-! ## withInd -/

@[simp] theorem State.withInd_cfg (v : BitVec 3) : (s.withInd v).cfg = s.cfg := rfl
@[simp] theorem State.withInd_cur (v : BitVec 3) : (s.withInd v).cur = s.cur := rfl
@[simp] theorem State.withInd_des (v : BitVec 3) : (s.withInd v).des = s.des := rfl
@[simp] theorem State.withInd_img (v : BitVec 3) : (s.withInd v).img = s.img := rfl
@[simp] theorem State.withInd_ind (v : BitVec 3) : (s.withInd v).ind = v := rfl
@[simp] theorem State.withInd_faulted (v : BitVec 3) : (s.withInd v).faulted = s.faulted := rfl
@[simp] theorem State.withInd_faultCode (v : BitVec 3) : (s.withInd v).faultCode = s.faultCode := rfl
@[simp] theorem State.withInd_cmd (v : BitVec 3) : (s.withInd v).cmd = s.cmd := rfl
@[simp] theorem State.withInd_wdata (v : BitVec 3) : (s.withInd v).wdata = s.wdata := rfl
@[simp] theorem State.withInd_status (v : BitVec 3) : (s.withInd v).status = s.status := rfl
@[simp] theorem State.withInd_rdata (v : BitVec 3) : (s.withInd v).rdata = s.rdata := rfl
@[simp] theorem State.withInd_pins (v : BitVec 3) : (s.withInd v).pins = s.pins := rfl
@[simp] theorem State.withInd_seq (v : BitVec 3) : (s.withInd v).seq = s.seq := rfl
@[simp] theorem State.withInd_trace (v : BitVec 3) : (s.withInd v).trace = s.trace := rfl
@[simp] theorem State.withInd_inputs (v : BitVec 3) : (s.withInd v).inputs = s.inputs := rfl

/-! ## withCur -/

@[simp] theorem State.withCur_cfg (v : Snapshot) : (s.withCur v).cfg = s.cfg := rfl
@[simp] theorem State.withCur_cur (v : Snapshot) : (s.withCur v).cur = v := rfl
@[simp] theorem State.withCur_des (v : Snapshot) : (s.withCur v).des = s.des := rfl
@[simp] theorem State.withCur_img (v : Snapshot) : (s.withCur v).img = s.img := rfl
@[simp] theorem State.withCur_ind (v : Snapshot) : (s.withCur v).ind = s.ind := rfl
@[simp] theorem State.withCur_faulted (v : Snapshot) : (s.withCur v).faulted = s.faulted := rfl
@[simp] theorem State.withCur_faultCode (v : Snapshot) : (s.withCur v).faultCode = s.faultCode := rfl
@[simp] theorem State.withCur_cmd (v : Snapshot) : (s.withCur v).cmd = s.cmd := rfl
@[simp] theorem State.withCur_wdata (v : Snapshot) : (s.withCur v).wdata = s.wdata := rfl
@[simp] theorem State.withCur_status (v : Snapshot) : (s.withCur v).status = s.status := rfl
@[simp] theorem State.withCur_rdata (v : Snapshot) : (s.withCur v).rdata = s.rdata := rfl
@[simp] theorem State.withCur_pins (v : Snapshot) : (s.withCur v).pins = s.pins := rfl
@[simp] theorem State.withCur_seq (v : Snapshot) : (s.withCur v).seq = s.seq := rfl
@[simp] theorem State.withCur_trace (v : Snapshot) : (s.withCur v).trace = s.trace := rfl
@[simp] theorem State.withCur_inputs (v : Snapshot) : (s.withCur v).inputs = s.inputs := rfl

/-! ## withDes -/

@[simp] theorem State.withDes_cfg (v : Snapshot) : (s.withDes v).cfg = s.cfg := rfl
@[simp] theorem State.withDes_cur (v : Snapshot) : (s.withDes v).cur = s.cur := rfl
@[simp] theorem State.withDes_des (v : Snapshot) : (s.withDes v).des = v := rfl
@[simp] theorem State.withDes_img (v : Snapshot) : (s.withDes v).img = s.img := rfl
@[simp] theorem State.withDes_ind (v : Snapshot) : (s.withDes v).ind = s.ind := rfl
@[simp] theorem State.withDes_faulted (v : Snapshot) : (s.withDes v).faulted = s.faulted := rfl
@[simp] theorem State.withDes_faultCode (v : Snapshot) : (s.withDes v).faultCode = s.faultCode := rfl
@[simp] theorem State.withDes_cmd (v : Snapshot) : (s.withDes v).cmd = s.cmd := rfl
@[simp] theorem State.withDes_wdata (v : Snapshot) : (s.withDes v).wdata = s.wdata := rfl
@[simp] theorem State.withDes_status (v : Snapshot) : (s.withDes v).status = s.status := rfl
@[simp] theorem State.withDes_rdata (v : Snapshot) : (s.withDes v).rdata = s.rdata := rfl
@[simp] theorem State.withDes_pins (v : Snapshot) : (s.withDes v).pins = s.pins := rfl
@[simp] theorem State.withDes_seq (v : Snapshot) : (s.withDes v).seq = s.seq := rfl
@[simp] theorem State.withDes_trace (v : Snapshot) : (s.withDes v).trace = s.trace := rfl
@[simp] theorem State.withDes_inputs (v : Snapshot) : (s.withDes v).inputs = s.inputs := rfl

/-! ## withSeq -/

@[simp] theorem State.withSeq_cfg (v : Sequencer) : (s.withSeq v).cfg = s.cfg := rfl
@[simp] theorem State.withSeq_cur (v : Sequencer) : (s.withSeq v).cur = s.cur := rfl
@[simp] theorem State.withSeq_des (v : Sequencer) : (s.withSeq v).des = s.des := rfl
@[simp] theorem State.withSeq_img (v : Sequencer) : (s.withSeq v).img = s.img := rfl
@[simp] theorem State.withSeq_ind (v : Sequencer) : (s.withSeq v).ind = s.ind := rfl
@[simp] theorem State.withSeq_faulted (v : Sequencer) : (s.withSeq v).faulted = s.faulted := rfl
@[simp] theorem State.withSeq_faultCode (v : Sequencer) : (s.withSeq v).faultCode = s.faultCode := rfl
@[simp] theorem State.withSeq_cmd (v : Sequencer) : (s.withSeq v).cmd = s.cmd := rfl
@[simp] theorem State.withSeq_wdata (v : Sequencer) : (s.withSeq v).wdata = s.wdata := rfl
@[simp] theorem State.withSeq_status (v : Sequencer) : (s.withSeq v).status = s.status := rfl
@[simp] theorem State.withSeq_rdata (v : Sequencer) : (s.withSeq v).rdata = s.rdata := rfl
@[simp] theorem State.withSeq_pins (v : Sequencer) : (s.withSeq v).pins = s.pins := rfl
@[simp] theorem State.withSeq_seq (v : Sequencer) : (s.withSeq v).seq = v := rfl
@[simp] theorem State.withSeq_trace (v : Sequencer) : (s.withSeq v).trace = s.trace := rfl
@[simp] theorem State.withSeq_inputs (v : Sequencer) : (s.withSeq v).inputs = s.inputs := rfl

/-! ## moveSeq -/

@[simp] theorem State.moveSeq_cfg (f : Cursors → Cursors) : (s.moveSeq f).cfg = s.cfg := rfl
@[simp] theorem State.moveSeq_cur (f : Cursors → Cursors) : (s.moveSeq f).cur = s.cur := rfl
@[simp] theorem State.moveSeq_des (f : Cursors → Cursors) : (s.moveSeq f).des = s.des := rfl
@[simp] theorem State.moveSeq_img (f : Cursors → Cursors) : (s.moveSeq f).img = s.img := rfl
@[simp] theorem State.moveSeq_ind (f : Cursors → Cursors) : (s.moveSeq f).ind = s.ind := rfl
@[simp] theorem State.moveSeq_faulted (f : Cursors → Cursors) : (s.moveSeq f).faulted = s.faulted := rfl
@[simp] theorem State.moveSeq_faultCode (f : Cursors → Cursors) : (s.moveSeq f).faultCode = s.faultCode := rfl
@[simp] theorem State.moveSeq_cmd (f : Cursors → Cursors) : (s.moveSeq f).cmd = s.cmd := rfl
@[simp] theorem State.moveSeq_wdata (f : Cursors → Cursors) : (s.moveSeq f).wdata = s.wdata := rfl
@[simp] theorem State.moveSeq_status (f : Cursors → Cursors) : (s.moveSeq f).status = s.status := rfl
@[simp] theorem State.moveSeq_rdata (f : Cursors → Cursors) : (s.moveSeq f).rdata = s.rdata := rfl
@[simp] theorem State.moveSeq_pins (f : Cursors → Cursors) : (s.moveSeq f).pins = s.pins := rfl
@[simp] theorem State.moveSeq_trace (f : Cursors → Cursors) : (s.moveSeq f).trace = s.trace := rfl
@[simp] theorem State.moveSeq_inputs (f : Cursors → Cursors) : (s.moveSeq f).inputs = s.inputs := rfl
@[simp] theorem State.moveSeq_seq (f : Cursors → Cursors) : (s.moveSeq f).seq = s.seq.move f := rfl

/-! ## emit -/

@[simp] theorem State.emit_cfg (evs : Trace) : (s.emit evs).cfg = s.cfg := rfl
@[simp] theorem State.emit_cur (evs : Trace) : (s.emit evs).cur = s.cur := rfl
@[simp] theorem State.emit_des (evs : Trace) : (s.emit evs).des = s.des := rfl
@[simp] theorem State.emit_img (evs : Trace) : (s.emit evs).img = s.img := rfl
@[simp] theorem State.emit_ind (evs : Trace) : (s.emit evs).ind = s.ind := rfl
@[simp] theorem State.emit_faulted (evs : Trace) : (s.emit evs).faulted = s.faulted := rfl
@[simp] theorem State.emit_faultCode (evs : Trace) : (s.emit evs).faultCode = s.faultCode := rfl
@[simp] theorem State.emit_cmd (evs : Trace) : (s.emit evs).cmd = s.cmd := rfl
@[simp] theorem State.emit_wdata (evs : Trace) : (s.emit evs).wdata = s.wdata := rfl
@[simp] theorem State.emit_status (evs : Trace) : (s.emit evs).status = s.status := rfl
@[simp] theorem State.emit_rdata (evs : Trace) : (s.emit evs).rdata = s.rdata := rfl
@[simp] theorem State.emit_pins (evs : Trace) : (s.emit evs).pins = s.pins.afterAll evs := rfl
@[simp] theorem State.emit_trace (evs : Trace) : (s.emit evs).trace = s.trace ++ evs := rfl
@[simp] theorem State.emit_inputs (evs : Trace) : (s.emit evs).inputs = s.inputs := rfl
@[simp] theorem State.emit_seq (evs : Trace) :
    (s.emit evs).seq = s.seq.move fun k => { k with pos := k.pos + evs.length } := rfl

/-! ## shiftOut (42_serial_transmit.md R204) -/

/-- Shifting one line emits its events; the line index is its number. -/
theorem State.shiftOne_spec (L : Nat) :
    s.shiftOne L =
      (s.emit (shiftLine s.cfg (s.img.line L))).withSeq (s.seq.move fun k => { k with line := L, pos := k.pos + 4 }) := by
  cases h : s.seq <;> simp [State.shiftOne, State.emit, State.moveSeq, State.withSeq, Sequencer.move, shiftLine, h]

/-- Shifting lines n-1 down to 0 emits shiftLines; the sequencer ends at line 0 when there is a line. -/
theorem State.shiftOut_spec (n : Nat) :
    s.shiftOut n =
      (s.emit (shiftLines s.cfg s.img n)).withSeq
        (s.seq.move fun k => { k with line := if n = 0 then k.line else 0, pos := k.pos + 4 * n }) := by
  induction n generalizing s with
  | zero => cases h : s.seq <;> simp [State.shiftOut, shiftLines, State.emit, State.withSeq, Sequencer.move, ← h]
  | succ n ih =>
    rw [State.shiftOut, ih, State.shiftOne_spec]
    cases h : s.seq with
    | idle => simp [shiftLines, State.emit, State.withSeq, Sequencer.move, Pins.afterAll_append, h]
    | busy k => simp [shiftLines, State.emit, State.withSeq, Sequencer.move, Pins.afterAll_append, h]; omega

/-! ## tx -/

/-- TX emits txTrace, and writes nothing else but the sequencer: line 0 was shifted last (R201). -/
theorem State.tx_spec (p : Bool) :
    s.tx p =
      (s.emit (txTrace s.cfg s.img p)).withSeq (s.seq.move fun k =>
        { k with line := if s.cfg.nl = 0 then k.line else 0, pos := k.pos + (txTrace s.cfg s.img p).length }) := by
  have hl : ∀ n, (shiftLines s.cfg s.img n).length = 4 * n := by
    intro n; induction n with
    | zero => rfl
    | succ n ih => simp [shiftLines, shiftLine, ih]; omega
  simp only [State.tx, State.gather, State.shiftOut_spec]
  cases h : s.seq with
  | idle => simp [State.emit, State.withSeq, Sequencer.move, txTrace, Pins.afterAll_append, h]
  | busy k => simp [State.emit, State.withSeq, Sequencer.move, txTrace, Pins.afterAll_append, h, hl]; omega

@[simp] theorem State.tx_cfg (p : Bool) : (s.tx p).cfg = s.cfg := by rw [s.tx_spec]; rfl
@[simp] theorem State.tx_cur (p : Bool) : (s.tx p).cur = s.cur := by rw [s.tx_spec]; rfl
@[simp] theorem State.tx_des (p : Bool) : (s.tx p).des = s.des := by rw [s.tx_spec]; rfl
@[simp] theorem State.tx_img (p : Bool) : (s.tx p).img = s.img := by rw [s.tx_spec]; rfl
@[simp] theorem State.tx_ind (p : Bool) : (s.tx p).ind = s.ind := by rw [s.tx_spec]; rfl
@[simp] theorem State.tx_faulted (p : Bool) : (s.tx p).faulted = s.faulted := by rw [s.tx_spec]; rfl
@[simp] theorem State.tx_faultCode (p : Bool) : (s.tx p).faultCode = s.faultCode := by rw [s.tx_spec]; rfl
@[simp] theorem State.tx_cmd (p : Bool) : (s.tx p).cmd = s.cmd := by rw [s.tx_spec]; rfl
@[simp] theorem State.tx_wdata (p : Bool) : (s.tx p).wdata = s.wdata := by rw [s.tx_spec]; rfl
@[simp] theorem State.tx_status (p : Bool) : (s.tx p).status = s.status := by rw [s.tx_spec]; rfl
@[simp] theorem State.tx_rdata (p : Bool) : (s.tx p).rdata = s.rdata := by rw [s.tx_spec]; rfl
@[simp] theorem State.tx_pins (p : Bool) : (s.tx p).pins = s.pins.afterAll (txTrace s.cfg s.img p) := by rw [s.tx_spec]; rfl
@[simp] theorem State.tx_trace (p : Bool) : (s.tx p).trace = s.trace ++ txTrace s.cfg s.img p := by rw [s.tx_spec]; rfl
@[simp] theorem State.tx_inputs (p : Bool) : (s.tx p).inputs = s.inputs := by rw [s.tx_spec]; rfl

/-! ## atDot -/

@[simp] theorem State.atDot_cfg (d : Dot) : (s.atDot d).cfg = s.cfg := rfl
@[simp] theorem State.atDot_cur (d : Dot) : (s.atDot d).cur = s.cur := rfl
@[simp] theorem State.atDot_des (d : Dot) : (s.atDot d).des = s.des := rfl
@[simp] theorem State.atDot_img (d : Dot) : (s.atDot d).img = s.img := rfl
@[simp] theorem State.atDot_ind (d : Dot) : (s.atDot d).ind = s.ind := rfl
@[simp] theorem State.atDot_faulted (d : Dot) : (s.atDot d).faulted = s.faulted := rfl
@[simp] theorem State.atDot_faultCode (d : Dot) : (s.atDot d).faultCode = s.faultCode := rfl
@[simp] theorem State.atDot_cmd (d : Dot) : (s.atDot d).cmd = s.cmd := rfl
@[simp] theorem State.atDot_wdata (d : Dot) : (s.atDot d).wdata = s.wdata := rfl
@[simp] theorem State.atDot_status (d : Dot) : (s.atDot d).status = s.status := rfl
@[simp] theorem State.atDot_rdata (d : Dot) : (s.atDot d).rdata = s.rdata := rfl
@[simp] theorem State.atDot_pins (d : Dot) : (s.atDot d).pins = s.pins := rfl
@[simp] theorem State.atDot_trace (d : Dot) : (s.atDot d).trace = s.trace := rfl
@[simp] theorem State.atDot_inputs (d : Dot) : (s.atDot d).inputs = s.inputs := rfl
@[simp] theorem State.atDot_seq (d : Dot) :
    (s.atDot d).seq = s.seq.move fun k => { k with r := d.r, m := d.m, c := d.c } := rfl

/-! ## af -/

@[simp] theorem State.af_cfg (d : Dot) (b : Bool) : (s.af d b).cfg = s.cfg := by simp [State.af]
@[simp] theorem State.af_cur (d : Dot) (b : Bool) : (s.af d b).cur = s.cur := by simp [State.af]
@[simp] theorem State.af_des (d : Dot) (b : Bool) : (s.af d b).des = s.des := by simp [State.af]
@[simp] theorem State.af_img (d : Dot) (b : Bool) : (s.af d b).img = assembleImage s.cfg d b (autoToggle s.cfg s.ind) := by simp [State.af]
@[simp] theorem State.af_ind (d : Dot) (b : Bool) : (s.af d b).ind = autoToggle s.cfg s.ind := by simp [State.af]
@[simp] theorem State.af_faulted (d : Dot) (b : Bool) : (s.af d b).faulted = s.faulted := by simp [State.af]
@[simp] theorem State.af_faultCode (d : Dot) (b : Bool) : (s.af d b).faultCode = s.faultCode := by simp [State.af]
@[simp] theorem State.af_cmd (d : Dot) (b : Bool) : (s.af d b).cmd = s.cmd := by simp [State.af]
@[simp] theorem State.af_wdata (d : Dot) (b : Bool) : (s.af d b).wdata = s.wdata := by simp [State.af]
@[simp] theorem State.af_status (d : Dot) (b : Bool) : (s.af d b).status = s.status := by simp [State.af]
@[simp] theorem State.af_rdata (d : Dot) (b : Bool) : (s.af d b).rdata = s.rdata := by simp [State.af]
@[simp] theorem State.af_pins (d : Dot) (b : Bool) : (s.af d b).pins =
    s.pins.afterAll (txTrace s.cfg (assembleImage s.cfg d b (autoToggle s.cfg s.ind)) true) := by simp [State.af]
@[simp] theorem State.af_trace (d : Dot) (b : Bool) : (s.af d b).trace =
    s.trace ++ txTrace s.cfg (assembleImage s.cfg d b (autoToggle s.cfg s.ind)) true := by simp [State.af]
@[simp] theorem State.af_inputs (d : Dot) (b : Bool) : (s.af d b).inputs = s.inputs := by simp [State.af]

/-! ## cycle -/

@[simp] theorem State.cycle_cfg : (s.cycle).cfg = s.cfg := rfl
@[simp] theorem State.cycle_cur : (s.cycle).cur = tabulate s.cfg fun r m => s.des.word r m := rfl
@[simp] theorem State.cycle_des : (s.cycle).des = s.des := rfl
@[simp] theorem State.cycle_img : (s.cycle).img = s.img := rfl
@[simp] theorem State.cycle_ind : (s.cycle).ind = s.ind := rfl
@[simp] theorem State.cycle_faulted : (s.cycle).faulted = s.faulted := rfl
@[simp] theorem State.cycle_faultCode : (s.cycle).faultCode = s.faultCode := rfl
@[simp] theorem State.cycle_cmd : (s.cycle).cmd = s.cmd := rfl
@[simp] theorem State.cycle_wdata : (s.cycle).wdata = s.wdata := rfl
@[simp] theorem State.cycle_status : (s.cycle).status = s.status := rfl
@[simp] theorem State.cycle_rdata : (s.cycle).rdata = s.rdata := rfl
@[simp] theorem State.cycle_pins : (s.cycle).pins = s.pins := rfl
@[simp] theorem State.cycle_seq : (s.cycle).seq = s.seq := rfl
@[simp] theorem State.cycle_trace : (s.cycle).trace = s.trace := rfl
@[simp] theorem State.cycle_inputs : (s.cycle).inputs = s.inputs := rfl

/-! ## setBoth -/

@[simp] theorem State.setBoth_cfg (f : Nat → Nat → Word) : (s.setBoth f).cfg = s.cfg := rfl
@[simp] theorem State.setBoth_cur (f : Nat → Nat → Word) : (s.setBoth f).cur = tabulate s.cfg f := rfl
@[simp] theorem State.setBoth_des (f : Nat → Nat → Word) : (s.setBoth f).des = tabulate s.cfg f := rfl
@[simp] theorem State.setBoth_img (f : Nat → Nat → Word) : (s.setBoth f).img = s.img := rfl
@[simp] theorem State.setBoth_ind (f : Nat → Nat → Word) : (s.setBoth f).ind = s.ind := rfl
@[simp] theorem State.setBoth_faulted (f : Nat → Nat → Word) : (s.setBoth f).faulted = s.faulted := rfl
@[simp] theorem State.setBoth_faultCode (f : Nat → Nat → Word) : (s.setBoth f).faultCode = s.faultCode := rfl
@[simp] theorem State.setBoth_cmd (f : Nat → Nat → Word) : (s.setBoth f).cmd = s.cmd := rfl
@[simp] theorem State.setBoth_wdata (f : Nat → Nat → Word) : (s.setBoth f).wdata = s.wdata := rfl
@[simp] theorem State.setBoth_status (f : Nat → Nat → Word) : (s.setBoth f).status = s.status := rfl
@[simp] theorem State.setBoth_rdata (f : Nat → Nat → Word) : (s.setBoth f).rdata = s.rdata := rfl
@[simp] theorem State.setBoth_pins (f : Nat → Nat → Word) : (s.setBoth f).pins = s.pins := rfl
@[simp] theorem State.setBoth_seq (f : Nat → Nat → Word) : (s.setBoth f).seq = s.seq := rfl
@[simp] theorem State.setBoth_trace (f : Nat → Nat → Word) : (s.setBoth f).trace = s.trace := rfl
@[simp] theorem State.setBoth_inputs (f : Nat → Nat → Word) : (s.setBoth f).inputs = s.inputs := rfl

/-! ## resetValues -/

@[simp] theorem State.resetValues_cfg : (s.resetValues).cfg = s.cfg := rfl
@[simp] theorem State.resetValues_cur : (s.resetValues).cur = zeroSnapshot s.cfg := rfl
@[simp] theorem State.resetValues_des : (s.resetValues).des = zeroSnapshot s.cfg := rfl
@[simp] theorem State.resetValues_img : (s.resetValues).img = zeroImage := rfl
@[simp] theorem State.resetValues_ind : (s.resetValues).ind = 0#3 := rfl
@[simp] theorem State.resetValues_faulted : (s.resetValues).faulted = false := rfl
@[simp] theorem State.resetValues_faultCode : (s.resetValues).faultCode = 0#3 := rfl
@[simp] theorem State.resetValues_cmd : (s.resetValues).cmd = 0#32 := rfl
@[simp] theorem State.resetValues_wdata : (s.resetValues).wdata = 0#32 := rfl
@[simp] theorem State.resetValues_status : (s.resetValues).status = stOk := rfl
@[simp] theorem State.resetValues_rdata : (s.resetValues).rdata = 0#32 := rfl
@[simp] theorem State.resetValues_pins : (s.resetValues).pins = Pins.reset := rfl
@[simp] theorem State.resetValues_seq : (s.resetValues).seq = .busy { Cursors.start with pos := 1 } := rfl
@[simp] theorem State.resetValues_trace : (s.resetValues).trace = s.trace ++ [.rst] := rfl
@[simp] theorem State.resetValues_inputs : (s.resetValues).inputs = s.inputs := rfl

/-! ## READY (R39) -/

@[simp] theorem State.respond_ready (st : BitVec 3) (v : Word) : (s.respond st v).ready = true := rfl

@[simp] theorem State.raiseFault_ready (e : BitVec 3) : (s.raiseFault e).ready = true := rfl

@[simp] theorem State.refuse_ready : s.refuse.ready = true := rfl

@[simp] theorem State.accept_ready (cmd wdata : Word) (rest : List Input) : (s.accept cmd wdata rest).ready = false := rfl

end Sys2Proof.Machine
end

