-- ==== Sys2Proof/Laws/Ops.lean ====
section
/-! SUPPORT. What the shared operations can do: the prologue, a list of fires, the repeated sweeps, INITSEQ, and the
reset sequence, which from power-up gives State.resetWith. -/

namespace Sys2Proof.Machine

variable (s : State)

/-! ## The prologue (60_exceptions.md R311) -/

theorem State.guarded_refused (b : Bool) (body : State → State) (h : s.faulted = true) :
    s.guarded b body = .next s.refuse := by simp [State.guarded, h]

theorem State.guarded_bounds (body : State → State) (h : s.faulted = false) :
    s.guarded false body = .next (s.raiseFault stBounds) := by simp [State.guarded, h]

theorem State.guarded_runs (body : State → State) (h : s.faulted = false) :
    s.guarded true body = .next (body s) := by simp [State.guarded, h]

/-- Everything the prologue can answer. -/
theorem State.guarded_cases (b : Bool) (body : State → State) :
    (s.faulted = true ∧ s.guarded b body = .next s.refuse) ∨
    (s.faulted = false ∧ b = false ∧ s.guarded b body = .next (s.raiseFault stBounds)) ∨
    (s.faulted = false ∧ b = true ∧ s.guarded b body = .next (body s)) := by
  unfold State.guarded
  cases s.faulted <;> cases b <;> simp

/-- A command never stops the machine. -/
theorem State.guarded_next (b : Bool) (body : State → State) : ∃ t, s.guarded b body = .next t := by
  rcases s.guarded_cases b body with ⟨-, h⟩ | ⟨-, -, h⟩ | ⟨-, -, h⟩ <;> exact ⟨_, h⟩

/-! ## Sweeps (00_scope.md R22; 41_image_assembly.md R171) -/

theorem State.sweepWhere_cons (go : Fire → Bool) (f : Fire) (fs : List Fire) :
    s.sweepWhere go (f :: fs) = (s.visit go f).sweepWhere go fs := rfl

/-- Everything a sweep can do: the effects of AF for the dots where `go` holds, in order, and cursors moved. -/
theorem State.sweepWhere_spec (go : Fire → Bool) (fs : List Fire) :
    s.sweepWhere go fs =
      { s with
        ind := indAfter s.cfg s.ind (fs.filter go).length
        img := imageAfter s.cfg s.ind s.img (fs.filter go)
        trace := s.trace ++ fireTrace s.cfg s.ind (fs.filter go)
        pins := s.pins.afterAll (fireTrace s.cfg s.ind (fs.filter go))
        seq := (s.sweepWhere go fs).seq } := by
  induction fs generalizing s with
  | nil => simp [State.sweepWhere, indAfter, imageAfter, fireTrace]
  | cons f fs ih =>
    rw [State.sweepWhere_cons, ih]
    cases hf : go f <;> simp [State.visit, hf, indAfter, imageAfter, fireTrace, Pins.afterAll_append]

@[simp] theorem State.sweepWhere_cfg (go : Fire → Bool) (fs : List Fire) :
    (s.sweepWhere go fs).cfg = s.cfg := by rw [s.sweepWhere_spec]
@[simp] theorem State.sweepWhere_cur (go : Fire → Bool) (fs : List Fire) :
    (s.sweepWhere go fs).cur = s.cur := by rw [s.sweepWhere_spec]
@[simp] theorem State.sweepWhere_des (go : Fire → Bool) (fs : List Fire) :
    (s.sweepWhere go fs).des = s.des := by rw [s.sweepWhere_spec]
@[simp] theorem State.sweepWhere_faulted (go : Fire → Bool) (fs : List Fire) :
    (s.sweepWhere go fs).faulted = s.faulted := by rw [s.sweepWhere_spec]
@[simp] theorem State.sweepWhere_faultCode (go : Fire → Bool) (fs : List Fire) :
    (s.sweepWhere go fs).faultCode = s.faultCode := by rw [s.sweepWhere_spec]
@[simp] theorem State.sweepWhere_cmd (go : Fire → Bool) (fs : List Fire) :
    (s.sweepWhere go fs).cmd = s.cmd := by rw [s.sweepWhere_spec]
@[simp] theorem State.sweepWhere_wdata (go : Fire → Bool) (fs : List Fire) :
    (s.sweepWhere go fs).wdata = s.wdata := by rw [s.sweepWhere_spec]
@[simp] theorem State.sweepWhere_status (go : Fire → Bool) (fs : List Fire) :
    (s.sweepWhere go fs).status = s.status := by rw [s.sweepWhere_spec]
@[simp] theorem State.sweepWhere_rdata (go : Fire → Bool) (fs : List Fire) :
    (s.sweepWhere go fs).rdata = s.rdata := by rw [s.sweepWhere_spec]
@[simp] theorem State.sweepWhere_inputs (go : Fire → Bool) (fs : List Fire) :
    (s.sweepWhere go fs).inputs = s.inputs := by rw [s.sweepWhere_spec]
@[simp] theorem State.sweepWhere_ind (go : Fire → Bool) (fs : List Fire) :
    (s.sweepWhere go fs).ind = indAfter s.cfg s.ind (fs.filter go).length := by rw [s.sweepWhere_spec]
@[simp] theorem State.sweepWhere_img (go : Fire → Bool) (fs : List Fire) :
    (s.sweepWhere go fs).img = imageAfter s.cfg s.ind s.img (fs.filter go) := by rw [s.sweepWhere_spec]
@[simp] theorem State.sweepWhere_trace (go : Fire → Bool) (fs : List Fire) :
    (s.sweepWhere go fs).trace = s.trace ++ fireTrace s.cfg s.ind (fs.filter go) := by rw [s.sweepWhere_spec]
@[simp] theorem State.sweepWhere_pins (go : Fire → Bool) (fs : List Fire) :
    (s.sweepWhere go fs).pins = s.pins.afterAll (fireTrace s.cfg s.ind (fs.filter go)) := by rw [s.sweepWhere_spec]

@[simp] theorem State.fireAll_cfg (fs : List Fire) : (s.fireAll fs).cfg = s.cfg := by
  simp [State.fireAll]
@[simp] theorem State.fireAll_cur (fs : List Fire) : (s.fireAll fs).cur = s.cur := by
  simp [State.fireAll]
@[simp] theorem State.fireAll_des (fs : List Fire) : (s.fireAll fs).des = s.des := by
  simp [State.fireAll]
@[simp] theorem State.fireAll_faulted (fs : List Fire) : (s.fireAll fs).faulted = s.faulted := by
  simp [State.fireAll]
@[simp] theorem State.fireAll_faultCode (fs : List Fire) : (s.fireAll fs).faultCode = s.faultCode := by
  simp [State.fireAll]
@[simp] theorem State.fireAll_cmd (fs : List Fire) : (s.fireAll fs).cmd = s.cmd := by
  simp [State.fireAll]
@[simp] theorem State.fireAll_wdata (fs : List Fire) : (s.fireAll fs).wdata = s.wdata := by
  simp [State.fireAll]
@[simp] theorem State.fireAll_status (fs : List Fire) : (s.fireAll fs).status = s.status := by
  simp [State.fireAll]
@[simp] theorem State.fireAll_rdata (fs : List Fire) : (s.fireAll fs).rdata = s.rdata := by
  simp [State.fireAll]
@[simp] theorem State.fireAll_inputs (fs : List Fire) : (s.fireAll fs).inputs = s.inputs := by
  simp [State.fireAll]
@[simp] theorem State.fireAll_ind (fs : List Fire) : (s.fireAll fs).ind = indAfter s.cfg s.ind fs.length := by
  simp [State.fireAll]
@[simp] theorem State.fireAll_img (fs : List Fire) : (s.fireAll fs).img = imageAfter s.cfg s.ind s.img fs := by
  simp [State.fireAll]
@[simp] theorem State.fireAll_trace (fs : List Fire) :
    (s.fireAll fs).trace = s.trace ++ fireTrace s.cfg s.ind fs := by
  simp [State.fireAll]
@[simp] theorem State.fireAll_pins (fs : List Fire) :
    (s.fireAll fs).pins = s.pins.afterAll (fireTrace s.cfg s.ind fs) := by
  simp [State.fireAll]

/-! ## Fires in general: IND, IMG, the trace -/

theorem indAfter_static (c : Config) (ind : BitVec 3) (n : Nat) (h : c.indMode = .static) : indAfter c ind n = ind := by
  induction n generalizing ind with
  | zero => rfl
  | succ n ih => rw [indAfter, ih]; simp [autoToggle, h]

theorem indAfter_add (c : Config) (ind : BitVec 3) (m n : Nat) :
    indAfter c ind (m + n) = indAfter c (indAfter c ind m) n := by
  induction m generalizing ind with
  | zero => simp [indAfter]
  | succ m ih => rw [Nat.succ_add]; exact ih _

theorem fireTrace_append (c : Config) (ind : BitVec 3) (xs ys : List Fire) :
    fireTrace c ind (xs ++ ys) = fireTrace c ind xs ++ fireTrace c (indAfter c ind xs.length) ys := by
  induction xs generalizing ind with
  | nil => rfl
  | cons f fs ih => simp [fireTrace, ih, indAfter]

theorem imageAfter_append (c : Config) (ind : BitVec 3) (img : Memory) (xs ys : List Fire) :
    imageAfter c ind img (xs ++ ys) = imageAfter c (indAfter c ind xs.length) (imageAfter c ind img xs) ys := by
  induction xs generalizing ind img with
  | nil => rfl
  | cons f fs ih => simp [imageAfter, ih, indAfter]

theorem wf_imageAfter (c : Config) (ind : BitVec 3) (img : Memory) (fs : List Fire) (h : img.wf = true) :
    (imageAfter c ind img fs).wf = true := by
  induction fs generalizing ind img with
  | nil => exact h
  | cons f fs ih => exact ih _ _ (wf_assembleImage _ _ _ _)

theorem padding_imageAfter (c : Config) (ind : BitVec 3) (img : Memory) (fs : List Fire) (K : Nat) (hK : c.nl ≤ K)
    (h : img.line K = false) : (imageAfter c ind img fs).line K = false := by
  induction fs generalizing ind img with
  | nil => exact h
  | cons f fs ih => exact ih _ _ (padding_assembleImage _ _ _ _ _ hK)

/-! ## Repeated sweeps (40_dot_matrix.md R156) -/

@[simp] theorem State.sweepTimes_cfg (go : Fire → Bool) (fs : List Fire) (n : Nat) :
    (s.sweepTimes go fs n).cfg = s.cfg := by
  induction n with
  | zero => rfl
  | succ n ih => simpa [State.sweepTimes] using ih

@[simp] theorem State.sweepTimes_cur (go : Fire → Bool) (fs : List Fire) (n : Nat) :
    (s.sweepTimes go fs n).cur = s.cur := by
  induction n with
  | zero => rfl
  | succ n ih => simpa [State.sweepTimes] using ih

@[simp] theorem State.sweepTimes_des (go : Fire → Bool) (fs : List Fire) (n : Nat) :
    (s.sweepTimes go fs n).des = s.des := by
  induction n with
  | zero => rfl
  | succ n ih => simpa [State.sweepTimes] using ih

@[simp] theorem State.sweepTimes_faulted (go : Fire → Bool) (fs : List Fire) (n : Nat) :
    (s.sweepTimes go fs n).faulted = s.faulted := by
  induction n with
  | zero => rfl
  | succ n ih => simpa [State.sweepTimes] using ih

@[simp] theorem State.sweepTimes_faultCode (go : Fire → Bool) (fs : List Fire) (n : Nat) :
    (s.sweepTimes go fs n).faultCode = s.faultCode := by
  induction n with
  | zero => rfl
  | succ n ih => simpa [State.sweepTimes] using ih

@[simp] theorem State.sweepTimes_cmd (go : Fire → Bool) (fs : List Fire) (n : Nat) :
    (s.sweepTimes go fs n).cmd = s.cmd := by
  induction n with
  | zero => rfl
  | succ n ih => simpa [State.sweepTimes] using ih

@[simp] theorem State.sweepTimes_wdata (go : Fire → Bool) (fs : List Fire) (n : Nat) :
    (s.sweepTimes go fs n).wdata = s.wdata := by
  induction n with
  | zero => rfl
  | succ n ih => simpa [State.sweepTimes] using ih

@[simp] theorem State.sweepTimes_status (go : Fire → Bool) (fs : List Fire) (n : Nat) :
    (s.sweepTimes go fs n).status = s.status := by
  induction n with
  | zero => rfl
  | succ n ih => simpa [State.sweepTimes] using ih

@[simp] theorem State.sweepTimes_rdata (go : Fire → Bool) (fs : List Fire) (n : Nat) :
    (s.sweepTimes go fs n).rdata = s.rdata := by
  induction n with
  | zero => rfl
  | succ n ih => simpa [State.sweepTimes] using ih

@[simp] theorem State.sweepTimes_inputs (go : Fire → Bool) (fs : List Fire) (n : Nat) :
    (s.sweepTimes go fs n).inputs = s.inputs := by
  induction n with
  | zero => rfl
  | succ n ih => simpa [State.sweepTimes] using ih

/-- The fires of n sweeps. -/
theorem replicate_flatten_succ {α : Type} (n : Nat) (fs : List α) :
    (List.replicate (n + 1) fs).flatten = (List.replicate n fs).flatten ++ fs := by
  rw [List.replicate_succ', List.flatten_append, List.flatten_singleton]

@[simp] theorem State.sweepTimes_ind (go : Fire → Bool) (fs : List Fire) (n : Nat) :
    (s.sweepTimes go fs n).ind = indAfter s.cfg s.ind (List.replicate n (fs.filter go)).flatten.length := by
  induction n with
  | zero => rfl
  | succ n ih => rw [replicate_flatten_succ, List.length_append, indAfter_add, ← ih]; simp [State.sweepTimes]

@[simp] theorem State.sweepTimes_img (go : Fire → Bool) (fs : List Fire) (n : Nat) :
    (s.sweepTimes go fs n).img = imageAfter s.cfg s.ind s.img (List.replicate n (fs.filter go)).flatten := by
  induction n with
  | zero => rfl
  | succ n ih =>
    rw [replicate_flatten_succ, imageAfter_append, ← ih, ← State.sweepTimes_ind]
    simp only [State.sweepTimes, State.sweepWhere_img, State.moveSeq_cfg, State.moveSeq_ind, State.moveSeq_img,
      State.sweepTimes_cfg]

@[simp] theorem State.sweepTimes_trace (go : Fire → Bool) (fs : List Fire) (n : Nat) :
    (s.sweepTimes go fs n).trace = s.trace ++ fireTrace s.cfg s.ind (List.replicate n (fs.filter go)).flatten := by
  induction n with
  | zero => simp [State.sweepTimes, fireTrace]
  | succ n ih =>
    rw [replicate_flatten_succ, fireTrace_append, ← List.append_assoc, ← ih, ← State.sweepTimes_ind]
    simp only [State.sweepTimes, State.sweepWhere_trace, State.moveSeq_cfg, State.moveSeq_ind, State.moveSeq_trace,
      State.sweepTimes_cfg]

@[simp] theorem State.sweepTimes_pins (go : Fire → Bool) (fs : List Fire) (n : Nat) :
    (s.sweepTimes go fs n).pins = s.pins.afterAll (fireTrace s.cfg s.ind (List.replicate n (fs.filter go)).flatten) := by
  induction n with
  | zero => rfl
  | succ n ih =>
    rw [replicate_flatten_succ, fireTrace_append, Pins.afterAll_append, ← ih, ← State.sweepTimes_ind]
    simp only [State.sweepTimes, State.sweepWhere_pins, State.moveSeq_cfg, State.moveSeq_ind, State.moveSeq_pins,
      State.sweepTimes_cfg]

/-! ## Initialization and reset (44_system.md R270, R271; 70_reset_and_hazards.md R340) -/

@[simp] theorem State.showInd_cfg (ind : BitVec 3) : (s.showInd ind).cfg = s.cfg := by
  simp [State.showInd]
@[simp] theorem State.showInd_cur (ind : BitVec 3) : (s.showInd ind).cur = s.cur := by
  simp [State.showInd]
@[simp] theorem State.showInd_des (ind : BitVec 3) : (s.showInd ind).des = s.des := by
  simp [State.showInd]
@[simp] theorem State.showInd_faulted (ind : BitVec 3) : (s.showInd ind).faulted = s.faulted := by
  simp [State.showInd]
@[simp] theorem State.showInd_faultCode (ind : BitVec 3) : (s.showInd ind).faultCode = s.faultCode := by
  simp [State.showInd]
@[simp] theorem State.showInd_cmd (ind : BitVec 3) : (s.showInd ind).cmd = s.cmd := by
  simp [State.showInd]
@[simp] theorem State.showInd_wdata (ind : BitVec 3) : (s.showInd ind).wdata = s.wdata := by
  simp [State.showInd]
@[simp] theorem State.showInd_status (ind : BitVec 3) : (s.showInd ind).status = s.status := by
  simp [State.showInd]
@[simp] theorem State.showInd_rdata (ind : BitVec 3) : (s.showInd ind).rdata = s.rdata := by
  simp [State.showInd]
@[simp] theorem State.showInd_inputs (ind : BitVec 3) : (s.showInd ind).inputs = s.inputs := by
  simp [State.showInd]

@[simp] theorem State.showInd_ind (ind : BitVec 3) : (s.showInd ind).ind = ind := by
  simp [State.showInd]

@[simp] theorem State.showInd_img (ind : BitVec 3) : (s.showInd ind).img = indicatorImage s.cfg ind := by
  simp [State.showInd]

@[simp] theorem State.showInd_trace (ind : BitVec 3) : (s.showInd ind).trace = s.trace ++ showTrace s.cfg ind := by
  simp [State.showInd, showTrace]

@[simp] theorem State.showInd_pins (ind : BitVec 3) : (s.showInd ind).pins = s.pins.afterAll (showTrace s.cfg ind) := by
  simp [State.showInd, showTrace, Pins.afterAll_append]

@[simp] theorem State.initSeq_cfg : s.initSeq.cfg = s.cfg := by
  simp [State.initSeq, State.selfTest, State.selfTestRound]
@[simp] theorem State.initSeq_faulted : s.initSeq.faulted = s.faulted := by
  simp [State.initSeq, State.selfTest, State.selfTestRound]
@[simp] theorem State.initSeq_faultCode : s.initSeq.faultCode = s.faultCode := by
  simp [State.initSeq, State.selfTest, State.selfTestRound]
@[simp] theorem State.initSeq_cmd : s.initSeq.cmd = s.cmd := by
  simp [State.initSeq, State.selfTest, State.selfTestRound]
@[simp] theorem State.initSeq_wdata : s.initSeq.wdata = s.wdata := by
  simp [State.initSeq, State.selfTest, State.selfTestRound]
@[simp] theorem State.initSeq_status : s.initSeq.status = s.status := by
  simp [State.initSeq, State.selfTest, State.selfTestRound]
@[simp] theorem State.initSeq_rdata : s.initSeq.rdata = s.rdata := by
  simp [State.initSeq, State.selfTest, State.selfTestRound]
@[simp] theorem State.initSeq_inputs : s.initSeq.inputs = s.inputs := by
  simp [State.initSeq, State.selfTest, State.selfTestRound]

@[simp] theorem State.initSeq_cur : s.initSeq.cur = zeroSnapshot s.cfg := by
  simp [State.initSeq, State.selfTest, State.selfTestRound, zeroSnapshot]

@[simp] theorem State.initSeq_des : s.initSeq.des = zeroSnapshot s.cfg := by
  simp [State.initSeq, State.selfTest, State.selfTestRound, zeroSnapshot]

@[simp] theorem State.initSeq_ind : s.initSeq.ind = 0#3 := by
  simp [State.initSeq, State.selfTest, State.selfTestRound]

@[simp] theorem State.initSeq_img : s.initSeq.img = zeroImage := by
  simp [State.initSeq, State.selfTest, State.selfTestRound, indicatorImage_zero]

@[simp] theorem State.initSeq_trace : s.initSeq.trace = s.trace ++ selfTestTrace s.cfg := by
  simp [State.initSeq, State.selfTest, State.selfTestRound, selfTestTrace, List.replicate_succ]

@[simp] theorem State.initSeq_pins : s.initSeq.pins = s.pins.afterAll (selfTestTrace s.cfg) := by
  simp [State.initSeq, State.selfTest, State.selfTestRound, selfTestTrace, List.replicate_succ, Pins.afterAll_append]

/-- The reset sequence leaves what State.resetWith says; the trace so far stays, and so does what the host does next. -/
theorem State.resetSequence_spec :
    s.resetSequence =
      { State.resetWith s.cfg with trace := s.trace ++ (State.resetWith s.cfg).trace, inputs := s.inputs } := by
  unfold State.resetSequence State.resetWith
  rw [State.mk.injEq]
  by_cases h : validConfig s.cfg = true
  · simp [h, Pins.afterAll_selfTest, stOk]
  · simp [h, stConfig, stOk]

/-- From power-up the reset sequence gives the state after reset. -/
theorem State.resetSequence_powerUp (h : s.trace = []) (hi : s.inputs = []) :
    s.resetSequence = State.resetWith s.cfg := by
  rw [State.resetSequence_spec, h, hi]; rfl

/-- However often the reset input cuts it, the reset sequence ends in the same registers, with the whole history of
events in the trace. -/
theorem State.resetUnder_spec (ks : List Nat) :
    ∃ evs, s.resetUnder ks =
      { State.resetWith s.cfg with
        trace := s.trace ++ evs ++ (State.resetWith s.cfg).trace, inputs := s.inputs } := by
  induction ks generalizing s with
  | nil => exact ⟨[], by simp [State.resetUnder, State.resetSequence_spec]⟩
  | cons k ks ih =>
    obtain ⟨evs, h⟩ := ih (s.abandonAt k s.resetSequence)
    refine ⟨(s.resetSequence.trace.drop s.trace.length).take k ++ evs, ?_⟩
    rw [State.resetUnder, h, State.mk.injEq]
    simp [State.abandonAt]

theorem pulses_append (x y : Trace) : pulses (x ++ y) = pulses x + pulses y := by simp [pulses]

/-- One energize pulse per pulsed transmission. -/
theorem pulses_txTrace (c : Config) (img : Memory) (p : Bool) : pulses (txTrace c img p) = p.toNat := by
  have h : pulses (txTrace c img false) = 0 := by
    rw [pulses, List.length_eq_zero_iff, List.filter_eq_nil_iff]
    intro e he h
    exact enable_not_mem_txTrace c img (beq_iff_eq.1 h ▸ he)
  cases p
  · exact h
  · rw [txTrace_pulsed, pulses_append, h]; rfl

/-- One energize pulse per AF (41_image_assembly.md R178). -/
theorem pulses_fireTrace (c : Config) (ind : BitVec 3) (fs : List Fire) : pulses (fireTrace c ind fs) = fs.length := by
  induction fs generalizing ind with
  | nil => rfl
  | cons f fs ih => rw [fireTrace, pulses_append, ih, pulses_txTrace]; simp; omega

end Sys2Proof.Machine
end

