-- ==== Sys2Proof/Laws/Snapshot.lean ====
section
/-! SUPPORT. The snapshot arrays: a tabulated array reads back what it was made of, and one replaced word leaves every
other one alone. -/

namespace Sys2Proof.Machine

theorem tabulate_fits (c : Config) (f : Nat → Nat → Word) : (tabulate c f).fits c = true := by
  simp [tabulate, Snapshot.fits]

/-- A word of a tabulated array, in bounds and out of bounds. -/
theorem tabulate_word (c : Config) (f : Nat → Nat → Word) (r m : Nat) :
    (tabulate c f).word r m = if r < c.rows ∧ m < c.modules then f r m else 0#32 := by
  unfold tabulate Snapshot.word
  by_cases hr : r < c.rows
  · by_cases hm : m < c.modules <;> simp [List.getD, hr, hm]
  · simp [List.getD, hr]

theorem tabulate_word_of_lt (c : Config) (f : Nat → Nat → Word) (r m : Nat) (hr : r < c.rows) (hm : m < c.modules) :
    (tabulate c f).word r m = f r m := by rw [tabulate_word, if_pos ⟨hr, hm⟩]

@[simp] theorem zeroSnapshot_word (c : Config) (r m : Nat) : (zeroSnapshot c).word r m = 0#32 := by
  rw [zeroSnapshot, tabulate_word]; split <;> rfl

@[simp] theorem zeroSnapshot_fits (c : Config) : (zeroSnapshot c).fits c = true := tabulate_fits _ _

theorem Snapshot.fits_iff (s : Snapshot) (c : Config) :
    s.fits c = true ↔ s.length = c.rows ∧ ∀ row ∈ s, row.length = c.modules := by
  simp [Snapshot.fits]

theorem Snapshot.put_fits (s : Snapshot) (c : Config) (r m : Nat) (w : Word) (h : s.fits c = true) :
    (s.put r m w).fits c = true := by
  rw [Snapshot.fits_iff] at h ⊢
  refine ⟨by simp [Snapshot.put, h.1], fun row hrow => ?_⟩
  obtain ⟨i, hi, rfl⟩ := List.mem_iff_getElem.1 hrow
  simp only [Snapshot.put, List.length_modify] at hi
  simp only [Snapshot.put, List.getElem_modify]
  split <;> simp [h.2 _ (List.getElem_mem hi)]

/-- The word put reads back; every other word is left alone. -/
theorem Snapshot.put_word (s : Snapshot) (c : Config) (r m : Nat) (w : Word) (h : s.fits c = true) (hr : r < c.rows)
    (hm : m < c.modules) (r' m' : Nat) :
    (s.put r m w).word r' m' = if r' = r ∧ m' = m then w else s.word r' m' := by
  rw [Snapshot.fits_iff] at h
  unfold Snapshot.put Snapshot.word
  by_cases hr' : r' = r
  · subst hr'
    have hlen : r' < s.length := h.1 ▸ hr
    have hrow := h.2 s[r'] (List.getElem_mem hlen)
    by_cases hm' : m' = m
    · subst hm'; simp [List.getD, hlen, hrow, hm]
    · have hmm : ¬ m = m' := fun e => hm' e.symm
      simp [List.getD, hlen, hm', hmm]
  · have hrr : ¬ r = r' := fun e => hr' e.symm
    simp [List.getD, hr', hrr]

end Sys2Proof.Machine
end

