-- ==== Sys2Proof/Laws/Exec.lean ====
section
/-! SUPPORT. One inversion of exec for all commands: the prologue with the command's bounds check and its effect. -/

namespace Sys2Proof.Machine

/-- The bounds check of each command's prologue. -/
def inBounds (c : Config) : Instr → Bool
  | .wrdes r m => wordOk c r m
  | .rdcur r m => wordOk c r m
  | .rddes r m => wordOk c r m
  | .fire r m col _ => dotOk c r m col
  | .setrowset r => rowOk c r
  | .setrowreset r => rowOk c r
  | .setcol m col => columnOk c m col
  | .getcol m => moduleOk c m
  | .rdimg k => imageWordOk c k
  | _ => true

/-- The effect of each command before its response. -/
def effect (i : Instr) (s : State) : State :=
  match i with
  | .init => s.initSeq
  | .wrdes r m => s.withDes (s.des.put r m s.wdata)
  | .paint f => (s.sweepWhere (paintGoes s.cur f) (everyDot s.cfg s.des.dot)).cycle
  | .clear => (s.setBoth fun _ _ => 0#32).fireAll (everyDot s.cfg fun _ => false)
  | .fill => (s.setBoth fun _ m => full s.cfg m).fireAll (everyDot s.cfg fun _ => true)
  | .inverse =>
      let t := s.withDes (tabulate s.cfg fun r m => ~~~(s.cur.word r m))
      let u := t.fireAll (everyDot t.cfg t.des.dot)
      if u.cfg.inverseCycle then u.cycle else u
  | .magnetize =>
      (s.sweepTimes (fun f => s.cur.dot f.dot) (everyDot s.cfg fun _ => true) s.wdata.toNat).cycle
  | .fire r m c b => s.af ⟨r, m, c⟩ b
  | .transmit p => s.tx p
  | .clrimg => s.withImg zeroImage
  | .setrowset r => s.withImg (putLine s.cfg (rowSet s.cfg r) true (clearLines s.cfg (rowReset s.cfg) s.cfg.rows s.img))
  | .setrowreset r =>
      s.withImg (putLine s.cfg (rowReset s.cfg r) true (clearLines s.cfg (rowSet s.cfg) s.cfg.rows s.img))
  | .setcol m c => s.withImg (driveField s.cfg (codeLine s.cfg) s.cfg.ncc (columnCode s.cfg m c) s.img)
  | .setaddr => s.withImg (driveField s.cfg (addressLine s.cfg) s.cfg.naw s.wdata.toNat s.img)
  | .setdir d => s.withImg (putLine s.cfg s.cfg.dirLine d s.img)
  | .setind ib => s.withInd (indOfBits ib)
  | _ => s

/-- RDATA of each command that completes normally (40_dot_matrix.md R130). -/
def answer (i : Instr) (s : State) : Word :=
  match i with
  | .rdcur r m => s.cur.word r m
  | .rddes r m => s.des.word r m
  | .getrowset => firstRow s.cfg (rowSet s.cfg) s.img
  | .getrowreset => firstRow s.cfg (rowReset s.cfg) s.img
  | .getcol m => matchColumn s.cfg m s.img
  | .getaddr => readAddress s.cfg s.img
  | .getdir => readDirection s.cfg s.img
  | .getind => bitsOfInd s.ind
  | .rdimg k => imageWord s.cfg k s.img
  | _ => 0#32

/-- Every command is the prologue, its effect and its response. -/
theorem exec_eq (i : Instr) (s : State) :
    exec i s = s.guarded (inBounds s.cfg i) fun s => (effect i s).respond stOk (answer i s) := by
  cases i <;> rfl

/-- Everything a command can answer: refused, BOUNDS, or its effect with an OK response. -/
theorem exec_cases (i : Instr) (s t : State) (h : exec i s = .next t) :
    (s.faulted = true ∧ t = s.refuse) ∨
    (s.faulted = false ∧ inBounds s.cfg i = false ∧ t = s.raiseFault stBounds) ∨
    (s.faulted = false ∧ inBounds s.cfg i = true ∧ t = (effect i s).respond stOk (answer i s)) := by
  rw [exec_eq] at h
  rcases s.guarded_cases (inBounds s.cfg i) (fun s => (effect i s).respond stOk (answer i s)) with
    ⟨hf, e⟩ | ⟨hf, hb, e⟩ | ⟨hf, hb, e⟩
  all_goals
    rw [e] at h
    injection h with h
    simp [*]

/-- No command's effect writes this field. -/
theorem effect_cfg (i : Instr) (s : State) : (effect i s).cfg = s.cfg := by
  cases i <;> simp [effect]
  split <;> simp

/-- No command's effect writes this field. -/
theorem effect_faulted (i : Instr) (s : State) : (effect i s).faulted = s.faulted := by
  cases i <;> simp [effect]
  split <;> simp

/-- No command's effect writes this field. -/
theorem effect_faultCode (i : Instr) (s : State) : (effect i s).faultCode = s.faultCode := by
  cases i <;> simp [effect]
  split <;> simp

/-- No command's effect writes this field. -/
theorem effect_cmd (i : Instr) (s : State) : (effect i s).cmd = s.cmd := by
  cases i <;> simp [effect]
  split <;> simp

/-- No command's effect writes this field. -/
theorem effect_wdata (i : Instr) (s : State) : (effect i s).wdata = s.wdata := by
  cases i <;> simp [effect]
  split <;> simp

/-- No command's effect writes this field. -/
theorem effect_inputs (i : Instr) (s : State) : (effect i s).inputs = s.inputs := by
  cases i <;> simp [effect]
  split <;> simp

/-- The prologue's bounds check is the condition 60_exceptions.md R302 lists. -/
theorem inBounds_iff (c : Config) (i : Instr) : inBounds c i = false ↔ boundsCondition c i := by
  rw [← Bool.not_eq_true]
  cases i <;>
    simp only [inBounds, boundsCondition, wordOk, rowOk, moduleOk, columnOk, dotOk, imageWordOk, nwords, colCount,
      Bool.and_eq_true, decide_eq_true_iff] <;> grind

theorem exec_refused (i : Instr) (s : State) (h : s.faulted = true) : exec i s = .next s.refuse := by
  rw [exec_eq, State.guarded_refused _ _ _ h]

theorem exec_bounds (i : Instr) (s : State) (h : s.faulted = false) (hb : inBounds s.cfg i = false) :
    exec i s = .next (s.raiseFault stBounds) := by
  rw [exec_eq, hb, State.guarded_bounds _ _ h]

theorem exec_runs (i : Instr) (s : State) (h : s.faulted = false) (hb : inBounds s.cfg i = true) :
    exec i s = .next ((effect i s).respond stOk (answer i s)) := by
  rw [exec_eq, hb, State.guarded_runs _ _ h]

end Sys2Proof.Machine
end

