-- ==== Sys2Proof/Laws/Params.lean ====
section
/-! SUPPORT. What a valid configuration gives (00_scope.md R16): bounds, and lines below NL, pairwise distinct. -/

namespace Sys2Proof.Machine

variable {c : Config}

theorem validConfig_parts (h : validConfig c = true) :
    shapesFit c = true ∧ gridFits c = true ∧ codesFit c = true ∧ linesFit c = true ∧ timingFits c = true := by
  simpa [validConfig, and_assoc] using h

theorem getD_mem {l : List Nat} {i : Nat} (h : i < l.length) : l.getD i 0 ∈ l := by
  simp [List.getD, h]

theorem colCount_le (h : validConfig c = true) {m : Nat} (hm : m < c.modules) :
    1 ≤ colCount c m ∧ colCount c m ≤ c.maxCol ∧ c.maxCol ≤ 32 := by
  obtain ⟨hs, hg, -⟩ := validConfig_parts h
  simp only [shapesFit, gridFits, Bool.and_eq_true, beq_iff_eq, decide_eq_true_eq, List.all_eq_true] at hs hg
  have := hg.1.1.1.1.2 _ (getD_mem (l := c.cols) (i := m) (by omega))
  exact ⟨this.1, this.2, by omega⟩

theorem lengths_of_valid (h : validConfig c = true) :
    c.cols.length = c.modules ∧ c.addr.length = c.modules ∧ c.cct.length = c.maxCol ∧
    c.rowSetLine.length = c.rows ∧ c.rowResetLine.length = c.rows ∧ c.colCodeLine.length = c.ncc ∧
    c.addrLine.length = c.naw ∧ c.indLine.length = 3 := by
  obtain ⟨hs, -⟩ := validConfig_parts h
  simpa [shapesFit, and_assoc] using hs

theorem grid_of_valid (h : validConfig c = true) : 1 ≤ c.rows ∧ c.rows ≤ 256 ∧ 1 ≤ c.modules ∧ c.modules ≤ 256 := by
  obtain ⟨-, hg, -⟩ := validConfig_parts h
  simp only [gridFits, Bool.and_eq_true, decide_eq_true_eq] at hg
  omega

theorem widths_of_valid (h : validConfig c = true) : 1 ≤ c.ncc ∧ c.ncc ≤ 32 ∧ c.naw ≤ 32 := by
  obtain ⟨-, -, hc, -⟩ := validConfig_parts h
  simp only [codesFit, Bool.and_eq_true, decide_eq_true_eq] at hc
  omega

/-- Every module address fits its lines (R12). -/
theorem moduleAddr_lt (h : validConfig c = true) {m : Nat} (hm : m < c.modules) : moduleAddr c m < 2 ^ c.naw := by
  obtain ⟨-, -, hc, -⟩ := validConfig_parts h
  simp only [codesFit, Bool.and_eq_true, decide_eq_true_eq, List.all_eq_true] at hc
  exact hc.2 _ (getD_mem (by rw [(lengths_of_valid h).2.1]; exact hm))

/-- The code of an in-window column fits its lines (R11). -/
theorem columnCode_lt (h : validConfig c = true) {m col : Nat} (hm : m < c.modules) (hc : col < colCount c m) :
    columnCode c m col < 2 ^ c.ncc := by
  have hb := colCount_le h hm
  obtain ⟨-, -, hcf, -⟩ := validConfig_parts h
  simp only [codesFit, Bool.and_eq_true, decide_eq_true_eq, List.all_eq_true] at hcf
  exact hcf.1.1.2 _ (getD_mem (by rw [(lengths_of_valid h).2.2.1, off]; omega))

theorem lines_nodup (h : validConfig c = true) : (roleLines c).Nodup := by
  obtain ⟨-, -, -, hl, -⟩ := validConfig_parts h
  simp only [linesFit, Bool.and_eq_true, decide_eq_true_eq] at hl
  exact hl.2

theorem lines_lt (h : validConfig c = true) {L : Nat} (hL : L ∈ roleLines c) : L < c.nl := by
  obtain ⟨-, -, -, hl, -⟩ := validConfig_parts h
  simp only [linesFit, Bool.and_eq_true, decide_eq_true_eq, List.all_eq_true] at hl
  exact hl.1 L hL

/-! ## The line numbers, by role -/

theorem rowSet_mem (h : validConfig c = true) {r : Nat} (hr : r < c.rows) : rowSet c r ∈ c.rowSetLine :=
  getD_mem (by rw [(lengths_of_valid h).2.2.2.1]; exact hr)

theorem rowReset_mem (h : validConfig c = true) {r : Nat} (hr : r < c.rows) : rowReset c r ∈ c.rowResetLine :=
  getD_mem (by rw [(lengths_of_valid h).2.2.2.2.1]; exact hr)

theorem codeLine_mem (h : validConfig c = true) {j : Nat} (hj : j < c.ncc) : codeLine c j ∈ c.colCodeLine :=
  getD_mem (by rw [(lengths_of_valid h).2.2.2.2.2.1]; exact hj)

theorem addressLine_mem (h : validConfig c = true) {i : Nat} (hi : i < c.naw) : addressLine c i ∈ c.addrLine :=
  getD_mem (by rw [(lengths_of_valid h).2.2.2.2.2.2.1]; exact hi)

theorem indicatorLine_mem (h : validConfig c = true) {k : Nat} (hk : k < 3) : indicatorLine c k ∈ c.indLine :=
  getD_mem (by rw [(lengths_of_valid h).2.2.2.2.2.2.2]; exact hk)

theorem rowSet_lt (h : validConfig c = true) {r : Nat} (hr : r < c.rows) : rowSet c r < c.nl :=
  lines_lt h (by simp [roleLines, rowSet_mem h hr])

theorem rowReset_lt (h : validConfig c = true) {r : Nat} (hr : r < c.rows) : rowReset c r < c.nl :=
  lines_lt h (by simp [roleLines, rowReset_mem h hr])

theorem codeLine_lt (h : validConfig c = true) {j : Nat} (hj : j < c.ncc) : codeLine c j < c.nl :=
  lines_lt h (by simp [roleLines, codeLine_mem h hj])

theorem addressLine_lt (h : validConfig c = true) {i : Nat} (hi : i < c.naw) : addressLine c i < c.nl :=
  lines_lt h (by simp [roleLines, addressLine_mem h hi])

theorem dirLine_lt (h : validConfig c = true) : c.dirLine < c.nl := lines_lt h (by simp [roleLines])

theorem indicatorLine_lt (h : validConfig c = true) {k : Nat} (hk : k < 3) : indicatorLine c k < c.nl :=
  lines_lt h (by simp [roleLines, indicatorLine_mem h hk])

/-- Two lines of different roles are different, and the roles' lists have no repeats (R16). -/
theorem roles_disjoint (h : validConfig c = true) :
    c.rowSetLine.Nodup ∧ c.rowResetLine.Nodup ∧ c.colCodeLine.Nodup ∧ c.addrLine.Nodup ∧ c.indLine.Nodup ∧
    (∀ x ∈ c.rowSetLine, x ∉ c.rowResetLine ∧ x ∉ c.colCodeLine ∧ x ∉ c.addrLine ∧ x ≠ c.dirLine ∧ x ∉ c.indLine) ∧
    (∀ x ∈ c.rowResetLine, x ∉ c.colCodeLine ∧ x ∉ c.addrLine ∧ x ≠ c.dirLine ∧ x ∉ c.indLine) ∧
    (∀ x ∈ c.colCodeLine, x ∉ c.addrLine ∧ x ≠ c.dirLine ∧ x ∉ c.indLine) ∧
    (∀ x ∈ c.addrLine, x ≠ c.dirLine ∧ x ∉ c.indLine) ∧ c.dirLine ∉ c.indLine := by
  have := lines_nodup h
  simp only [roleLines, List.nodup_append, List.mem_append, List.mem_singleton, List.nodup_singleton] at this
  obtain ⟨⟨⟨⟨⟨h1, h2, h12⟩, h3, h123⟩, h4, h1234⟩, -, h5⟩, h6, h7⟩ := this
  refine ⟨h1, h2, h3, h4, h6, ?_, ?_, ?_, ?_, ?_⟩
  · exact fun x hx => ⟨fun hy => h12 x hx x hy rfl, fun hy => h123 x (.inl hx) x hy rfl,
      fun hy => h1234 x (.inl (.inl hx)) x hy rfl, fun hy => h5 x (.inl (.inl (.inl hx))) c.dirLine rfl hy,
      fun hy => h7 x (.inl (.inl (.inl (.inl hx)))) x hy rfl⟩
  · exact fun x hx => ⟨fun hy => h123 x (.inr hx) x hy rfl,
      fun hy => h1234 x (.inl (.inr hx)) x hy rfl, fun hy => h5 x (.inl (.inl (.inr hx))) c.dirLine rfl hy,
      fun hy => h7 x (.inl (.inl (.inl (.inr hx)))) x hy rfl⟩
  · exact fun x hx => ⟨fun hy => h1234 x (.inr hx) x hy rfl, fun hy => h5 x (.inl (.inr hx)) c.dirLine rfl hy,
      fun hy => h7 x (.inl (.inl (.inr hx))) x hy rfl⟩
  · exact fun x hx => ⟨fun hy => h5 x (.inr hx) c.dirLine rfl hy, fun hy => h7 x (.inl (.inr hx)) x hy rfl⟩
  · exact fun hy => h7 c.dirLine (.inr rfl) c.dirLine hy rfl

theorem getD_inj {l : List Nat} (hl : l.Nodup) {i j : Nat} (hi : i < l.length) (hj : j < l.length)
    (e : l.getD i 0 = l.getD j 0) : i = j := by
  simp only [List.getD, hi, hj, List.getElem?_eq_getElem, Option.getD_some] at e
  exact (List.Nodup.getElem_inj_iff hl).1 e

theorem codeLine_inj (h : validConfig c = true) : ∀ i < c.ncc, ∀ j < c.ncc, codeLine c i = codeLine c j → i = j := by
  have hl := (lengths_of_valid h).2.2.2.2.2.1
  exact fun i hi j hj e => getD_inj (roles_disjoint h).2.2.1 (by omega) (by omega) e

theorem addressLine_inj (h : validConfig c = true) :
    ∀ i < c.naw, ∀ j < c.naw, addressLine c i = addressLine c j → i = j := by
  have hl := (lengths_of_valid h).2.2.2.2.2.2.1
  exact fun i hi j hj e => getD_inj (roles_disjoint h).2.2.2.1 (by omega) (by omega) e

theorem indicatorLine_inj (h : validConfig c = true) :
    ∀ i < 3, ∀ j < 3, indicatorLine c i = indicatorLine c j → i = j := by
  have hl := (lengths_of_valid h).2.2.2.2.2.2.2
  exact fun i hi j hj e => getD_inj (roles_disjoint h).2.2.2.2.1 (by omega) (by omega) e

/-- The bits of FULL(m) (R21). -/
theorem full_getLsbD (h : validConfig c = true) {m : Nat} (hm : m < c.modules) (k : Nat) (hk : k < 32) :
    (full c m).getLsbD k = decide (k < colCount c m) := by
  have hc := colCount_le h hm
  have hb : ∀ n < 32, ∀ k < 32, (bit32 n - 1#32).getLsbD k = decide (k < n) := by decide +kernel
  unfold full
  split
  · next e =>
    rw [e]
    have : ∀ k, k < 32 → (0xFFFFFFFF#32).getLsbD k = decide (k < 32) := by decide
    exact this k hk
  · exact hb _ (by omega) _ hk

end Sys2Proof.Machine
end

