-- ==== Sys2Proof/Laws/PerInstr.lean ====
section
/-! SUPPORT. Statements about the commands as syntax, one lemma per constructor: the OP field of the encoded word is
the opcode of 30_encoding.md R104, and it is one of the assigned ones (R106). -/

namespace Sys2Proof

theorem fieldOp_wordOf (op a b c : Nat) : fieldOp (wordOf op a b c) = op % 256 := by
  have h : (wordOf op a b c).extractLsb' 24 8 = BitVec.ofNat 8 op := by
    ext i hi
    simp only [wordOf, BitVec.getElem_extractLsb', BitVec.getLsbD_append]
    have h1 : ¬ 24 + i < 8 := by omega
    have h2 : ¬ 24 + i - 8 < 8 := by omega
    have h3 : ¬ 24 + i - 8 - 8 < 8 := by omega
    have h4 : 24 + i - 8 - 8 - 8 = i := by omega
    simp [h1, h2, h3, h4, BitVec.getLsbD_eq_getElem hi]
  simp [fieldOp, h]

end Sys2Proof

namespace Sys2Proof.Laws.OpcodeField

/-- The OP field of the command word is the command's opcode, which is none of 0x00, 0x0A to 0x0F and 0x20 to 0xFF. -/
def Statement (i : Instr) : Prop :=
  fieldOp (encode i) = opcode i ∧ (1 ≤ opcode i ∧ opcode i ≤ 9 ∨ 0x10 ≤ opcode i ∧ opcode i ≤ 0x1F)

theorem init : Statement .init :=
  ⟨by rw [encode, fieldOp_wordOf, opcode], by simp [opcode]⟩

theorem wrdes (r : Nat) (m : Nat) : Statement (.wrdes r m) :=
  ⟨by rw [encode, fieldOp_wordOf, opcode], by simp [opcode]⟩

theorem rdcur (r : Nat) (m : Nat) : Statement (.rdcur r m) :=
  ⟨by rw [encode, fieldOp_wordOf, opcode], by simp [opcode]⟩

theorem paint (f : Bool) : Statement (.paint f) :=
  ⟨by rw [encode, fieldOp_wordOf, opcode], by simp [opcode]⟩

theorem clear : Statement .clear :=
  ⟨by rw [encode, fieldOp_wordOf, opcode], by simp [opcode]⟩

theorem fill : Statement .fill :=
  ⟨by rw [encode, fieldOp_wordOf, opcode], by simp [opcode]⟩

theorem inverse : Statement .inverse :=
  ⟨by rw [encode, fieldOp_wordOf, opcode], by simp [opcode]⟩

theorem magnetize : Statement .magnetize :=
  ⟨by rw [encode, fieldOp_wordOf, opcode], by simp [opcode]⟩

theorem rddes (r : Nat) (m : Nat) : Statement (.rddes r m) :=
  ⟨by rw [encode, fieldOp_wordOf, opcode], by simp [opcode]⟩

theorem fire (r : Nat) (m : Nat) (c : Nat) (s : Bool) : Statement (.fire r m c s) :=
  ⟨by rw [encode, fieldOp_wordOf, opcode], by simp [opcode]⟩

theorem transmit (p : Bool) : Statement (.transmit p) :=
  ⟨by rw [encode, fieldOp_wordOf, opcode], by simp [opcode]⟩

theorem clrimg : Statement .clrimg :=
  ⟨by rw [encode, fieldOp_wordOf, opcode], by simp [opcode]⟩

theorem setrowset (r : Nat) : Statement (.setrowset r) :=
  ⟨by rw [encode, fieldOp_wordOf, opcode], by simp [opcode]⟩

theorem setrowreset (r : Nat) : Statement (.setrowreset r) :=
  ⟨by rw [encode, fieldOp_wordOf, opcode], by simp [opcode]⟩

theorem getrowset : Statement .getrowset :=
  ⟨by rw [encode, fieldOp_wordOf, opcode], by simp [opcode]⟩

theorem getrowreset : Statement .getrowreset :=
  ⟨by rw [encode, fieldOp_wordOf, opcode], by simp [opcode]⟩

theorem setcol (m : Nat) (c : Nat) : Statement (.setcol m c) :=
  ⟨by rw [encode, fieldOp_wordOf, opcode], by simp [opcode]⟩

theorem getcol (m : Nat) : Statement (.getcol m) :=
  ⟨by rw [encode, fieldOp_wordOf, opcode], by simp [opcode]⟩

theorem setaddr : Statement .setaddr :=
  ⟨by rw [encode, fieldOp_wordOf, opcode], by simp [opcode]⟩

theorem getaddr : Statement .getaddr :=
  ⟨by rw [encode, fieldOp_wordOf, opcode], by simp [opcode]⟩

theorem setdir (d : Bool) : Statement (.setdir d) :=
  ⟨by rw [encode, fieldOp_wordOf, opcode], by simp [opcode]⟩

theorem getdir : Statement .getdir :=
  ⟨by rw [encode, fieldOp_wordOf, opcode], by simp [opcode]⟩

theorem setind (ib : Nat) : Statement (.setind ib) :=
  ⟨by rw [encode, fieldOp_wordOf, opcode], by simp [opcode]⟩

theorem getind : Statement .getind :=
  ⟨by rw [encode, fieldOp_wordOf, opcode], by simp [opcode]⟩

theorem rdimg (k : Nat) : Statement (.rdimg k) :=
  ⟨by rw [encode, fieldOp_wordOf, opcode], by simp [opcode]⟩

end Sys2Proof.Laws.OpcodeField
end

