-- ==== Sys2Proof/Laws/Step.lean ====
section
/-! SUPPORT. One inversion of the step: everything the host's next action can lead to. -/

namespace Sys2Proof.Machine

theorem exec_some (i : Instr) (s : State) : ∃ t, exec i s = .next t := by
  rw [exec_eq]; exact State.guarded_next _ _ _

theorem runAccepted_some (s : State) : ∃ t, runAccepted s = .next t := by
  unfold runAccepted; split
  · exact exec_some _ _
  · exact ⟨_, rfl⟩

/-- What an accepted command can answer. -/
theorem runAccepted_cases (s t : State) (h : runAccepted s = .next t) :
    (∃ i, decode s.cmd = some i ∧ exec i s = .next t) ∨ (decode s.cmd = none ∧ t = s.illegalWord) := by
  unfold runAccepted at h
  split at h
  · next i hd => exact .inl ⟨i, hd, h⟩
  · next hd => injection h with h; exact .inr ⟨hd, h.symm⟩

/-- How the accepted command's run ends under the reset input (70_reset_and_hazards.md R342). -/
def endUnder (acc u : State) : List Nat → State
  | [] => u
  | k :: ks => (acc.abandonAt k u).resetUnder ks

theorem underReset_next (rst : List Nat) (acc u : State) :
    underReset rst acc (.next u) = .next (endUnder acc u rst) := by cases rst <;> rfl

/-- Everything a step can do. -/
theorem step_cases (s t : State) (h : step s = .next t) :
    (s.inputs = [] ∧ t = s) ∨
    (∃ rst rest, s.inputs = .reset rst :: rest ∧ t = State.resetUnder { s with inputs := rest } rst) ∨
    (∃ cmd wdata rst rest, s.inputs = .command cmd wdata rst :: rest ∧ s.ready = false ∧ t = s) ∨
    (∃ cmd wdata rst rest u, s.inputs = .command cmd wdata rst :: rest ∧ s.ready = true ∧
      runAccepted (s.accept cmd wdata rest) = .next u ∧ t = endUnder (s.accept cmd wdata rest) u rst) := by
  unfold step serve at h
  split at h
  · next hi => injection h with h; exact .inl ⟨hi, h.symm⟩
  · next rst rest hi => injection h with h; exact .inr (.inl ⟨rst, rest, hi, h.symm⟩)
  · next cmd wdata rst rest hi =>
    split at h
    · next hr =>
      obtain ⟨u, hu⟩ := runAccepted_some (s.accept cmd wdata rest)
      rw [hu, underReset_next] at h
      injection h with h
      exact .inr (.inr (.inr ⟨cmd, wdata, rst, rest, u, hi, hr, hu, h.symm⟩))
    · next hr =>
      injection h with h
      exact .inr (.inr (.inl ⟨cmd, wdata, rst, rest, hi, by simpa using hr, h.symm⟩))

theorem step_some (s : State) : ∃ t, step s = .next t := by
  unfold step serve
  split
  · exact ⟨_, rfl⟩
  · exact ⟨_, rfl⟩
  · next cmd wdata rst rest hi =>
    split
    · obtain ⟨u, hu⟩ := runAccepted_some (s.accept cmd wdata rest)
      exact ⟨_, by rw [hu, underReset_next]⟩
    · exact ⟨_, rfl⟩

/-- A presented, accepted and undisturbed command is run from the accepted state. -/
theorem step_accept (s : State) (cmd wdata : Word) (rest : List Input) (hi : s.inputs = .command cmd wdata [] :: rest)
    (hr : s.ready = true) : step s = runAccepted (s.accept cmd wdata rest) := by
  simp [step, serve, hi, hr, underReset]

@[simp] theorem State.resetUnder_cfg (s : State) (ks : List Nat) : (s.resetUnder ks).cfg = s.cfg := by
  obtain ⟨evs, h⟩ := s.resetUnder_spec ks; rw [h]; rfl

end Sys2Proof.Machine
end

