-- ==== Sys2Proof/Tests/Slice0.lean ====
section
/-! SUPPORT. Tests of single steps against the worked vectors of 95_test_vectors.md, decoding of words written out from
30_encoding.md R104, ill-formed commands, and a witness for the hypotheses of every statement. -/

namespace Sys2Proof.Tests

open Sys2Proof Sys2Proof.Machine

set_option Elab.async false

/-! ## Configurations and states (95_test_vectors.md section 1) -/

/-- EX2: one module of 5 columns. -/
def ex2 : Config :=
  { Config.ex1 with rows := 1, cols := [5], addr := [2], rowSetLine := [0], rowResetLine := [2] }

/-- EX3: EX1 in AUTO mode. -/
def ex3 : Config := { Config.ex1 with indMode := .auto }

/-- EX1 with INVERSE_CYCLE = true (vector DM13). -/
def exCycle : Config := { Config.ex1 with inverseCycle := true }

/-- EX4: two modules of widths 32 and 3. -/
def ex4 : Config :=
  { Config.ex1 with
    rows := 1, modules := 2, cols := [32, 3], maxCol := 32, ncc := 5, cct := List.range 32, naw := 1, addr := [0, 1],
    nl := 12, rowSetLine := [0], rowResetLine := [1], colCodeLine := [2, 3, 4, 5, 6], addrLine := [7], dirLine := 8,
    indLine := [9, 10, 11] }

/-- An image given as a number with line 0 at bit 0. -/
def imgOf (c : Config) (n : Nat) : Memory := driveField c id c.nl n zeroImage

/-- The image of a state as such a number. -/
def imgNum (s : State) : Nat := readField s.img id s.cfg.nl

/-- A fault-free state with an empty trace: both snapshots `snap`, the image `img`. -/
def start (c : Config) (snap : Snapshot) (img : Nat) : State :=
  { State.resetWith c with trace := [], cur := snap, des := snap, img := imgOf c img }

/-- EX1 with zero snapshots. -/
def zero1 (img : Nat) : State := start Config.ex1 [[0], [0]] img

/-- EX1 with CUR = DES = [[5],[0]]. -/
def five1 : State := start Config.ex1 [[5], [0]] 0

/-- EX4 with zero snapshots. -/
def zero4 (img : Nat) : State := start ex4 [[0, 0]] img

/-- EX1 in the fault state. -/
def broken (e : BitVec 3) : State := { zero1 0x548 with faulted := true, faultCode := e }

/-- A command presented as the host's next action. -/
def offer (s : State) (cmd wdata : Word) : State := { s with inputs := [.command cmd wdata []] }

/-- The state after one step that is a next state. -/
def after (s : State) : State :=
  match step s with
  | .next t => t
  | .fault _ => s
  | .refused _ => s

/-- The state after one command. -/
def run (s : State) (cmd wdata : Word) : State := after (offer s cmd wdata)

/-- STATUS and RDATA. -/
def resp (s : State) : Nat × Nat := (s.status.toNat, s.rdata.toNat)

/-- Every configuration of section 1 is valid. -/
theorem test_configurations_valid :
    validConfig Config.ex1 = true ∧ validConfig ex2 = true ∧ validConfig ex3 = true ∧ validConfig ex4 = true ∧
    validConfig exCycle = true := by decide +kernel

/-- The changes of vector Z2 are invalid. -/
theorem test_configurations_invalid :
    validConfig { Config.ex1 with dirLine := 3 } = false ∧ validConfig { Config.ex1 with cols := [9] } = false ∧
    validConfig { Config.ex1 with rows := 0 } = false ∧
    validConfig { Config.ex1 with cct := [1, 2, 3, 4, 5, 6, 7, 16] } = false ∧
    validConfig { Config.ex1 with addr := [4] } = false ∧
    validConfig { Config.ex1 with indLine := [11, 12, 16] } = false := by decide +kernel

/-! ## Well-formedness: one ill-formed command per check (30_encoding.md R101, R108) -/

theorem test_wf_refuses_row : (Instr.wrdes 256 0).wf = false ∧ (Instr.wrdes 255 0).wf = true := by decide

theorem test_wf_refuses_module : (Instr.getcol 256).wf = false ∧ (Instr.getcol 255).wf = true := by decide

theorem test_wf_refuses_image_word : (Instr.rdimg 256).wf = false ∧ (Instr.rdimg 255).wf = true := by decide

theorem test_wf_refuses_column : (Instr.fire 0 0 32 true).wf = false ∧ (Instr.setcol 0 32).wf = false ∧
    (Instr.fire 0 0 31 true).wf = true := by decide

theorem test_wf_refuses_flags : (Instr.setind 8).wf = false ∧ (Instr.setind 7).wf = true := by decide

/-! ## Decoding: every row's word, written out bit by bit as OP, A, B, C from R104 -/

theorem test_decode_system : decode 0b00000001_00000000_00000000_00000000#32 = some .init := by decide +kernel

theorem test_decode_dot_matrix :
    decode 0b00000010_00000101_00000111_00000000#32 = some (.wrdes 5 7) ∧
    decode 0b00000011_11111110_00000001_00000000#32 = some (.rdcur 254 1) ∧
    decode 0b00000100_00000000_00000000_00000001#32 = some (.paint true) ∧
    decode 0b00000100_00000000_00000000_00000000#32 = some (.paint false) ∧
    decode 0b00000101_00000000_00000000_00000000#32 = some .clear ∧
    decode 0b00000110_00000000_00000000_00000000#32 = some .fill ∧
    decode 0b00000111_00000000_00000000_00000000#32 = some .inverse ∧
    decode 0b00001000_00000000_00000000_00000000#32 = some .magnetize ∧
    decode 0b00001001_00000010_10000000_00000000#32 = some (.rddes 2 128) := by decide +kernel

theorem test_decode_assembly :
    decode 0b00010000_00000001_00000010_10000011#32 = some (.fire 1 2 3 true) ∧
    decode 0b00010000_00000011_00000001_00011111#32 = some (.fire 3 1 31 false) ∧
    decode 0b00010001_00000000_00000000_00000001#32 = some (.transmit true) ∧
    decode 0b00010010_00000000_00000000_00000000#32 = some .clrimg := by decide +kernel

theorem test_decode_accessors :
    decode 0b00010011_00001001_00000000_00000000#32 = some (.setrowset 9) ∧
    decode 0b00010100_00001010_00000000_00000000#32 = some (.setrowreset 10) ∧
    decode 0b00010101_00000000_00000000_00000000#32 = some .getrowset ∧
    decode 0b00010110_00000000_00000000_00000000#32 = some .getrowreset ∧
    decode 0b00010111_00000000_00000110_00010001#32 = some (.setcol 6 17) ∧
    decode 0b00011000_00000000_00000110_00000000#32 = some (.getcol 6) ∧
    decode 0b00011001_00000000_00000000_00000000#32 = some .setaddr ∧
    decode 0b00011010_00000000_00000000_00000000#32 = some .getaddr ∧
    decode 0b00011011_00000000_00000000_00000001#32 = some (.setdir true) ∧
    decode 0b00011100_00000000_00000000_00000000#32 = some .getdir ∧
    decode 0b00011101_00000000_00000000_00000110#32 = some (.setind 6) ∧
    decode 0b00011110_00000000_00000000_00000000#32 = some .getind ∧
    decode 0b00011111_00000011_00000000_00000000#32 = some (.rdimg 3) := by decide +kernel

/-- Vectors F1 to F12: illegal words. -/
theorem test_decode_illegal :
    ([0x00000000#32, 0x0A000000#32, 0x20000000#32, 0xFF000000#32, 0x04000002#32, 0x10000020#32, 0x100000FF#32,
      0x02000001#32, 0x1F000001#32, 0x1D000008#32, 0x17000020#32, 0x02050001#32].all fun w => decode w == none) = true := by
  decide +kernel

/-- The encoder gives the words of section 3. -/
theorem test_encode_words :
    encode (.fire 1 0 3 false) = 0x10010003#32 ∧ encode (.fire 0 1 2 true) = 0x10000182#32 ∧
    encode (.setcol 0 3) = 0x17000003#32 ∧ encode (.setrowreset 1) = 0x14010000#32 ∧
    encode (.rdimg 1) = 0x1F010000#32 ∧ encode (.setind 5) = 0x1D000005#32 := by decide +kernel

/-! ## Bits, masks and the sweep -/

/-- W9: bit(0b1010, i). -/
theorem test_bit : bit 0b1010 0 = false ∧ bit 0b1010 1 = true ∧ bit 0b1010 2 = false ∧ bit 0b1010 3 = true ∧
    bit 0b1010 31 = false := by decide

/-- FULL and OFF of EX2 and EX4. -/
theorem test_full_and_off : full ex2 0 = 0x1F#32 ∧ full ex4 0 = 0xFFFFFFFF#32 ∧ full ex4 1 = 7#32 ∧ off ex2 0 = 3 ∧
    off ex4 0 = 0 ∧ off ex4 1 = 29 := by decide +kernel

/-- W2: 16 dots on EX1, 35 on EX4. -/
theorem test_sweep_length : (sweep Config.ex1).length = 16 ∧ (sweep ex4).length = 35 := by decide +kernel

/-! ## Dot-matrix commands (section 3.1) -/

/-- DM1. -/
theorem test_wrdes_stores : (run (zero1 0) 0x02000000 5).des = [[5], [0]] ∧ (run (zero1 0) 0x02000000 5).cur = [[0], [0]] ∧
    (run (zero1 0) 0x02000000 5).trace = [] ∧ resp (run (zero1 0) 0x02000000 5) = (0, 0) := by decide +kernel

/-- F16. -/
theorem test_wrdes_bounds : resp (run (zero1 0) 0x02020000 5) = (2, 0) ∧ (run (zero1 0) 0x02020000 5).des = [[0], [0]] ∧
    (run (zero1 0) 0x02020000 5).faultCode = 2 := by decide +kernel

/-- P1 line 4. -/
theorem test_rdcur_reads : resp (run five1 0x03000000 0) = (0, 5) ∧ resp (run five1 0x03010000 0) = (0, 0) := by
  decide +kernel

/-- F17. -/
theorem test_rdcur_bounds : resp (run (zero1 0) 0x03000100 0) = (2, 0) := by decide +kernel

/-- P2 lines 2 and 3: RDDES reads DES, not CUR. -/
theorem test_rddes_reads :
    resp (run { five1 with des := [[0xFFFFFFFA], [0xFFFFFFFF]] } 0x09000000 0) = (0, 0xFFFFFFFA) ∧
    resp (run { five1 with des := [[0xFFFFFFFA], [0xFFFFFFFF]] } 0x09010000 0) = (0, 0xFFFFFFFF) := by decide +kernel

/-- DM4: two AF, 148 events (T7), the image 0x0131, CUR = DES. -/
theorem test_paint_diff : let t := run { zero1 0 with des := [[5], [0]] } 0x04000000 0
    pulses t.trace = 2 ∧ t.trace.length = 148 ∧ imgNum t = 0x131 ∧ t.cur = [[5], [0]] ∧ resp t = (0, 0) := by
  decide +kernel

/-- DM6: 16 AF, the last image 0x0588. -/
theorem test_paint_forced : let t := run five1 0x04000001 0
    pulses t.trace = 16 ∧ imgNum t = 0x588 ∧ t.cur = [[5], [0]] := by decide +kernel

/-- DM8. -/
theorem test_clear : let t := run five1 0x05000000 0xDEADBEEF
    t.cur = [[0], [0]] ∧ t.des = [[0], [0]] ∧ pulses t.trace = 16 ∧ imgNum t = 0x588 := by decide +kernel

/-- DM9: the last image is 0x281. -/
theorem test_fill_narrow : let t := run (start ex2 [[0]] 0) 0x06000000 0
    t.cur = [[0x1F]] ∧ t.des = [[0x1F]] ∧ pulses t.trace = 5 ∧ imgNum t = 0x281 := by decide +kernel

/-- DM10. -/
theorem test_fill_wide : let t := run (zero4 0) 0x06000000 0
    t.cur = [[0xFFFFFFFF, 7]] ∧ pulses t.trace = 35 := by decide +kernel

/-- DM11. -/
theorem test_inverse : let t := run five1 0x07000000 0
    t.des = [[0xFFFFFFFA], [0xFFFFFFFF]] ∧ t.cur = [[5], [0]] ∧ pulses t.trace = 16 ∧ imgNum t = 0x182 := by
  decide +kernel

/-- DM13. -/
theorem test_inverse_cycle : (run (start exCycle [[5], [0]] 0) 0x07000000 0).cur = [[0xFFFFFFFA], [0xFFFFFFFF]] := by
  decide +kernel

/-- DM15. -/
theorem test_magnetize : let t := run five1 0x08000000 2
    pulses t.trace = 4 ∧ imgNum t = 0x131 ∧ t.cur = [[5], [0]] := by decide +kernel

/-- DM17: the old CUR's set dots are fired, then the cycle runs. -/
theorem test_magnetize_cycle : let t := run { five1 with des := [[2], [0]] } 0x08000000 1
    pulses t.trace = 2 ∧ t.cur = [[2], [0]] ∧ imgNum t = 0x131 := by decide +kernel

/-! ## Image assembly and transmission (sections 3.2 and 3.3) -/

/-- A2, A4, A10, A11, A13, A14, A15, A16. -/
theorem test_fire_images :
    imgNum (run (zero1 0xFFFF) 0x10010003 0) = 0x548 ∧ imgNum (run (zero1 0) 0x10000007 0) = 0x584 ∧
    imgNum (run (zero4 0) 0x1000009F 0) = 0x07D ∧ imgNum (run (zero4 0) 0x10000180 0) = 0x0F5 ∧
    imgNum (run (zero4 0) 0x10000182 0) = 0x0FD ∧ imgNum (run (zero4 0) 0x1000001F 0) = 0x17E ∧
    imgNum (run (start ex2 [[0]] 0) 0x10000084 0) = 0x281 ∧
    imgNum (run { zero1 0 with ind := 5 } 0x10000080 0) = 0x2911 := by decide +kernel

/-- A17: AUTO mode, from IND[0] = 0 and from IND[0] = 1. -/
theorem test_fire_toggles :
    imgNum (run (start ex3 [[0], [0]] 0) 0x10000080 0) = 0x911 ∧ (run (start ex3 [[0], [0]] 0) 0x10000080 0).ind = 1 ∧
    imgNum (run { start ex3 [[0], [0]] 0 with ind := 1 } 0x10000080 0) = 0x111 ∧
    (run { start ex3 [[0], [0]] 0 with ind := 1 } 0x10000080 0).ind = 0 := by decide +kernel

/-- T1. -/
theorem test_transmit_pulsed : let t := run (zero1 0x131) 0x11000001 0
    t.trace.length = 74 ∧ (t.trace.filter PinEvent.isWrite).length = 55 ∧ (t.trace.filter PinEvent.isHold).length = 19 ∧
    dataValues t.trace = [false, false, false, false, false, false, false, true, false, false, true, true, false, false,
      false, true] ∧
    risingEdges .clk Pins.reset t.trace = 16 ∧ t.pins = ⟨false, true, false, true, false⟩ ∧ imgNum t = 0x131 := by
  decide +kernel

/-- T4: what the chain of R212 holds after T1, whatever it held before. -/
theorem test_transmit_chain :
    ((Chain.mk (List.replicate 16 true) (List.replicate 16 true) []).seesAll Pins.reset
      (run (zero1 0x131) 0x11000001 0).trace).q = (List.range 16).map fun k => k == 0 || k == 4 || k == 5 || k == 8 := by
  decide +kernel

/-- T5: after the normalisation of R209 the trace of T2 changes no DATA level, so it is equivalent to itself without its
DATA events. -/
theorem test_equivalent_trace : let t := (run (zero1 0) 0x11000000 0).trace
    traceEquiv Pins.reset (t.filter fun e => !(e == .pin .data false)) t = true := by decide +kernel

/-! ## Accessors (section 3.4) -/

/-- X1. -/
theorem test_clrimg : (run (zero1 0x548) 0x12000000 0).img = [] := by decide +kernel

/-- X2, X4. -/
theorem test_setrowset : imgNum (run (zero1 4) 0x13010000 0) = 2 ∧ imgNum (run (zero1 1) 0x13010000 0) = 3 := by
  decide +kernel

/-- X3. -/
theorem test_setrowreset : imgNum (run (zero1 3) 0x14010000 0) = 8 := by decide +kernel

/-- X5, X6. -/
theorem test_getrowset : resp (run (zero1 3) 0x15000000 0) = (0, 0) ∧ resp (run (zero1 0) 0x15000000 0) = (0, 0xFFFFFFFF) := by
  decide +kernel

/-- X7. -/
theorem test_getrowreset : resp (run (zero1 0x548) 0x16000000 0) = (0, 1) := by decide +kernel

/-- X8. -/
theorem test_setcol : imgNum (run (zero1 0xF0) 0x17000003 0) = 0x40 := by decide +kernel

/-- X9, X10. -/
theorem test_getcol : resp (run (zero1 0x40) 0x18000000 0) = (0, 3) ∧
    resp (run (zero1 0) 0x18000000 0) = (0, 0xFFFFFFFF) := by decide +kernel

/-- X23, X24, X26: the windows of EX4. -/
theorem test_getcol_windows : resp (run (zero4 0) 0x18000000 0) = (0, 0) ∧
    resp (run (zero4 0) 0x18000100 0) = (0, 0xFFFFFFFF) ∧ resp (run (zero4 0x7C) 0x18000100 0) = (0, 2) ∧
    resp (run (zero4 0x7C) 0x18000000 0) = (0, 31) := by decide +kernel

/-- X12, X14. -/
theorem test_setaddr : imgNum (run (zero1 0) 0x19000000 6) = 0x200 ∧
    imgNum (run (zero1 0x300) 0x19000000 0xFFFFFFFF) = 0x300 := by decide +kernel

/-- X13. -/
theorem test_getaddr : resp (run (zero1 0x100) 0x1A000000 0) = (0, 1) ∧ resp (run (zero1 0xFEFF) 0x1A000000 0) = (0, 2) := by
  decide +kernel

/-- X15, X16. -/
theorem test_setdir : imgNum (run (zero1 0) 0x1B000001 0) = 0x400 ∧ imgNum (run (zero1 0x400) 0x1B000000 0) = 0 := by
  decide +kernel

/-- X15, X16. -/
theorem test_getdir : resp (run (zero1 0x400) 0x1C000000 0) = (0, 1) ∧ resp (run (zero1 0) 0x1C000000 0) = (0, 0) := by
  decide +kernel

/-- X17: SETIND does not write IMG. -/
theorem test_setind : (run (zero1 0x548) 0x1D000005 0).ind = 5 ∧ imgNum (run (zero1 0x548) 0x1D000005 0) = 0x548 := by
  decide +kernel

/-- X17. -/
theorem test_getind : resp (run { zero1 0 with ind := 5 } 0x1E000000 0) = (0, 5) := by decide +kernel

/-- X18, X19. -/
theorem test_rdimg : resp (run (zero1 0x548) 0x1F000000 0) = (0, 0x548) ∧ resp (run (zero1 0x548) 0x1F010000 0) = (2, 0) := by
  decide +kernel

/-! ## INIT, faults and reset (sections 3.5 to 3.7) -/

/-- S1. -/
theorem test_init : let t := run { five1 with ind := 3 } 0x01000000 0
    t.cur = [[0], [0]] ∧ t.des = [[0], [0]] ∧ t.img = [] ∧ t.ind = 0 ∧ t.trace.length = 432 ∧
    (t.trace.filter PinEvent.isWrite).length = 318 ∧ (t.trace.filter PinEvent.isHold).length = 114 ∧
    pulses t.trace = 0 ∧ (dataValues t.trace).take 16 = (List.range 16).map (fun k => k == 2 || k == 3 || k == 4) := by
  decide +kernel

/-- S3: INIT is refused in the fault state. -/
theorem test_init_refused : resp (run (broken 2) 0x01000000 0) = (4, 2) ∧ (run (broken 2) 0x01000000 0).trace = [] ∧
    imgNum (run (broken 2) 0x01000000 0) = 0x548 := by decide +kernel

/-- F12: ILLEGAL comes before BOUNDS; F13 to F15: BOUNDS. -/
theorem test_fault_order : resp (run (zero1 0) 0x02050001 0) = (1, 0) ∧ (run (zero1 0) 0x02050001 0).faultCode = 1 ∧
    resp (run (zero1 0) 0x10020080 0) = (2, 0) ∧ resp (run (zero1 0) 0x10000180 0) = (2, 0) ∧
    resp (run (zero1 0) 0x1000009F 0) = (2, 0) := by decide +kernel

/-- The refusal of section 3.6: an illegal word is answered 4, not 1. -/
theorem test_refusal_first : resp (run (broken 2) 0x00000000 0) = (4, 2) ∧ (run (broken 2) 0x00000000 0).faultCode = 2 ∧
    resp (run (broken 2) 0x03000000 0) = (4, 2) := by decide +kernel

/-- Z1, Z3: reset leaves the reset values, also from the fault state. -/
theorem test_reset : let t := after { broken 1 with ind := 7, inputs := [.reset []] }
    t.faulted = false ∧ t.faultCode = 0 ∧ t.img = [] ∧ t.ind = 0 ∧ t.ready = true ∧ t.pins = Pins.reset ∧
    t.trace.length = 433 ∧ t.trace.head? = some .rst := by decide +kernel

/-- Z2: an invalid configuration enters the CONFIG fault with no pin event, and GETIND is then refused. -/
theorem test_reset_invalid : let t := after { start { Config.ex1 with dirLine := 3 } [[0], [0]] 0 with inputs := [.reset []] }
    t.faulted = true ∧ t.faultCode = 3 ∧ t.trace = [.rst] ∧ t.ready = true ∧ resp (run t 0x1E000000 0) = (4, 3) := by
  decide +kernel

/-- Z4: reset during the energize pulse of a PAINT, right after its Pin(EN,1), the 72nd event. -/
theorem test_reset_inside_paint :
    let t := after { zero1 0 with des := [[5], [0]], inputs := [.command 0x04000000 0 [72]] }
    t.trace.length = 72 + 433 ∧ (t.trace.drop 70).take 3 = [.pin .latch false, .pin .en true, .rst] ∧
    t.cur = [[0], [0]] ∧ t.des = [[0], [0]] ∧ t.pins = Pins.reset ∧ t.status = 0 := by decide +kernel

/-- The first instruction after reset, as the host places it: SETIND #7 of vector F18. -/
theorem test_fetch_word : (after (State.reset.withFetchWord 32 0x1D000007)).ind = 7 ∧
    decodeTableWord 32 0x1D000007 = some (.setind 7) := by decide +kernel

/-! ## Witnesses: states and operands that meet the hypotheses of the statements

Each theorem is named after its statement. Where a statement has several clauses, the witness has one conjunct per
clause, at the ends of the clause's range. -/

/-- The next state of a command. -/
def out (i : Instr) (s : State) : State :=
  match exec i s with
  | .next t => t
  | .fault _ => s
  | .refused _ => s

theorem step_after (s : State) : step s = .next (after s) := by
  obtain ⟨t, h⟩ := step_some s
  simp [after, h]

theorem exec_out (i : Instr) (s : State) : exec i s = .next (out i s) := by
  obtain ⟨t, h⟩ := exec_some i s
  simp [out, h]

theorem witness_DecodeInvertsEncode :
    (Instr.fire 255 255 31 true).wf = true ∧ (Instr.wrdes 0 0).wf = true ∧ (Instr.setind 7).wf = true ∧
    (Instr.rdimg 255).wf = true := by decide

theorem witness_EncodeInvertsDecode :
    decode 0x10FFFF9F#32 = some (.fire 255 255 31 true) ∧ decode 0x1FFF0000#32 = some (.rdimg 255) := by decide +kernel

theorem witness_WordsDecodeByTheTable :
    (decode 0x00000000#32 = none ∧ (opcodeRows.all fun row => !row.accepts 0x00000000#32) = true) ∧
    (decode 0x1FFF0000#32 = some (.rdimg 255) ∧ (opcodeRows.any fun row => row.accepts 0x1FFF0000#32) = true) ∧
    (∃ x ∈ opcodeRows, ∃ y ∈ opcodeRows, x ≠ y) := by decide +kernel

theorem witness_OperandFieldsOfEachRow :
    (0x02FFFF00#32 &&& 0xFF0000FF#32 = 0x02000000#32 ∧ 0x03FF0000#32 &&& 0xFF0000FF#32 = 0x03000000#32) ∧
    (0x0900FF00#32 &&& 0xFF0000FF#32 = 0x09000000#32 ∧ 0x04000001#32 &&& 0xFFFFFFFE#32 = 0x04000000#32) ∧
    (0x10FFFF9F#32 &&& 0xFF000060#32 = 0x10000000#32 ∧ 0x11000001#32 &&& 0xFFFFFFFE#32 = 0x11000000#32) ∧
    (0x13FF0000#32 &&& 0xFF00FFFF#32 = 0x13000000#32 ∧ 0x14FF0000#32 &&& 0xFF00FFFF#32 = 0x14000000#32) ∧
    (0x1700FF1F#32 &&& 0xFFFF00E0#32 = 0x17000000#32 ∧ 0x1800FF00#32 &&& 0xFFFF00FF#32 = 0x18000000#32) ∧
    (0x1B000001#32 &&& 0xFFFFFFFE#32 = 0x1B000000#32 ∧ 0x1D000007#32 &&& 0xFFFFFFF8#32 = 0x1D000000#32) ∧
    0x1FFF0000#32 &&& 0xFF00FFFF#32 = 0x1F000000#32 := by decide

theorem witness_StepRunsTheDecodedCommand :
    (offer (zero1 0) 0x10010087 0).inputs = .command 0x10010087 0 [] :: [] ∧ (offer (zero1 0) 0x10010087 0).ready = true ∧
    decode 0x10010087#32 = some (.fire 1 0 7 true) := by decide +kernel

/-- Refused; illegal; out of bounds at c = COLS[0] and at r = R; in bounds at c = COLS[0] - 1 and at r = R - 1. -/
theorem witness_PrologueOrder :
    ((offer (broken 2) 0x10000088 0).inputs = [.command 0x10000088 0 []] ∧ (offer (broken 2) 0x10000088 0).ready = true ∧
      (offer (broken 2) 0x10000088 0).faulted = true) ∧
    ((offer (zero1 0) 0 0).ready = true ∧ (offer (zero1 0) 0 0).faulted = false ∧ decode 0x00000000#32 = none) ∧
    ((offer (zero1 0) 0x10000088 0).ready = true ∧ (offer (zero1 0) 0x10000088 0).faulted = false ∧
      decode 0x10000088#32 = some (.fire 0 0 8 true) ∧ boundsCondition (zero1 0).cfg (.fire 0 0 8 true)) ∧
    (decode 0x13020000#32 = some (.setrowset 2) ∧ boundsCondition (zero1 0).cfg (.setrowset 2)) ∧
    (decode 0x10000087#32 = some (.fire 0 0 7 true) ∧ ¬ boundsCondition (zero1 0).cfg (.fire 0 0 7 true)) ∧
    (decode 0x13010000#32 = some (.setrowset 1) ∧ ¬ boundsCondition (zero1 0).cfg (.setrowset 1)) := by
  simp only [boundsCondition]; decide +kernel

theorem witness_RefusedCommandHasNoEffect :
    (broken 2).faulted = true ∧ (offer (broken 2) 0 0).faulted = true ∧ (offer (broken 2) 0 0).ready = true ∧
    (offer (broken 2) 0 0).inputs = [.command 0 0 []] := by decide +kernel

/-- BOUNDS; ILLEGAL; a faulted state that stays faulted; one whose next action is a reset. -/
theorem witness_FaultsArePreciseAndSticky :
    ((zero1 0).faulted = false ∧ boundsCondition (zero1 0).cfg (.rdimg 1)) ∧
    ((offer (zero1 0) 0 0).faulted = false ∧ (offer (zero1 0) 0 0).ready = true ∧ decode 0x00000000#32 = none) ∧
    ((offer (broken 2) 0 0).faulted = true ∧ (after (offer (broken 2) 0 0)).faulted = true ∧
      step (offer (broken 2) 0 0) = .next (after (offer (broken 2) 0 0))) ∧
    ({ broken 2 with inputs := [.reset []] }.faulted = true ∧
      (after { broken 2 with inputs := [.reset []] }).faulted = false) := by
  refine ⟨?_, ?_, ⟨?_, ?_, step_after _⟩, ?_⟩ <;> (try simp only [boundsCondition]) <;> decide +kernel

/-- The nine commands with a bounds condition, each at its last index in bounds. -/
theorem witness_CommandsComplete :
    (zero1 0).faulted = false ∧ ¬ boundsCondition (zero1 0).cfg (.wrdes 1 0) ∧ ¬ boundsCondition (zero1 0).cfg (.rdcur 1 0) ∧
    ¬ boundsCondition (zero1 0).cfg (.rddes 1 0) ∧ ¬ boundsCondition (zero1 0).cfg (.fire 1 0 7 false) ∧
    ¬ boundsCondition (zero1 0).cfg (.setrowset 1) ∧ ¬ boundsCondition (zero1 0).cfg (.setrowreset 1) ∧
    ¬ boundsCondition (zero1 0).cfg (.setcol 0 7) ∧ ¬ boundsCondition (zero1 0).cfg (.getcol 0) ∧
    ¬ boundsCondition (zero1 0).cfg (.rdimg 0) ∧ ¬ boundsCondition (zero1 0).cfg .init := by
  simp only [boundsCondition]; decide +kernel

theorem line_imgOf_zero (c : Config) (L : Nat) : (imgOf c 0).line L = false := by
  have h : ∀ n, (driveField c id n 0 zeroImage) = zeroImage := by
    intro n
    induction n with
    | zero => rfl
    | succ n ih => rw [driveField_succ, ih, bit_zero, putLine_zeroImage]
  rw [imgOf, h]; exact Memory.line_zeroImage L

/-- A state that is not the reset state, meets the invariant, and takes a step. -/
theorem witness_StepKeepsTheInvariant :
    (offer five1 0x10000082 0).Inv ∧ step (offer five1 0x10000082 0) = .next (after (offer five1 0x10000082 0)) := by
  refine ⟨⟨?_, ?_, ?_, fun L _ => by simp only [offer, five1, start]; exact line_imgOf_zero _ L, ?_, ?_, ?_, ?_, rfl, ⟨rfl, rfl, rfl, rfl⟩, rfl⟩, step_after _⟩ <;>
    decide +kernel

theorem witness_ConfigurationIsNeverWritten :
    step (offer five1 0x10000082 0) = .next (after (offer five1 0x10000082 0)) := step_after _

theorem witness_TraceOnlyGrows :
    step (offer five1 0x10000082 0) = .next (after (offer five1 0x10000082 0)) ∧
    (after (offer five1 0x10000082 0)).trace ≠ (offer five1 0x10000082 0).trace := ⟨step_after _, by decide +kernel⟩

theorem witness_ResetLeavesTheResetValues : { five1 with inputs := [.reset []] }.inputs = .reset [] :: [] ∧
    validConfig { five1 with inputs := [.reset []] }.cfg = true := by decide +kernel

theorem witness_InvalidConfigurationFaultsAtReset :
    { start { Config.ex1 with nl := 13 } [] 0 with inputs := [.reset []] }.inputs = .reset [] :: [] ∧
    validConfig { start { Config.ex1 with nl := 13 } [] 0 with inputs := [.reset []] }.cfg = false := by decide +kernel

/-- At the first and after the last of FIRE's 74 events. -/
theorem witness_ResetAbandonsTheCommand : ∀ k ∈ [0, 74],
    { zero1 0 with inputs := [.command 0x10000080 0 [k]] }.inputs = .command 0x10000080 0 [k] :: [] ∧
    { zero1 0 with inputs := [.command 0x10000080 0 [k]] }.ready = true ∧
    decode 0x10000080#32 = some (.fire 0 0 0 true) ∧
    (out (.fire 0 0 0 true) { zero1 0 with cmd := 0x10000080, wdata := 0, seq := .busy ⟨1, 1, 1, 1, 1, 1⟩, inputs := [] }).trace.length
      = 74 := by decide +kernel

/-- A reset cut twice, at its 5th event and again at its 2nd; a command cut, and its reset cut. -/
theorem witness_CutResetsEndInTheResetState :
    (after { five1 with inputs := [.reset [5, 2]] }).trace.length = 6 + 3 + 433 - 2 ∧
    { five1 with inputs := [.command 0x05000000 0 [3, 1]] }.ready = true := by decide +kernel

theorem witness_PortWaits :
    ({ offer (zero1 0) 0x05000000 0 with seq := Sequencer.start }.ready = false ∧
      { offer (zero1 0) 0x05000000 0 with seq := Sequencer.start }.inputs = .command 0x05000000 0 [] :: []) ∧
    (zero1 0).inputs = [] := by decide +kernel

/-- The last word of EX1 and of EX4. -/
theorem witness_WrdesWritesOneWord :
    ((zero1 0).faulted = false ∧ (zero1 0).des.fits (zero1 0).cfg = true ∧ 1 < (zero1 0).cfg.rows ∧
      0 < (zero1 0).cfg.modules) ∧
    ((zero4 0).faulted = false ∧ (zero4 0).des.fits (zero4 0).cfg = true ∧ 0 < (zero4 0).cfg.rows ∧
      1 < (zero4 0).cfg.modules) := by decide +kernel

theorem witness_SnapshotReadsAnswerOneWord :
    (zero4 0).faulted = false ∧ 0 < (zero4 0).cfg.rows ∧ 1 < (zero4 0).cfg.modules := by decide +kernel

/-- The two dots of DM4, and no dot of DM5. -/
theorem witness_PaintFiresTheDifference :
    ({ zero1 0 with des := [[5], [0]] }.faulted = false ∧
      [⟨⟨0, 0, 0⟩, true⟩, ⟨⟨0, 0, 2⟩, true⟩] =
        ((sweep Config.ex1).map fun d => (⟨d, (Snapshot.word [[5], [0]] d.r d.m).getLsbD d.c⟩ : Fire)).filter
          (fun f => false || f.set != (Snapshot.word [[0], [0]] f.dot.r f.dot.m).getLsbD f.dot.c)) ∧
    [] = ((sweep Config.ex1).map fun d => (⟨d, (Snapshot.word [[5], [0]] d.r d.m).getLsbD d.c⟩ : Fire)).filter
          (fun f => false || f.set != (Snapshot.word [[5], [0]] f.dot.r f.dot.m).getLsbD f.dot.c) := by decide +kernel

theorem witness_PaintFireCounts : ∀ force,
    { zero1 0 with des := [[5], [0]] }.faulted = false ∧ validConfig (zero1 0).cfg = true ∧
    (out (.paint force) { zero1 0 with des := [[5], [0]] }).trace =
      { zero1 0 with des := [[5], [0]] }.trace ++ (out (.paint force) { zero1 0 with des := [[5], [0]] }).trace ∧
    exec (.paint force) { zero1 0 with des := [[5], [0]] } =
      .next (out (.paint force) { zero1 0 with des := [[5], [0]] }) :=
  fun _ => ⟨rfl, test_configurations_valid.1, rfl, exec_out _ _⟩

theorem inSync_start (c : Config) (snap : Snapshot) (img : Nat) : (start c snap img).inSync := fun _ _ _ _ => rfl

/-- PAINT; PAINT 0 in agreement; a command that keeps the agreement, and the two that can break it; commands that leave
the snapshots alone. -/
theorem witness_PaintConverges :
    (five1.faulted = false ∧ exec (.paint false) five1 = .next (out (.paint false) five1)) ∧
    (validConfig five1.cfg = true ∧ five1.inSync) ∧
    exec .clear five1 = .next (out .clear five1) ∧ exec (.wrdes 0 0) five1 = .next (out (.wrdes 0 0) five1) ∧
    (exec .inverse five1 = .next (out .inverse five1) ∧ five1.cfg.inverseCycle = false) ∧
    exec (.fire 0 0 0 true) five1 = .next (out (.fire 0 0 0 true) five1) ∧
    exec (.setcol 0 7) five1 = .next (out (.setcol 0 7) five1) :=
  ⟨⟨rfl, exec_out _ _⟩, ⟨test_configurations_valid.1, inSync_start _ _ _⟩, exec_out _ _, exec_out _ _,
    ⟨exec_out _ _, rfl⟩, exec_out _ _, exec_out _ _⟩

theorem witness_ClearZeroesAndFiresEveryDot : (zero4 0).faulted = false ∧
    ((sweep (zero4 0).cfg).map fun d => (⟨d, false⟩ : Fire)).length = 35 := by decide +kernel

theorem witness_FillSetsTheColumnMasks : (zero4 0).faulted = false ∧ validConfig (zero4 0).cfg = true ∧
    ((sweep (zero4 0).cfg).map fun d => (⟨d, true⟩ : Fire)).length = 35 ∧ 0 < (zero4 0).cfg.rows ∧
    1 < (zero4 0).cfg.modules := by decide +kernel

/-- Both values of INVERSE_CYCLE. -/
theorem witness_InverseComplementsTheDisplay :
    (five1.faulted = false ∧ validConfig five1.cfg = true ∧ five1.cfg.inverseCycle = false ∧ 1 < five1.cfg.rows) ∧
    ((start exCycle [[5], [0]] 0).faulted = false ∧ validConfig (start exCycle [[5], [0]] 0).cfg = true ∧
      (start exCycle [[5], [0]] 0).cfg.inverseCycle = true) := by decide +kernel

theorem witness_InverseReadingsAgree : five1.faulted = false ∧ validConfig five1.cfg = true ∧
    exec .inverse five1 = .next (out .inverse five1) := ⟨rfl, test_configurations_valid.1, exec_out _ _⟩

/-- N = 2 on DM15's state: four fires; N = 0: none. -/
theorem witness_MagnetizeRefiresTheSetDots : five1.faulted = false ∧
    [⟨⟨0, 0, 0⟩, true⟩, ⟨⟨0, 0, 2⟩, true⟩] =
      ((sweep five1.cfg).filter fun d => (five1.cur.word d.r d.m).getLsbD d.c).map (fun d => (⟨d, true⟩ : Fire)) ∧
    { five1 with wdata := 2 }.wdata.toNat = 2 ∧ five1.wdata.toNat = 0 := by decide +kernel

theorem witness_SnapshotsAgreeAfterTheCommands :
    five1.faulted = false ∧ exec .init five1 = .next (out .init five1) ∧
    exec (.paint true) five1 = .next (out (.paint true) five1) ∧ exec .clear five1 = .next (out .clear five1) ∧
    exec .fill five1 = .next (out .fill five1) ∧ exec .magnetize five1 = .next (out .magnetize five1) ∧
    (exec .inverse (start exCycle [[5], [0]] 0) = .next (out .inverse (start exCycle [[5], [0]] 0)) ∧
      (start exCycle [[5], [0]] 0).cfg.inverseCycle = true) ∧
    (exec .inverse five1 = .next (out .inverse five1) ∧ five1.cfg.inverseCycle = false) :=
  ⟨rfl, exec_out _ _, exec_out _ _, exec_out _ _, exec_out _ _, exec_out _ _, ⟨exec_out _ _, rfl⟩, exec_out _ _, rfl⟩

/-- The last dot of EX1 in STATIC mode, the first of EX3 in AUTO mode. -/
theorem witness_FireActuatesOneDot :
    ((zero1 0).faulted = false ∧ 1 < (zero1 0).cfg.rows ∧ 0 < (zero1 0).cfg.modules ∧ 7 < (zero1 0).cfg.cols.getD 0 0 ∧
      (zero1 0).cfg.indMode = .static) ∧
    ((start ex3 [] 0).faulted = false ∧ 0 < ex3.rows ∧ 0 < ex3.modules ∧ 0 < ex3.cols.getD 0 0 ∧ ex3.indMode = .auto ∧
      0 = ex3.indToggle) := by decide +kernel

/-- A line of each role: A2's row reset, code and direction lines, A13's address line, A16's indicator, A13's row set. -/
theorem witness_AssembledImageLines :
    (validConfig Config.ex1 = true ∧ 1 < Config.ex1.rows ∧ 0 < Config.ex1.modules ∧ 3 < Config.ex1.cols.getD 0 0) ∧
    (validConfig ex4 = true ∧ 0 < ex4.rows ∧ 1 < ex4.modules ∧ 2 < ex4.cols.getD 1 0) ∧
    ((assembleImage Config.ex1 ⟨1, 0, 3⟩ false 0).line 3 = true ∧ (assembleImage Config.ex1 ⟨1, 0, 3⟩ false 0).line 6 = true ∧
      (assembleImage Config.ex1 ⟨1, 0, 3⟩ false 0).line 10 = true ∧ (assembleImage ex4 ⟨0, 1, 2⟩ true 0).line 7 = true ∧
      (assembleImage Config.ex1 ⟨0, 0, 0⟩ true 5).line 13 = true ∧ (assembleImage ex4 ⟨0, 1, 2⟩ true 0).line 0 = true) := by
  decide +kernel

/-- W5: the last columns of EX2 and of EX4's second module; the first column of EX4's first. -/
theorem witness_ColumnWindowStaysInTheTable :
    (validConfig ex2 = true ∧ 0 < ex2.modules ∧ 4 < ex2.cols.getD 0 0) ∧
    (validConfig ex4 = true ∧ 1 < ex4.modules ∧ 2 < ex4.cols.getD 1 0 ∧ 0 < ex4.cols.getD 0 0) := by decide +kernel

theorem witness_TransmitShiftsOutTheImage : (zero1 0x131).faulted = false ∧ (zero1 0x131).cfg.nl ≠ 0 := by decide +kernel

theorem witness_TransmissionEventCounts :
    Pins.reset.clr = true ∧ Pins.reset.latch = false ∧ Pins.reset.en = false := by decide

/-- A chain as long as the image, and a longer one. -/
theorem witness_ChainHoldsTheImage : Pins.reset.latch = false ∧ Pins.reset.en = false ∧
    Config.ex1.nl ≤ (Chain.mk (List.replicate 16 true) [] []).sr.length ∧
    Config.ex1.nl ≤ (Chain.mk (List.replicate 20 true) [] []).sr.length := by decide

/-- A silent command, an unpulsed transmission, and a pulsed one. -/
theorem witness_OnlyPulsedTransmissionsRaiseEnable :
    (exec .clrimg five1 = .next (out .clrimg five1) ∧ (out .clrimg five1).trace = five1.trace ++ []) ∧
    (exec (.transmit false) five1 = .next (out (.transmit false) five1) ∧
      (out (.transmit false) five1).trace = five1.trace ++ (out (.transmit false) five1).trace ∧
      (out (.transmit false) five1).trace ≠ []) ∧
    (exec (.transmit true) five1 = .next (out (.transmit true) five1) ∧
      .pin .en true ∈ (out (.transmit true) five1).trace) := by
  refine ⟨⟨exec_out _ _, rfl⟩, ⟨exec_out _ _, rfl, ?_⟩, exec_out _ _, ?_⟩ <;> decide +kernel

/-- A timing with one microsecond after every entry, for a chain of no line; and a valid configuration. -/
theorem witness_EnergizeIntervals :
    (paced ((txTrace { Config.ex1 with nl := 0 } [] true).map fun e => (e, 1)) ∧
      ((txTrace { Config.ex1 with nl := 0 } [] true).map fun e => (e, (1 : Rat))).map Prod.fst =
        txTrace { Config.ex1 with nl := 0 } [] true) ∧
    ((txTrace Config.ex1 [] false).map fun e => (e, (1 : Rat))).map Prod.fst = txTrace Config.ex1 [] false ∧
    validConfig Config.ex1 = true := by
  refine ⟨⟨?_, by simp [Function.comp_def]⟩, by simp [Function.comp_def], test_configurations_valid.1⟩
  intro e he
  simp [txTrace, clearPulse, shiftLines, latchPulse, energizePulse, Config.ex1] at he
  rcases he with rfl | rfl | rfl | rfl | rfl | rfl | rfl | rfl | rfl | rfl <;> refine ⟨by norm_num, ?_⟩ <;> intro t ht <;>
    cases ht <;> norm_num

/-- DATA driven to 0 while it is 0, after a clock pulse; DATA driven to 1 there; a longer hold, an equal one, and a hold
that two shorter ones do not make up for. -/
theorem witness_EquivalentTracesConform :
    (Pins.reset.afterAll [.pin .clk true, .pin .clk false]).level .data = false ∧
    (Pins.reset.afterAll [.pin .clk true, .pin .clk false]).level .data ≠ true ∧ (1 : Rat) ≤ 1 ∧ (1 : Rat) ≤ 2 ∧
    ((0 : Rat) < 3 ∧ (2 : Rat) < 3 ∧ (1 : Rat) < 3) := by decide +kernel

/-- A write that keeps the levels with a hold; writes, and a reset, that change them. -/
theorem witness_TraceNormalForm :
    (∀ e ∈ [PinEvent.pin .clk false, .hold 2, .rst], Pins.reset.after e = Pins.reset) ∧
    (Pins.reset.afterAll [.pin .clk true]).after (.pin .data true) ≠ Pins.reset.afterAll [.pin .clk true] ∧
    (Pins.reset.afterAll [.pin .en true]).after .rst ≠ Pins.reset.afterAll [.pin .en true] := by decide +kernel

/-- R209's two normalisations on the write and the holds of one clock pulse of a line at 0. -/
theorem test_normalise : normalise Pins.reset [.pin .data false, .pin .clk true, .hold 1, .hold 2, .hold 1, .pin .clk false] =
    [⟨Pins.reset, 0⟩, ⟨⟨true, false, false, true, false⟩, 2⟩, ⟨Pins.reset, 0⟩] := by decide +kernel

/-- The model's choice of log 15: an EN-high interval that a reset ends counts, with the length it reached. -/
theorem test_cut_energize_interval : enIntervals none [(.pin .en true, 1), (.rst, 3), (.hold 2, 2)] = [1] := by decide +kernel

theorem witness_ClrimgZeroesTheImage : (zero1 0x548).faulted = false ∧ (zero1 0x548).img.line 3 = true := by decide +kernel

/-- The first and the last row; a line of no role is among the others. -/
theorem witness_RowSelectIsExclusive : (zero1 0xFFFF).faulted = false ∧ validConfig (zero1 0xFFFF).cfg = true ∧
    0 < (zero1 0xFFFF).cfg.rows ∧ 1 < (zero1 0xFFFF).cfg.rows ∧ 15 ≠ (zero1 0xFFFF).cfg.rowSetLine.getD 1 0 ∧
    (∀ q, q < (zero1 0xFFFF).cfg.rows → 15 ≠ (zero1 0xFFFF).cfg.rowResetLine.getD q 0) := by decide +kernel

/-- The lowest active row is 0, or 1, or there is none. -/
theorem witness_RowScanFindsTheLowestRow :
    ((zero1 3).faulted = false ∧ (zero1 3).img.line ((zero1 3).cfg.rowSetLine.getD 0 0) = true) ∧
    ((zero1 2).img.line ((zero1 2).cfg.rowSetLine.getD 1 0) = true ∧
      ∀ q, q < 1 → (zero1 2).img.line ((zero1 2).cfg.rowSetLine.getD q 0) = false) ∧
    (∀ r, r < (zero1 0).cfg.rows → (zero1 0).img.line ((zero1 0).cfg.rowSetLine.getD r 0) = false) ∧
    ((zero1 8).img.line ((zero1 8).cfg.rowResetLine.getD 1 0) = true ∧
      ∀ q, q < 1 → (zero1 8).img.line ((zero1 8).cfg.rowResetLine.getD q 0) = false) ∧
    (∀ r, r < (zero1 0).cfg.rows → (zero1 0).img.line ((zero1 0).cfg.rowResetLine.getD r 0) = false) := by decide +kernel

theorem witness_SetcolDrivesTheColumnCode : (zero4 0).faulted = false ∧ validConfig (zero4 0).cfg = true ∧
    1 < (zero4 0).cfg.modules ∧ 2 < (zero4 0).cfg.cols.getD 1 0 ∧ 31 < (zero4 0).cfg.cols.getD 0 0 := by decide +kernel

/-- X9: column 3 of EX1 is decoded, no lower one; X10: none is. -/
theorem witness_GetcolDecodesTheColumnCode :
    ((zero1 0x40).faulted = false ∧ validConfig (zero1 0x40).cfg = true ∧ 0 < (zero1 0x40).cfg.modules ∧
      3 < (zero1 0x40).cfg.cols.getD 0 0 ∧
      (∀ j, j < (zero1 0x40).cfg.ncc → (zero1 0x40).img.line ((zero1 0x40).cfg.colCodeLine.getD j 0) =
        ((zero1 0x40).cfg.cct.getD ((zero1 0x40).cfg.maxCol - (zero1 0x40).cfg.cols.getD 0 0 + 3) 0).testBit j) ∧
      (∀ b, b < 3 → ∃ j, j < 4 ∧ (zero1 0x40).img.line ((zero1 0x40).cfg.colCodeLine.getD j 0) ≠
        ((zero1 0x40).cfg.cct.getD ((zero1 0x40).cfg.maxCol - (zero1 0x40).cfg.cols.getD 0 0 + b) 0).testBit j)) ∧
    (∀ b, b < (zero1 0).cfg.cols.getD 0 0 → ∃ j, j < 4 ∧ (zero1 0).img.line ((zero1 0).cfg.colCodeLine.getD j 0) ≠
      ((zero1 0).cfg.cct.getD ((zero1 0).cfg.maxCol - (zero1 0).cfg.cols.getD 0 0 + b) 0).testBit j) := by decide +kernel

/-- The last column of EX4's second module, whose codes 29, 30, 31 differ. -/
theorem witness_SetcolThenGetcolReturnsTheColumn :
    (zero4 0).faulted = false ∧ validConfig (zero4 0).cfg = true ∧ 1 < (zero4 0).cfg.modules ∧
    2 < (zero4 0).cfg.cols.getD 1 0 ∧
    (∀ b, b < (zero4 0).cfg.cols.getD 1 0 →
      (zero4 0).cfg.cct.getD ((zero4 0).cfg.maxCol - (zero4 0).cfg.cols.getD 1 0 + b) 0 =
        (zero4 0).cfg.cct.getD ((zero4 0).cfg.maxCol - (zero4 0).cfg.cols.getD 1 0 + 2) 0 → b = 2) ∧
    exec (.setcol 1 2) (zero4 0) = .next (out (.setcol 1 2) (zero4 0)) := by
  refine ⟨?_, ?_, ?_, ?_, ?_, exec_out _ _⟩ <;> decide +kernel

theorem witness_AddressLinesHoldTheAddress : (zero1 0).faulted = false ∧ validConfig (zero1 0).cfg = true ∧
    1 < (zero1 0).cfg.naw ∧ ∀ i, i < (zero1 0).cfg.naw → 10 ≠ (zero1 0).cfg.addrLine.getD i 0 := by decide +kernel

theorem witness_DirectionLineIsDriven : (zero1 0).faulted = false ∧ validConfig (zero1 0).cfg = true := by decide +kernel

theorem witness_IndicatorFlagsAreWrittenAndRead : (zero1 0).faulted = false := by decide +kernel

/-- k = 0 on 16 lines, and the last k of 33 lines. -/
theorem witness_RdimgReadsThirtyTwoLines : ((zero1 0x548).faulted = false ∧ 32 * 0 < (zero1 0x548).cfg.nl) ∧
    ((start { Config.ex1 with nl := 33 } [] 0).faulted = false ∧
      32 * 1 < (start { Config.ex1 with nl := 33 } [] 0).cfg.nl) := by decide +kernel

/-- X27's command sequence, and the FIRE of A2 whose image it stages. -/
theorem witness_AccessorsStageTheAssembledImage :
    let t1 := out .clrimg (zero1 7)
    let t2 := out (if false then .setrowset 1 else .setrowreset 1) t1
    let t3 := out (.setcol 0 3) t2
    let t4 := out .setaddr { t3 with wdata := BitVec.ofNat 32 ((zero1 7).cfg.addr.getD 0 0) }
    let t5 := out (.setdir (!false)) t4
    (zero1 7).faulted = false ∧ validConfig (zero1 7).cfg = true ∧ (zero1 7).cfg.indMode = .static ∧
    1 < (zero1 7).cfg.rows ∧ 0 < (zero1 7).cfg.modules ∧ 3 < (zero1 7).cfg.cols.getD 0 0 ∧ (zero1 7).ind = 0#3 ∧
    imgNum t5 = 0x548 ∧ exec .clrimg (zero1 7) = .next t1 ∧
    exec (if false then .setrowset 1 else .setrowreset 1) t1 = .next t2 ∧ exec (.setcol 0 3) t2 = .next t3 ∧
    exec .setaddr { t3 with wdata := BitVec.ofNat 32 ((zero1 7).cfg.addr.getD 0 0) } = .next t4 ∧
    exec (.setdir (!false)) t4 = .next t5 ∧ exec (.fire 1 0 3 false) (zero1 7) = .next (out (.fire 1 0 3 false) (zero1 7)) := by
  refine ⟨?_, ?_, ?_, ?_, ?_, ?_, ?_, ?_, exec_out _ _, exec_out _ _, exec_out _ _, exec_out _ _, exec_out _ _,
    exec_out _ _⟩ <;> decide +kernel

theorem witness_InitRunsTheSelfTest : five1.faulted = false ∧ validConfig five1.cfg = true := by decide +kernel

/-- An odd and an even number of AF calls in AUTO mode; STATIC mode. -/
theorem witness_AutoToggleShowsTheParity : (ex3.indMode = .auto ∧ 0 = ex3.indToggle ∧ 7 % 2 = 1 ∧ indAfter ex3 0 7 = 1) ∧
    indAfter ex3 0 6 = 0 ∧ (Config.ex1.indMode = .static ∧ indAfter Config.ex1 5 7 = 5) := by decide +kernel

/-- P1's statements: a command that assembles, two whose operands do not fit, and the expansion of `PAINTSNAP [[5],[0]]` and of `GETDOTS`. -/
theorem witness_PseudoInstructionsAssemble :
    assembleStatement ⟨.wrdes 0 0, some 5⟩ = some (.command 0x02000000 5 []) ∧
    assembleStatement ⟨.wrdes 256 0, some 5⟩ = none ∧ assembleStatement ⟨.wrdes 0 0, none⟩ = none ∧
    assembleStatement ⟨.clear, some 7⟩ = none ∧ assembleStatement ⟨.clear, none⟩ = some (.command 0x05000000 0 []) ∧
    assembleStatement ⟨.setind 8, none⟩ = none ∧
    assembleStatement ⟨.setind 7, none⟩ = some (.command 0x1D000007 7 []) ∧
    1 < Config.ex1.rows ∧ 0 < Config.ex1.modules ∧ validConfig Config.ex1 = true ∧
    (Pseudo.paintSnap [[5], [0]]).expand Config.ex1 =
      [⟨.wrdes 0 0, some 5⟩, ⟨.wrdes 1 0, some 0⟩, ⟨.paint false, none⟩] ∧
    Pseudo.getDots.expand Config.ex1 = [⟨.rdcur 0 0, none⟩, ⟨.rdcur 1 0, none⟩] ∧
    ⟨.wrdes 1 0, some 0⟩ ∈ (Pseudo.paintSnap [[5], [0]]).expand Config.ex1 := by decide +kernel

/-- A command running, and what its cursors are in the middle of TX (16 lines, line 15 first), after
FIRE's AF, after a second sweep of MAGNETIZE over an unset dot, and after the self-test's last round (R41). -/
theorem witness_CursorsFollowTheRun :
    ((zero1 0).withSeq .start).seq = .busy ⟨0, 0, 0, 0, 0, 0⟩ ∧
    (((zero1 0).withSeq .start).shiftOne 15).seq = .busy ⟨0, 0, 0, 0, 15, 4⟩ ∧
    (((zero1 0).withSeq .start).af ⟨1, 0, 7⟩ true).seq = .busy ⟨0, 1, 0, 7, 0, 74⟩ ∧
    (((zero1 0).withSeq .start).sweepTimes (fun _ => false) [⟨⟨1, 0, 7⟩, true⟩] 2).seq = .busy ⟨1, 1, 0, 7, 0, 0⟩ ∧
    (((zero1 0).withSeq .start).selfTestRound 2).seq = .busy ⟨2, 0, 0, 0, 0, 144⟩ := by decide +kernel

end Sys2Proof.Tests
end

section
/-! PROOF. Agreement of the two snapshots (10_state.md R44): what the shared operations do to it, and which commands end
with it. -/

namespace Sys2Proof.Machine

/-! ## Agreement under the shared operations -/

theorem State.inSync_of_cur_eq_des {s : State} (h : s.cur = s.des) : s.inSync := fun r m _ _ => by rw [h]

@[simp] theorem State.inSync_respond (s : State) (status : BitVec 3) (rdata : Word) :
    (s.respond status rdata).inSync ↔ s.inSync := Iff.rfl

/-- The cycle makes the snapshots agree (R131). -/
theorem State.inSync_cycle (s : State) : s.cycle.inSync := fun r m hr hm => by
  rw [State.cycle_cfg] at hr hm
  rw [State.cycle_cur, State.cycle_des, tabulate_word_of_lt _ _ r m hr hm]

/-- Writing both arrays alike and then firing dots leaves them in agreement: AF writes neither of them. -/
theorem State.inSync_setBoth_fireAll (s : State) (f : Nat → Nat → Word) (fs : List Fire) :
    ((s.setBoth f).fireAll fs).inSync :=
  State.inSync_of_cur_eq_des (by simp)

theorem State.inSync_initSeq (s : State) : s.initSeq.inSync := State.inSync_of_cur_eq_des (by simp)

/-! ## Commands in bounds of a fault-free DDE -/

/-- exec_runs read from the next state. -/
theorem next_eq_of_exec_runs {i : Instr} {s t : State} (hf : s.faulted = false) (hb : inBounds s.cfg i = true)
    (h : exec i s = .next t) : t = (effect i s).respond stOk (answer i s) := by
  rw [exec_runs i s hf hb] at h
  injection h with h
  exact h.symm

/-- INVERSE with its cycle: the fires, then the cycle (R154). -/
theorem effect_inverse_inSync {s : State} (hc : s.cfg.inverseCycle = true) : (effect .inverse s).inSync := by
  simp only [effect, State.fireAll_cfg, State.withDes_cfg, hc, if_true]
  exact State.inSync_cycle _

/-- INVERSE without its cycle: every word of DES is the complement of that of CUR (R152, R154). -/
theorem effect_inverse_word {s : State} (hc : s.cfg.inverseCycle = false) {r m : Nat} (hr : r < s.cfg.rows)
    (hm : m < s.cfg.modules) : (effect .inverse s).des.word r m = ~~~((effect .inverse s).cur.word r m) := by
  have hdes : (effect .inverse s).des = tabulate s.cfg fun r m => ~~~(s.cur.word r m) := by simp [effect, hc]
  have hcur : (effect .inverse s).cur = s.cur := by simp [effect, hc]
  rw [hdes, hcur, tabulate_word_of_lt _ _ r m hr hm]

/-- WRDES of a word other than the current one ends the agreement there (R140). -/
theorem effect_wrdes_not_inSync {s : State} {r m : Nat} (hfits : s.des.fits s.cfg = true) (hr : r < s.cfg.rows)
    (hm : m < s.cfg.modules) (hw : s.cur.word r m ≠ s.wdata) : ¬ (effect (.wrdes r m) s).inSync := by
  intro h
  have hword : s.cur.word r m = (s.des.put r m s.wdata).word r m := h r m hr hm
  rw [Snapshot.put_word _ _ _ _ _ hfits hr hm, if_pos ⟨rfl, rfl⟩] at hword
  exact hw hword

/-- Settles O30: INIT, CLEAR and FILL write both arrays alike, the other agreeing commands end with the cycle; the WRDES
that breaks the agreement writes a 1 right after reset. -/
theorem snapshotsAgreeAfterTheCommands : Obligations.SnapshotsAgreeAfterTheCommands := by
  refine ⟨fun i s t hf h hi => ?_, fun s t hf hc h r m hr hm => ?_, ?_⟩
  · have hb : inBounds s.cfg i = true := by
      rcases hi with rfl | ⟨f, rfl⟩ | rfl | rfl | rfl | ⟨rfl, -⟩ <;> rfl
    rw [next_eq_of_exec_runs hf hb h, State.inSync_respond]
    rcases hi with rfl | ⟨f, rfl⟩ | rfl | rfl | rfl | ⟨rfl, hc⟩
    · exact State.inSync_initSeq s
    · exact State.inSync_cycle _
    · exact State.inSync_setBoth_fireAll s _ _
    · exact State.inSync_setBoth_fireAll s _ _
    · exact State.inSync_cycle _
    · exact effect_inverse_inSync hc
  · rw [next_eq_of_exec_runs hf rfl h]
    exact effect_inverse_word hc hr hm
  · have hf : State.reset.faulted = false := by decide +kernel
    refine ⟨{ State.reset with wdata := 1#32 }, _, 0, 0, State.inSync_of_cur_eq_des rfl, hf, exec_runs _ _ hf rfl, ?_⟩
    rw [State.inSync_respond]
    exact effect_wrdes_not_inSync (zeroSnapshot_fits _) (by decide) (by decide) (by decide)

end Sys2Proof.Machine
end

section
/-! PROOF. The image words RDIMG answers (20_memory.md R73). -/

namespace Sys2Proof.Machine

/-- Index k is in the image word space exactly when the word's lowest line exists (R243). -/
theorem imageWordOk_iff (c : Config) (k : Nat) : imageWordOk c k = true ↔ 32 * k < c.nl := by
  rw [imageWordOk, decide_eq_true_iff, nwords]
  omega

/-- Bit b of an image word is line 32k + b, and 0 past the last line: the word is a sum of distinct powers of two, one
for each line that is 1. -/
theorem imageWord_getLsbD (c : Config) (k : Nat) (img : Memory) {b : Nat} (hb : b < 32) :
    (imageWord c k img).getLsbD b = (decide (32 * k + b < c.nl) && img.line (32 * k + b)) := by
  rw [imageWord, BitVec.getLsbD_ofNat, (sum_bits _ 32).2 b]
  by_cases h : 32 * k + b < c.nl <;> simp [hb, h]

/-- Settles O52: RDIMG in bounds has no effect of its own and answers the image word of its index. -/
theorem rdimgReadsThirtyTwoLines : Obligations.RdimgReadsThirtyTwoLines := by
  intro s k hf hk
  have hb : inBounds s.cfg (.rdimg k) = true := (imageWordOk_iff s.cfg k).2 hk
  exact ⟨imageWord s.cfg k s.img, exec_runs (.rdimg k) s hf hb, fun b => imageWord_getLsbD s.cfg k s.img⟩

end Sys2Proof.Machine
end

section
/-! PROOF. The opcode table (30_encoding.md R103, R104, R107). A row accepts a word when the word has the row's OP and
is 0 under the rest of the row's mask; the decoder makes the same test field by field. -/

namespace Sys2Proof

/-! ## Tests of a field as tests of the word under a mask -/

/-- The mask of the n bits from bit lo on. -/
def sliceMask (lo n : Nat) : Word := (BitVec.allOnes n).setWidth 32 <<< lo

theorem getLsbD_sliceMask (lo n j : Nat) :
    (sliceMask lo n).getLsbD j = (decide (j < 32) && decide (lo ≤ j) && decide (j < lo + n)) := by
  simp only [sliceMask, BitVec.getLsbD_shiftLeft, BitVec.getLsbD_setWidth, BitVec.getLsbD_allOnes]
  grind

/-- The mask of the fields A, B and C (R101). -/
def belowOp : Word := sliceMask 0 24

theorem getLsbD_belowOp (j : Nat) : belowOp.getLsbD j = decide (j < 24) := by
  rw [belowOp, getLsbD_sliceMask]
  grind

/-- A slice of a word is 0 exactly when the word is 0 under the slice's mask: bit j of the word is bit j - lo of the
slice. -/
theorem slice_beq_zero (w : Word) (lo n : Nat) :
    ((w.extractLsb' lo n).toNat == 0) = (w &&& sliceMask lo n == 0#32) := by
  rw [Bool.eq_iff_iff, beq_iff_eq, beq_iff_eq]
  constructor
  · intro h
    have hslice : w.extractLsb' lo n = 0#n := BitVec.eq_of_toNat_eq (by simpa using h)
    apply BitVec.eq_of_getLsbD_eq
    intro j hj
    have hbit := congrArg (BitVec.getLsbD · (j - lo)) hslice
    simp only [BitVec.getLsbD_extractLsb', BitVec.getLsbD_zero] at hbit
    rw [BitVec.getLsbD_and, getLsbD_sliceMask, BitVec.getLsbD_zero]
    grind
  · intro h
    have hslice : w.extractLsb' lo n = 0#n := by
      apply BitVec.eq_of_getLsbD_eq
      intro j hj
      have hbit := congrArg (BitVec.getLsbD · (lo + j)) h
      simp only [BitVec.getLsbD_and, getLsbD_sliceMask, BitVec.getLsbD_zero] at hbit
      rw [BitVec.getLsbD_extractLsb', BitVec.getLsbD_zero]
      grind
    rw [hslice, BitVec.toNat_zero]

theorem fieldA_beq_zero (w : Word) : (fieldA w == 0) = (w &&& 0x00FF0000#32 == 0#32) := slice_beq_zero w 16 8

theorem fieldB_beq_zero (w : Word) : (fieldB w == 0) = (w &&& 0x0000FF00#32 == 0#32) := slice_beq_zero w 8 8

theorem fieldC_beq_zero (w : Word) : (fieldC w == 0) = (w &&& 0x000000FF#32 == 0#32) := slice_beq_zero w 0 8

theorem fieldMid_beq_zero (w : Word) : (fieldMid w == 0) = (w &&& 0x00000060#32 == 0#32) := slice_beq_zero w 5 2

theorem fieldAboveFlag_beq_zero (w : Word) : (fieldAboveFlag w == 0) = (w &&& 0x000000FE#32 == 0#32) :=
  slice_beq_zero w 1 7

theorem fieldAboveInd_beq_zero (w : Word) : (fieldAboveInd w == 0) = (w &&& 0x000000F8#32 == 0#32) :=
  slice_beq_zero w 3 5

theorem not_fieldS (w : Word) : (!fieldS w) = (w &&& 0x00000080#32 == 0#32) := by
  rw [fieldS, show 0x00000080#32 = BitVec.twoPow 32 7 by decide, BitVec.and_twoPow]
  cases w.getLsbD 7 <;> decide

/-- A word that is 0 under each of two masks is 0 under both together. -/
theorem zero_under_both (w x y : Word) :
    (w &&& x == 0#32 && w &&& y == 0#32) = (w &&& (x ||| y) == 0#32) := by
  rw [Bool.eq_iff_iff, Bool.and_eq_true, beq_iff_eq, beq_iff_eq, beq_iff_eq, BitVec.and_or_distrib_left,
    BitVec.or_eq_zero_iff]

/-! ## What a row accepts -/

/-- Two words are equal when their OP fields are, and the bits below them. -/
theorem word_eq_iff (x y : Word) : x = y ↔ fieldOp x = fieldOp y ∧ x &&& belowOp = y &&& belowOp := by
  constructor
  · rintro rfl
    exact ⟨rfl, rfl⟩
  · rintro ⟨hop, hlow⟩
    apply BitVec.eq_of_getLsbD_eq
    intro j hj
    by_cases h : j < 24
    · have hbit := congrArg (BitVec.getLsbD · j) hlow
      simpa [getLsbD_belowOp, h] using hbit
    · have hbit := congrArg (BitVec.getLsbD · (j - 24)) (BitVec.eq_of_toNat_eq hop)
      simpa [BitVec.getLsbD_extractLsb', show j - 24 < 8 by omega, show 24 + (j - 24) = j by omega] using hbit

/-- Every row fixes the whole of OP, and asks 0 of every bit it fixes below it (R103). -/
theorem opcodeRows_shape : ∀ row ∈ opcodeRows,
    row.mask.extractLsb' 24 8 = BitVec.allOnes 8 ∧ row.pattern &&& belowOp = 0#32 := by decide

/-- A row accepts the words of its OP that are 0 under the rest of its mask. -/
theorem accepts_iff {row : OpcodeRow} (hrow : row ∈ opcodeRows) (w : Word) :
    row.accepts w = true ↔ fieldOp w = fieldOp row.pattern ∧ w &&& (row.mask &&& belowOp) = 0#32 := by
  obtain ⟨hmask, hpattern⟩ := opcodeRows_shape row hrow
  have hop : fieldOp (w &&& row.mask) = fieldOp w := by
    rw [fieldOp, BitVec.extractLsb'_and, hmask, BitVec.and_allOnes, fieldOp]
  rw [OpcodeRow.accepts, beq_iff_eq, word_eq_iff, hop, hpattern, BitVec.and_assoc]

/-- No two rows have one OP value. -/
theorem opcodeRows_op_nodup : (opcodeRows.map (fieldOp ·.pattern)).Nodup := by decide

theorem row_eq_of_op_eq {x y : OpcodeRow} (hx : x ∈ opcodeRows) (hy : y ∈ opcodeRows)
    (h : fieldOp x.pattern = fieldOp y.pattern) : x = y :=
  List.inj_on_of_nodup_map opcodeRows_op_nodup hx hy h

/-- One word is accepted by at most one row, because the OP values differ. -/
theorem row_eq_of_accepts {x y : OpcodeRow} {w : Word} (hx : x ∈ opcodeRows) (hy : y ∈ opcodeRows)
    (hxw : x.accepts w = true) (hyw : y.accepts w = true) : x = y :=
  row_eq_of_op_eq hx hy (((accepts_iff hx w).1 hxw).1.symm.trans ((accepts_iff hy w).1 hyw).1)

/-! ## What the decoder makes of a word -/

theorem legalIf_eq_some_iff {zeros : Bool} {i j : Instr} : legalIf zeros i = some j ↔ zeros = true ∧ i = j := by
  cases zeros <;> simp [legalIf]

theorem fieldOp_ofNat (n : Nat) : fieldOp (BitVec.ofNat 32 n) = n / 2 ^ 24 % 2 ^ 8 := by
  rw [fieldOp, BitVec.extractLsb'_toNat, BitVec.toNat_ofNat, Nat.shiftRight_eq_div_pow]
  omega

/-- A word with the OP of a row is decoded to that row's command when it is 0 under the rest of the row's mask: in each
row, the fields the decoder tests are together the row's mask below OP. -/
theorem decode_of_op_eq {row : OpcodeRow} (hrow : row ∈ opcodeRows) {w : Word}
    (hop : fieldOp w = fieldOp row.pattern) :
    ∃ i, decode w = legalIf (w &&& (row.mask &&& belowOp) == 0#32) i ∧ mnemonic i = row.mnemonic := by
  simp only [opcodeRows, List.cons_append, List.nil_append, List.mem_cons, List.not_mem_nil, or_false] at hrow
  rcases hrow with rfl | rfl | rfl | rfl | rfl | rfl | rfl | rfl | rfl | rfl | rfl | rfl | rfl | rfl | rfl | rfl | rfl |
    rfl | rfl | rfl | rfl | rfl | rfl | rfl | rfl
  all_goals
    simp only [BitVec.ofNat_eq_ofNat, fieldOp_ofNat, Nat.reducePow, Nat.reduceDiv, Nat.reduceMod] at hop
    simp only [decode, hop, fieldA_beq_zero, fieldB_beq_zero, fieldC_beq_zero, fieldMid_beq_zero,
      fieldAboveFlag_beq_zero, fieldAboveInd_beq_zero, not_fieldS, zero_under_both]
    exact ⟨_, rfl, rfl⟩

/-- A word whose OP no row has is illegal (R106). -/
theorem decode_eq_none_of_op_not_mem {w : Word} (h : fieldOp w ∉ opcodeRows.map (fieldOp ·.pattern)) :
    decode w = none := by
  rw [decode]
  split
  case h_26 => rfl
  all_goals
    rename_i hop
    exact absurd (hop ▸ by decide) h

/-- A word a row accepts is decoded to a command of that row (R103). -/
theorem decode_of_accepts {row : OpcodeRow} (hrow : row ∈ opcodeRows) {w : Word} (h : row.accepts w = true) :
    ∃ i, decode w = some i ∧ row.mnemonic = mnemonic i := by
  obtain ⟨hop, hzero⟩ := (accepts_iff hrow w).1 h
  obtain ⟨i, hi, hm⟩ := decode_of_op_eq hrow hop
  exact ⟨i, hi.trans (legalIf_eq_some_iff.2 ⟨beq_iff_eq.2 hzero, rfl⟩), hm.symm⟩

/-- A legal word is accepted by a row: its OP is a row's, and the decoder found the row's zeros (R106). -/
theorem exists_accepts_of_decode_eq_some {w : Word} {i : Instr} (h : decode w = some i) :
    ∃ row ∈ opcodeRows, row.accepts w = true := by
  by_cases hop : fieldOp w ∈ opcodeRows.map (fieldOp ·.pattern)
  · obtain ⟨row, hrow, hrop⟩ := List.mem_map.1 hop
    obtain ⟨j, hj, -⟩ := decode_of_op_eq hrow hrop.symm
    obtain ⟨hzero, -⟩ := legalIf_eq_some_iff.1 (hj.symm.trans h)
    exact ⟨row, hrow, (accepts_iff hrow w).2 ⟨hrop.symm, beq_iff_eq.1 hzero⟩⟩
  · rw [decode_eq_none_of_op_not_mem hop] at h
    cases h

/-- Settles O3: a legal word is accepted by a row, an accepted word decodes to that row's command, and the OP value tells
the rows apart. -/
theorem wordsDecodeByTheTable : Obligations.WordsDecodeByTheTable := by
  refine ⟨fun w => ?_, fun x hx y hy hne => ⟨fun hop => ?_, fun w ⟨hxw, hyw⟩ => ?_⟩⟩
  · cases hw : decode w with
    | none =>
      refine .inl ⟨rfl, fun row hrow => Bool.eq_false_iff.2 fun hacc => ?_⟩
      obtain ⟨i, hi, -⟩ := decode_of_accepts hrow hacc
      cases hw.symm.trans hi
    | some i =>
      obtain ⟨row, hrow, hacc⟩ := exists_accepts_of_decode_eq_some hw
      obtain ⟨j, hj, hm⟩ := decode_of_accepts hrow hacc
      obtain rfl : i = j := Option.some.inj (hw.symm.trans hj)
      exact .inr ⟨i, row, rfl, hrow, hacc, hm, fun other hother h => row_eq_of_accepts hother hrow h hacc⟩
  · exact hne (row_eq_of_op_eq hx hy (congrArg BitVec.toNat hop))
  · exact hne (row_eq_of_accepts hx hy hxw hyw)

end Sys2Proof
end

section
/-! PROOF. Counting the dots a sweep fires (40_dot_matrix.md R144): the dots of the sweep module by module, and the 1
bits of a word under the column mask. -/

namespace Sys2Proof.Machine

/-! ## The dots of the sweep (00_scope.md R22) -/

theorem mem_sweep {c : Config} {d : Dot} :
    d ∈ sweep c ↔ d.r < c.rows ∧ d.m < c.modules ∧ d.c < colCount c d.m := by
  obtain ⟨r, m, col⟩ := d
  simp only [sweep, List.mem_flatMap, List.mem_map, List.mem_range, Dot.mk.injEq]
  constructor
  · rintro ⟨r, hr, m, hm, col, hc, rfl, rfl, rfl⟩
    exact ⟨hr, hm, hc⟩
  · rintro ⟨hr, hm, hc⟩
    exact ⟨r, hr, m, hm, col, hc, rfl, rfl, rfl⟩

theorem countP_sweep (c : Config) (p : Dot → Bool) :
    (sweep c).countP p = ((List.range c.rows).map fun r => ((List.range c.modules).map fun m =>
      (List.range (colCount c m)).countP fun col => p ⟨r, m, col⟩).sum).sum := by
  simp only [sweep, List.countP_flatMap, List.countP_map, Function.comp_def]

theorem length_sweep (c : Config) : (sweep c).length = dotCount c := by
  have hcount := countP_sweep c fun _ => true
  simp only [List.countP_true, List.length_range] at hcount
  simp [hcount, dotCount]

theorem length_everyDot (c : Config) (f : Dot → Bool) : (everyDot c f).length = dotCount c := by
  rw [everyDot, List.length_map, length_sweep]

/-- Every dot of the sweep with its bit in a snapshot (20_memory.md R72). -/
theorem everyDot_dot (c : Config) (x : Snapshot) :
    everyDot c x.dot = (sweep c).map fun d => ⟨d, (x.word d.r d.m).getLsbD d.c⟩ := by
  simp only [everyDot, Snapshot.dot, wordBit_eq]

/-! ## The 1 bits of a word below its module's width -/

/-- A module has at most as many columns as a word has bits (R16). -/
theorem colCount_le_wordWidth {c : Config} (hv : validConfig c = true) {m : Nat} (hm : m < c.modules) :
    colCount c m ≤ 32 := by
  obtain ⟨-, hmax, hword⟩ := colCount_le hv hm
  exact hmax.trans hword

/-- The numbers below N that are also below n and satisfy p are those below n that do. -/
theorem countP_range_below {n N : Nat} (hle : n ≤ N) (p : Nat → Bool) :
    (List.range N).countP (fun k => decide (k < n) && p k) = (List.range n).countP p := by
  obtain ⟨j, rfl⟩ := Nat.exists_eq_add_of_le hle
  have hlow : (List.range n).countP (fun k => decide (k < n) && p k) = (List.range n).countP p :=
    List.countP_congr fun k hk => by simp [List.mem_range.1 hk]
  have hhigh : ((List.range j).map (n + ·)).countP (fun k => decide (k < n) && p k) = 0 := by
    simp [List.countP_eq_zero]
  rw [List.range_add, List.countP_append, hlow, hhigh, Nat.add_zero]

/-- FULL(m) keeps the bits below COLS[m], so only those are counted (R21, R144). -/
theorem popcount_and_full {c : Config} (hv : validConfig c = true) {m : Nat} (hm : m < c.modules) (w : Word) :
    popcount (w &&& full c m) = (List.range (colCount c m)).countP w.getLsbD := by
  have hbit : ∀ k ∈ List.range 32, (w &&& full c m).getLsbD k = (decide (k < colCount c m) && w.getLsbD k) := by
    intro k hk
    rw [BitVec.getLsbD_and, full_getLsbD hv hm k (List.mem_range.1 hk), Bool.and_comm]
  rw [popcount, List.filter_congr hbit, ← List.countP_eq_length_filter,
    countP_range_below (colCount_le_wordWidth hv hm)]

/-- PAINT 0 fires a dot when its bit of (CUR xor DES) is 1 (R143). -/
theorem paintGoes_false (cur des : Snapshot) (d : Dot) :
    paintGoes cur false ⟨d, des.dot d⟩ = (cur.word d.r d.m ^^^ des.word d.r d.m).getLsbD d.c := by
  simp [paintGoes, Snapshot.dot, wordBit_eq, bne_comm]

/-- The dots whose desired bit differs are the 1 bits of (CUR xor DES) under the column masks (R144). -/
theorem length_paint_fires {s : State} (hv : validConfig s.cfg = true) :
    ((everyDot s.cfg s.des.dot).filter (paintGoes s.cur false)).length = s.diffCount := by
  rw [← List.countP_eq_length_filter, everyDot, List.countP_map, countP_sweep, State.diffCount]
  refine congrArg List.sum (List.map_congr_left fun r _ => congrArg List.sum (List.map_congr_left fun m hm => ?_))
  simp only [Function.comp_apply, paintGoes_false]
  rw [popcount_and_full hv (List.mem_range.1 hm)]

/-! ## The events of PAINT -/

theorem effect_paint_trace (s : State) (f : Bool) :
    (effect (.paint f) s).trace =
      s.trace ++ fireTrace s.cfg s.ind ((everyDot s.cfg s.des.dot).filter (paintGoes s.cur f)) := by
  simp [effect]

theorem filter_paintGoes_true (cur : Snapshot) (fs : List Fire) : fs.filter (paintGoes cur true) = fs :=
  List.filter_eq_self.2 fun _ _ => rfl

/-- The events PAINT appends have one energize pulse for each fire (R178). -/
theorem pulses_paint {s t : State} {evs : Trace} {f : Bool} (hf : s.faulted = false)
    (htrace : t.trace = s.trace ++ evs) (h : exec (.paint f) s = .next t) :
    pulses evs = ((everyDot s.cfg s.des.dot).filter (paintGoes s.cur f)).length := by
  rw [next_eq_of_exec_runs hf rfl h, State.respond_trace, effect_paint_trace] at htrace
  rw [← List.append_cancel_left htrace, pulses_fireTrace]

/-- Settles O23: PAINT's pulses are its fires, which are the 1 bits of the masked difference, or every dot. -/
theorem paintFireCounts : Obligations.PaintFireCounts := by
  intro s t evs hf hv htrace
  refine ⟨fun h => ?_, fun h => ?_⟩
  · rw [pulses_paint hf htrace h, length_paint_fires hv]
  · rw [pulses_paint hf htrace h, filter_paintGoes_true, length_everyDot]

end Sys2Proof.Machine
end

section
/-! PROOF. When the two snapshots agree after a command, and which commands write them (40_dot_matrix.md R145). -/

namespace Sys2Proof.Machine

/-- Agreement rests on CUR and DES alone. -/
theorem State.inSync_of_same_snapshots {s t : State} (hcfg : t.cfg = s.cfg) (hcur : t.cur = s.cur)
    (hdes : t.des = s.des) (h : s.inSync) : t.inSync := by
  unfold State.inSync
  rw [hcfg, hcur, hdes]
  exact h

/-- PAINT 0 has no dot to fire when the snapshots agree (R145). -/
theorem paint_fires_nil_of_inSync {s : State} (h : s.inSync) :
    (everyDot s.cfg s.des.dot).filter (paintGoes s.cur false) = [] := by
  simp only [everyDot, List.filter_eq_nil_iff, List.forall_mem_map, paintGoes_false]
  intro d hd
  obtain ⟨hr, hm, -⟩ := mem_sweep.1 hd
  simp [h d.r d.m hr hm]

/-- With nothing to fire, PAINT 0 emits nothing and leaves the image, the flags and the pins (R145). -/
theorem effect_paint_of_inSync {s : State} (h : s.inSync) :
    (effect (.paint false) s).trace = s.trace ∧ (effect (.paint false) s).img = s.img ∧
      (effect (.paint false) s).ind = s.ind ∧ (effect (.paint false) s).pins = s.pins := by
  simp [effect, paint_fires_nil_of_inSync h, fireTrace, imageAfter, indAfter]

/-- The commands that may write CUR or DES: INIT and the dot-matrix commands but RDCUR and RDDES. -/
def WritesSnapshots (i : Instr) : Prop :=
  i = .init ∨ (∃ r m, i = .wrdes r m) ∨ (∃ f, i = .paint f) ∨ i = .clear ∨ i = .fill ∨ i = .inverse ∨ i = .magnetize

theorem effect_snapshots (i : Instr) (s : State) :
    ((effect i s).cur = s.cur ∧ (effect i s).des = s.des) ∨ WritesSnapshots i := by
  cases i <;> simp [effect, WritesSnapshots]

/-- A command leaves both snapshots as they were, or it is one of the writers and runs its effect. -/
theorem exec_snapshots {i : Instr} {s t : State} (h : exec i s = .next t) :
    (t.cfg = s.cfg ∧ t.cur = s.cur ∧ t.des = s.des) ∨
      (WritesSnapshots i ∧ t = (effect i s).respond stOk (answer i s)) := by
  rcases exec_cases i s t h with ⟨-, rfl⟩ | ⟨-, -, rfl⟩ | ⟨-, -, rfl⟩
  · exact .inl ⟨rfl, rfl, rfl⟩
  · exact .inl ⟨rfl, rfl, rfl⟩
  · rcases effect_snapshots i s with ⟨hcur, hdes⟩ | hw
    · exact .inl ⟨effect_cfg i s, hcur, hdes⟩
    · exact .inr ⟨hw, rfl⟩

/-- Of the writers, WRDES alone, and INVERSE without its cycle, need not end in agreement (R145). -/
theorem effect_inSync_of_writes {i : Instr} (s : State) (hw : WritesSnapshots i) :
    (effect i s).inSync ∨ (∃ r m, i = .wrdes r m) ∨ (i = .inverse ∧ s.cfg.inverseCycle = false) := by
  rcases hw with rfl | hw | ⟨f, rfl⟩ | rfl | rfl | rfl | rfl
  · exact .inl (State.inSync_initSeq s)
  · exact .inr (.inl hw)
  · exact .inl (State.inSync_cycle _)
  · exact .inl (State.inSync_setBoth_fireAll s _ _)
  · exact .inl (State.inSync_setBoth_fireAll s _ _)
  · cases hc : s.cfg.inverseCycle with
    | true => exact .inl (effect_inverse_inSync hc)
    | false => exact .inr (.inr ⟨rfl, rfl⟩)
  · exact .inl (State.inSync_cycle _)

/-- Settles O24: the snapshots agree after the cycle and after both arrays are written alike; a sweep over agreeing
snapshots fires nothing; every other command leaves CUR and DES as they were. -/
theorem paintConverges : Obligations.PaintConverges := by
  refine ⟨fun s t f hf h => ?_, fun s t _ hf hsync h => ?_, fun i s t hsync h => ?_, fun i s t hf h hi => ?_,
    fun i s t h => ?_⟩
  · rw [next_eq_of_exec_runs hf rfl h, State.inSync_respond]
    exact State.inSync_cycle _
  · rw [next_eq_of_exec_runs hf rfl h]
    exact effect_paint_of_inSync hsync
  · rcases exec_snapshots h with ⟨hcfg, hcur, hdes⟩ | ⟨hw, rfl⟩
    · exact .inl (State.inSync_of_same_snapshots hcfg hcur hdes hsync)
    · exact effect_inSync_of_writes s hw
  · obtain ⟨hagree, -, -⟩ := snapshotsAgreeAfterTheCommands
    exact hagree i s t hf h (by tauto)
  · exact (exec_snapshots h).imp And.right And.left

end Sys2Proof.Machine
end

section
/-! PROOF. The commands that fire every dot: CLEAR and FILL (40_dot_matrix.md R146 to R150) and the two readings of
INVERSE (R153). -/

namespace Sys2Proof.Machine

/-! ## CLEAR and FILL -/

/-- The state that writing both arrays, firing the listed dots and an OK response leave, with its frame (R146, R149). -/
theorem State.setBoth_fireAll_respond (s : State) (f : Nat → Nat → Word) (fs : List Fire) :
    ((s.setBoth f).fireAll fs).respond stOk 0#32 =
      { s with cur := tabulate s.cfg f, des := tabulate s.cfg f, img := imageAfter s.cfg s.ind s.img fs,
               ind := indAfter s.cfg s.ind fs.length, trace := s.trace ++ fireTrace s.cfg s.ind fs,
               pins := s.pins.afterAll (fireTrace s.cfg s.ind fs),
               status := 0#3, rdata := 0#32, seq := Sequencer.idle } := by
  rw [State.mk.injEq]
  simp [stOk]

/-- Settles O25: the zeroed arrays and one fire to reset for every dot of the sweep. -/
theorem clearZeroesAndFiresEveryDot : Obligations.ClearZeroesAndFiresEveryDot := by
  rintro s fires hf rfl
  refine ⟨⟨zeroSnapshot s.cfg, zeroSnapshot s.cfg, ?_, zeroSnapshot_fits _, zeroSnapshot_fits _, fun r m =>
    ⟨zeroSnapshot_word _ r m, zeroSnapshot_word _ r m⟩⟩, ?_⟩
  · rw [exec_runs .clear s hf rfl]
    exact congrArg _ (State.setBoth_fireAll_respond s _ _)
  · rw [pulses_fireTrace, List.length_map, length_sweep]

/-- Settles O26: the arrays of column masks and one fire to set for every dot of the sweep. -/
theorem fillSetsTheColumnMasks : Obligations.FillSetsTheColumnMasks := by
  rintro s fires hf hv rfl
  refine ⟨tabulate s.cfg fun _ m => full s.cfg m, tabulate s.cfg fun _ m => full s.cfg m, ?_, tabulate_fits _ _,
    tabulate_fits _ _, fun r m hr hm => ⟨rfl, fun k hk => ?_⟩⟩
  · rw [exec_runs .fill s hf rfl]
    exact congrArg _ (State.setBoth_fireAll_respond s _ _)
  · rw [tabulate_word_of_lt _ _ r m hr hm]
    exact full_getLsbD hv hm k hk

/-! ## INVERSE -/

theorem effect_inverse_des (s : State) :
    (effect .inverse s).des = tabulate s.cfg fun r m => ~~~(s.cur.word r m) := by
  cases hc : s.cfg.inverseCycle <;> simp [effect, hc]

theorem effect_inverse_trace (s : State) :
    (effect .inverse s).trace =
      s.trace ++ fireTrace s.cfg s.ind (everyDot s.cfg (effect .inverse s).des.dot) := by
  rw [effect_inverse_des]
  cases hc : s.cfg.inverseCycle <;> simp [effect, hc]

/-- INVERSE complements every dot of the sweep: its column is below the 32 bits of the word (R153). -/
theorem effect_inverse_dot {s : State} (hv : validConfig s.cfg = true) {d : Dot} (hd : d ∈ sweep s.cfg) :
    ((effect .inverse s).des.word d.r d.m).getLsbD d.c = !(s.cur.word d.r d.m).getLsbD d.c := by
  obtain ⟨hr, hm, hc⟩ := mem_sweep.1 hd
  have hlt : d.c < 32 := hc.trans_le (colCount_le_wordWidth hv hm)
  rw [effect_inverse_des, tabulate_word_of_lt _ _ _ _ hr hm, BitVec.getLsbD_not, decide_eq_true hlt, Bool.true_and]

/-- Settles O28: every dot's desired bit differs from its current one, so the diff keeps the whole list of fires. -/
theorem inverseReadingsAgree : Obligations.InverseReadingsAgree := by
  intro s t hf hv h
  obtain rfl := next_eq_of_exec_runs hf rfl h
  refine ⟨_, effect_inverse_trace s, ?_, ?_, ?_⟩
  · rw [pulses_fireTrace, length_everyDot]
  · rw [everyDot_dot]; rfl
  · rw [everyDot_dot, List.filter_eq_self.2]
    · rfl
    · simp only [List.forall_mem_map]
      intro d hd
      simp [effect_inverse_dot hv hd]

end Sys2Proof.Machine
end

section
/-! PROOF. The right-aligned window of the column-code table (41_image_assembly.md R174, R175). -/

namespace Sys2Proof.Machine

/-- The window starts at OFF(m), has COLS[m] entries and ends where the first MAXCOL entries do (R174). -/
theorem off_add_colCount {c : Config} (hv : validConfig c = true) {m : Nat} (hm : m < c.modules) :
    off c m + colCount c m = c.maxCol :=
  Nat.sub_add_cancel (colCount_le hv hm).2.1

/-- Settles O34: the window ends at MAXCOL, which is the length of the table. -/
theorem columnWindowStaysInTheTable : Obligations.ColumnWindowStaysInTheTable := by
  intro c m col hv hm hcol
  have hend : off c m + c.cols.getD m 0 = c.maxCol := off_add_colCount hv hm
  obtain ⟨-, -, htable, -⟩ := lengths_of_valid hv
  refine ⟨?_, ?_, ?_, ?_⟩
  · exact Nat.le_add_right (off c m) col
  · omega
  · omega
  · omega

end Sys2Proof.Machine
end

section
/-! PROOF. What one transmission puts on the pins: the DATA values and the clock edges that take them
(42_serial_transmit.md R210), and the counts of its events and pulses (R211). -/

namespace Sys2Proof.Machine

/-! ## The DATA values and the clocked bits -/

theorem dataValues_append (x y : Trace) : dataValues (x ++ y) = dataValues x ++ dataValues y := by
  induction x with
  | nil => rfl
  | cons e x ih =>
    cases e with
    | pin q v => cases q <;> simp [dataValues, ih]
    | hold t => exact ih
    | rst => exact ih

theorem clockedData_append (p : Pins) (x y : Trace) :
    clockedData p (x ++ y) = clockedData p x ++ clockedData (p.afterAll x) y := by
  induction x generalizing p with
  | nil => rfl
  | cons e x ih => simp [clockedData, ih]

theorem dataValues_shiftLines (c : Config) (img : Memory) (n : Nat) :
    dataValues (shiftLines c img n) = (List.range n).reverse.map img.line := by
  induction n with
  | zero => rfl
  | succ n ih => simp [shiftLines, shiftLine, dataValues, ih, List.range_succ]

/-- With CLK low, the one rising edge of a line's step takes the line's value. -/
theorem clockedData_shiftLine (c : Config) (b : Bool) {p : Pins} (h : p.clk = false) :
    clockedData p (shiftLine c b) = [b] := by
  simp [shiftLine, clockedData, Pins.after, Pins.drive, h]

theorem afterAll_shiftLine_clk (c : Config) (b : Bool) (p : Pins) : (p.afterAll (shiftLine c b)).clk = false := rfl

theorem clockedData_shiftLines (c : Config) (img : Memory) (n : Nat) {p : Pins} (h : p.clk = false) :
    clockedData p (shiftLines c img n) = (List.range n).reverse.map img.line := by
  induction n generalizing p with
  | zero => rfl
  | succ n ih =>
    rw [shiftLines, clockedData_append, clockedData_shiftLine c _ h, ih (afterAll_shiftLine_clk c _ p)]
    simp [List.range_succ]

/-- Step (c) alone drives DATA (R201). -/
theorem dataValues_txTrace (c : Config) (img : Memory) (p : Bool) :
    dataValues (txTrace c img p) = dataValues (shiftLines c img c.nl) := by
  have htail : dataValues (latchPulse c ++ if p then energizePulse c else []) = [] := by cases p <;> rfl
  change dataValues (shiftLines c img c.nl ++ _) = _
  rw [dataValues_append, htail, List.append_nil]

/-- Step (c) alone raises CLK, and starts with CLK low by step (a), whatever the levels before (R201). -/
theorem clockedData_txTrace (c : Config) (img : Memory) (p : Bool) (pins : Pins) :
    clockedData pins (txTrace c img p) =
      clockedData ((pins.drive .clk false).afterAll (clearPulse c)) (shiftLines c img c.nl) := by
  have hhead (tr : Trace) : clockedData pins (.pin .clk false :: (clearPulse c ++ tr)) =
      clockedData ((pins.drive .clk false).afterAll (clearPulse c)) tr := by
    simp [clockedData, clearPulse, Pins.drive]
  have htail {q : Pins} (hq : q.clk = false) :
      clockedData q (latchPulse c ++ if p then energizePulse c else []) = [] := by
    cases p <;> simp [latchPulse, energizePulse, clockedData, Pins.drive, hq]
  rw [txTrace, hhead, clockedData_append, Pins.afterAll_shiftLines _ _ _ _ rfl, htail rfl, List.append_nil]

/-- Settles O36: the lines' steps drive DATA and clock it in, from line NL-1 down to 0. -/
theorem dataGoesOutHighestLineFirst : Obligations.DataGoesOutHighestLineFirst := fun c img p pins =>
  ⟨(dataValues_txTrace c img p).trans (dataValues_shiftLines c img c.nl),
    (clockedData_txTrace c img p pins).trans (clockedData_shiftLines c img c.nl rfl)⟩

/-! ## The events counted by kind -/

/-- A kind of event that each line's step has k of, the lines' steps have k of for each line. -/
theorem countP_shiftLines {P : PinEvent → Bool} {k : Nat} {c : Config} (h : ∀ b, (shiftLine c b).countP P = k)
    (img : Memory) (n : Nat) : (shiftLines c img n).countP P = k * n := by
  induction n with
  | zero => rfl
  | succ n ih => rw [shiftLines, List.countP_append, h, ih]; ring

/-- The events of a kind, step by step of R201. -/
theorem countP_txTrace {P : PinEvent → Bool} {k : Nat} {c : Config} (h : ∀ b, (shiftLine c b).countP P = k)
    (img : Memory) (p : Bool) :
    (txTrace c img p).countP P = [PinEvent.pin .clk false].countP P + (clearPulse c).countP P + k * c.nl +
      (latchPulse c).countP P + (energizePulse c).countP P * p.toNat := by
  cases p <;> simp [txTrace, List.countP_cons, countP_shiftLines h] <;> ring

theorem length_txTrace (c : Config) (img : Memory) (p : Bool) :
    (txTrace c img p).length = 1 + 3 + 4 * c.nl + 3 + 3 * p.toNat := by
  rw [← List.countP_true, countP_txTrace (k := 4) (fun _ => rfl)]
  rfl

theorem length_writes_txTrace (c : Config) (img : Memory) (p : Bool) :
    ((txTrace c img p).filter PinEvent.isWrite).length = 5 + 3 * c.nl + 2 * p.toNat := by
  rw [← List.countP_eq_length_filter, countP_txTrace (k := 3) (fun _ => rfl)]
  change 1 + 2 + 3 * c.nl + 2 + 2 * p.toNat = _
  omega

theorem length_holds_txTrace (c : Config) (img : Memory) (p : Bool) :
    ((txTrace c img p).filter PinEvent.isHold).length = 2 + c.nl + p.toNat := by
  rw [← List.countP_eq_length_filter, countP_txTrace (k := 1) (fun _ => rfl)]
  change 0 + 1 + 1 * c.nl + 1 + 1 * p.toNat = _
  omega

/-! ## The pulses counted by their edges -/

theorem risingEdges_append (q : Pin) (p : Pins) (x y : Trace) :
    risingEdges q p (x ++ y) = risingEdges q p x + risingEdges q (p.afterAll x) y := by
  induction x generalizing p with
  | nil => simp [risingEdges]
  | cons e x ih => simp [risingEdges, ih, Nat.add_assoc]

/-- The rises and the falls of a pin alternate: they differ by the levels at the two ends alone. -/
theorem risingEdges_add_level (q : Pin) (p : Pins) (tr : Trace) :
    risingEdges q p tr + (p.level q).toNat = fallingEdges q p tr + ((p.afterAll tr).level q).toNat := by
  induction tr generalizing p with
  | nil => rfl
  | cons e tr ih =>
    have hrest := ih (p.after e)
    rw [risingEdges, fallingEdges, Pins.afterAll_cons]
    cases hbefore : p.level q <;> cases hafter : (p.after e).level q <;> simp [hafter] at hrest ⊢ <;> omega

theorem Pins.level_drive (p : Pins) (q r : Pin) (v : Bool) :
    (p.drive r v).level q = if q = r then v else p.level q := by
  cases q <;> cases r <;> rfl

/-- A pin written away from its level and back, either way, rises once, and no other pin does. -/
theorem risingEdges_pulse (q r : Pin) (v : Bool) (t : Rat) {p : Pins} (h : p.level r = !v) :
    risingEdges q p [.pin r v, .hold t, .pin r (!v)] = if q = r then 1 else 0 := by
  by_cases hq : q = r
  · subst hq
    cases v <;> simp [risingEdges, Pins.level_drive, h]
  · simp [risingEdges, Pins.level_drive, hq]

/-- A write of a low level raises no pin, and no write raises a pin other than its own. -/
theorem risingEdges_pin (q r : Pin) (v : Bool) (h : v = false ∨ q ≠ r) (p : Pins) (tr : Trace) :
    risingEdges q p (.pin r v :: tr) = risingEdges q (p.drive r v) tr := by
  obtain rfl | h := h
  · simp +contextual [risingEdges, Pins.level_drive]
  · simp [risingEdges, Pins.level_drive, h]

/-- A line's step raises CLK once, and no other pin but DATA (R204). -/
theorem risingEdges_shiftLine (c : Config) (b : Bool) {q : Pin} (hq : q ≠ .data) {p : Pins} (h : p.clk = false) :
    risingEdges q p (shiftLine c b) = if q = .clk then 1 else 0 := by
  rw [shiftLine, risingEdges_pin _ _ _ (.inr hq)]
  exact risingEdges_pulse q .clk true c.tClk h

theorem risingEdges_shiftLines (c : Config) (img : Memory) (n : Nat) {q : Pin} (hq : q ≠ .data) {p : Pins}
    (h : p.clk = false) : risingEdges q p (shiftLines c img n) = if q = .clk then n else 0 := by
  induction n generalizing p with
  | zero => simp [shiftLines, risingEdges]
  | succ n ih =>
    rw [shiftLines, risingEdges_append, risingEdges_shiftLine c _ hq h, ih (afterAll_shiftLine_clk c _ p)]
    split <;> omega

theorem risingEdges_clearPulse (q : Pin) (c : Config) {p : Pins} (h : p.clr = true) :
    risingEdges q p (clearPulse c) = if q = .clr then 1 else 0 :=
  risingEdges_pulse q .clr false c.tClr h

theorem risingEdges_latchPulse (q : Pin) (c : Config) {p : Pins} (h : p.latch = false) :
    risingEdges q p (latchPulse c) = if q = .latch then 1 else 0 :=
  risingEdges_pulse q .latch true c.tLatch h

/-- Step (e), which only TX(1) has (R201). -/
theorem risingEdges_energizeIf (q : Pin) (c : Config) (b : Bool) {p : Pins} (h : p.en = false) :
    risingEdges q p (if b then energizePulse c else []) = if q = .en then b.toNat else 0 := by
  cases b
  · simp [risingEdges]
  · exact risingEdges_pulse q .en true c.tEn h

/-- From the resting levels a transmission pulses CLK once a line, CLR and LATCH once, and EN once when p = 1. -/
theorem risingEdges_txTrace (c : Config) (img : Memory) (p : Bool) {q : Pin} (hq : q ≠ .data) {pins : Pins}
    (hclr : pins.clr = true) (hlatch : pins.latch = false) (hen : pins.en = false) :
    risingEdges q pins (txTrace c img p) = (if q = .clr then 1 else 0) + (if q = .clk then c.nl else 0) +
      (if q = .latch then 1 else 0) + (if q = .en then p.toNat else 0) := by
  rw [txTrace, risingEdges_pin _ _ _ (.inl rfl), risingEdges_append, risingEdges_append, risingEdges_append,
    Pins.afterAll_shiftLines _ _ _ _ rfl, risingEdges_clearPulse, risingEdges_shiftLines _ _ _ hq,
    risingEdges_latchPulse, risingEdges_energizeIf]
  · ring
  · exact hen
  · exact hlatch
  · rfl
  · exact hclr

/-- A pin at the same level before and after a trace falls as often as it rises. -/
theorem fallingEdges_eq_risingEdges {q : Pin} {p : Pins} {tr : Trace} (h : (p.afterAll tr).level q = p.level q) :
    fallingEdges q p tr = risingEdges q p tr := by
  have hbalance := risingEdges_add_level q p tr
  rw [h] at hbalance
  exact (Nat.add_right_cancel hbalance).symm

/-- Settles O37: the rises are counted step by step of R201; CLR, LATCH and EN fall as often as they rise, since each
ends a transmission at the level it rests at. -/
theorem transmissionEventCounts : Obligations.TransmissionEventCounts := by
  intro c img p pins hclr hlatch hen
  have hend := Pins.afterAll_txTrace c img p pins
  have hclrEnd : (pins.afterAll (txTrace c img p)).level .clr = pins.level .clr := by simp [hend, Pins.level, hclr]
  have hlatchEnd : (pins.afterAll (txTrace c img p)).level .latch = pins.level .latch := by
    simp [hend, Pins.level, hlatch]
  have henEnd : (pins.afterAll (txTrace c img p)).level .en = pins.level .en := by simp [hend, Pins.level, hen]
  have hrises {q : Pin} (hq : q ≠ .data) := risingEdges_txTrace c img p hq hclr hlatch hen
  refine ⟨length_txTrace c img p, length_writes_txTrace c img p, length_holds_txTrace c img p, ?_⟩
  rw [fallingEdges_eq_risingEdges hclrEnd, fallingEdges_eq_risingEdges hlatchEnd, fallingEdges_eq_risingEdges henEnd]
  simp [hrises]

end Sys2Proof.Machine
end

section
/-! PROOF. SETCOL then GETCOL (43_accessors.md R244), and the image the accessors stage against the one AF assembles
(R245). -/

namespace Sys2Proof.Machine

/-- What a command in bounds of a fault-free DDE leaves of the fields its successor's prologue and accessors read. -/
theorem next_reads_of_exec_runs {i : Instr} {s t : State} (hf : s.faulted = false) (hb : inBounds s.cfg i = true)
    (h : exec i s = .next t) : t.faulted = false ∧ t.cfg = s.cfg ∧ t.img = (effect i s).img := by
  rw [next_eq_of_exec_runs hf hb h]
  exact ⟨(effect_faulted i s).trans hf, effect_cfg i s, rfl⟩

theorem columnOk_of_lt {c : Config} {m col : Nat} (hm : m < c.modules) (hcol : col < colCount c m) :
    columnOk c m col = true := by
  rw [columnOk, moduleOk, decide_eq_true hm, decide_eq_true hcol, Bool.and_self]

/-! ## SETCOL then GETCOL -/

/-- A field of distinct lines below NL reads back the value it was driven to, when the value fits it. -/
theorem readField_driveField {c : Config} {f : Nat → Nat} {n v : Nat} (mem : Memory) (hv : v < 2 ^ n)
    (hnl : ∀ i < n, f i < c.nl) (hinj : ∀ i < n, ∀ k < n, f i = f k → i = k) :
    readField (driveField c f n v mem) f n = v := by
  refine Nat.eq_of_testBit_eq fun j => ?_
  rw [(readField_bits _ f n).2 j]
  by_cases hj : j < n
  · rw [line_driveField c f n v j mem hj hnl hinj, decide_eq_true hj, Bool.true_and]
  · have hhigh : v < 2 ^ j := hv.trans_le (Nat.pow_le_pow_right (by decide) (by omega))
    rw [decide_eq_false hj, Bool.false_and, Nat.testBit_lt_two_pow hhigh]

/-- GETCOL's scan stops at the only column of the window whose code is on the column-code lines (R236). -/
theorem matchColumn_of_unique {c : Config} {m col : Nat} {img : Memory} (hcol : col < colCount c m)
    (hcode : columnCode c m col = readField img (codeLine c) c.ncc)
    (honly : ∀ b, b < colCount c m → columnCode c m b = columnCode c m col → b = col) :
    matchColumn c m img = BitVec.ofNat 32 col := by
  have hfind : (List.range (colCount c m)).find?
      (fun b => columnCode c m b == readField img (codeLine c) c.ncc) = some col := by
    refine List.find?_range_eq_some.2 ⟨by simp [hcode], List.mem_range.2 hcol, fun b hb => ?_⟩
    have hne : columnCode c m b ≠ columnCode c m col := fun e => Nat.ne_of_lt hb (honly b (hb.trans hcol) e)
    simpa [← hcode] using hne
  rw [matchColumn, hfind]

/-- Settles O48: the column-code lines read back the code SETCOL drove, and GETCOL finds it at c alone. -/
theorem setcolThenGetcolReturnsTheColumn : Obligations.SetcolThenGetcolReturnsTheColumn := by
  intro s t m c hf hv hm hc honly hset
  obtain ⟨htf, htcfg, htimg⟩ := next_reads_of_exec_runs (i := .setcol m c) hf (columnOk_of_lt hm hc) hset
  have hcode : readField t.img (codeLine s.cfg) s.cfg.ncc = columnCode s.cfg m c := by
    rw [htimg]
    exact readField_driveField s.img (columnCode_lt hv hm hc) (fun _ => codeLine_lt hv) (codeLine_inj hv)
  have hanswer : answer (.getcol m) t = BitVec.ofNat 32 c := by
    rw [answer, htcfg]
    exact matchColumn_of_unique hc hcode.symm honly
  have hm' : inBounds t.cfg (.getcol m) = true := by rw [htcfg]; exact decide_eq_true hm
  rw [exec_runs (.getcol m) t htf hm', hanswer]
  rfl

/-! ## The image the accessors stage -/

/-- Steps (1) to (5) of AF: the assembled image before the indicator lines (41_image_assembly.md R171). -/
def stagedImage (c : Config) (d : Dot) (set : Bool) : Memory :=
  putLine c c.dirLine (!set)
    (driveField c (addressLine c) c.naw (moduleAddr c d.m)
      (driveField c (codeLine c) c.ncc (columnCode c d.m d.c)
        (putLine c (if set then rowSet c d.r else rowReset c d.r) true zeroImage)))

theorem assembleImage_eq_driveField (c : Config) (d : Dot) (set : Bool) (ind : BitVec 3) :
    assembleImage c d set ind = driveField c (indicatorLine c) 3 ind.toNat (stagedImage c d set) := rfl

theorem wf_stagedImage (c : Config) (d : Dot) (set : Bool) : (stagedImage c d set).wf = true :=
  wf_putLine _ _ _ _ (wf_driveField _ _ _ _ _ (wf_driveField _ _ _ _ _ (wf_putLine _ _ _ _ Memory.wf_zeroImage)))

/-- No line of another role is an indicator line (R16). -/
theorem indicatorLine_ne_of_mem {c : Config} (hv : validConfig c = true) {k : Nat} (hk : k < 3) {L : Nat}
    (hL : L ∈ c.rowSetLine ++ c.rowResetLine ++ c.colCodeLine ++ c.addrLine ++ [c.dirLine]) :
    indicatorLine c k ≠ L :=
  fun e => List.disjoint_of_nodup_append (lines_nodup hv) hL (e ▸ indicatorLine_mem hv hk)

/-- Steps (1) to (5) drive lines of the other roles alone, and leave the indicator lines 0. -/
theorem stagedImage_indicatorLine {c : Config} (hv : validConfig c = true) {d : Dot} (hr : d.r < c.rows) (set : Bool)
    {k : Nat} (hk : k < 3) : (stagedImage c d set).line (indicatorLine c k) = false := by
  have hdir : indicatorLine c k ≠ c.dirLine := indicatorLine_ne_of_mem hv hk (by simp)
  have haddr : ∀ i < c.naw, indicatorLine c k ≠ addressLine c i := fun i hi =>
    indicatorLine_ne_of_mem hv hk (by simp [addressLine_mem hv hi])
  have hcode : ∀ j < c.ncc, indicatorLine c k ≠ codeLine c j := fun j hj =>
    indicatorLine_ne_of_mem hv hk (by simp [codeLine_mem hv hj])
  have hrow : indicatorLine c k ≠ if set then rowSet c d.r else rowReset c d.r :=
    indicatorLine_ne_of_mem hv hk (by cases set <;> simp [rowSet_mem hv hr, rowReset_mem hv hr])
  rw [stagedImage, line_putLine, if_neg fun h => hdir h.1, line_driveField_of_ne _ _ _ _ _ _ haddr,
    line_driveField_of_ne _ _ _ _ _ _ hcode, line_putLine, if_neg fun h => hrow h.1, Memory.line_zeroImage]

/-- Step (6) of AF adds the indicator lines of the flags that are 1 to the staged image, and nothing else. -/
theorem assembleImage_line_iff {c : Config} (hv : validConfig c = true) {d : Dot} (hr : d.r < c.rows) (set : Bool)
    (ind : BitVec 3) (L : Nat) :
    (assembleImage c d set ind).line L = true ↔
      (stagedImage c d set).line L = true ∨ ∃ k, k < 3 ∧ L = indicatorLine c k ∧ ind.getLsbD k = true := by
  rw [assembleImage_eq_driveField,
    line_driveField_iff _ _ _ _ _ _ (fun _ => indicatorLine_lt hv) (indicatorLine_inj hv), or_comm]
  refine or_congr_left (and_iff_right_of_imp fun hL k hk e => ?_)
  rw [e, stagedImage_indicatorLine hv hr set hk] at hL
  exact Bool.false_ne_true hL

/-- A byte is its eight lines (R71). -/
theorem Memory.read_getLsbD (mem : Memory) (a : Nat) {b : Nat} (hb : b < 8) :
    (mem.read a).getLsbD b = mem.line (8 * a + b) := by
  rw [Memory.line, show (8 * a + b) / 8 = a by omega, show (8 * a + b) % 8 = b by omega]

/-- Two canonical stores with the same lines are equal. -/
theorem Memory.ext_of_line {x y : Memory} (hx : x.wf = true) (hy : y.wf = true) (h : ∀ L, x.line L = y.line L) :
    x = y :=
  Memory.ext_of_wf x y hx hy fun a => BitVec.eq_of_getLsbD_eq fun b hb => by
    rw [Memory.read_getLsbD x a hb, Memory.read_getLsbD y a hb, h]

theorem assembleImage_of_flags_zero {c : Config} (hv : validConfig c = true) {d : Dot} (hr : d.r < c.rows)
    (set : Bool) : assembleImage c d set 0#3 = stagedImage c d set :=
  Memory.ext_of_line (wf_assembleImage c d set 0#3) (wf_stagedImage c d set) fun L => Bool.eq_iff_iff.2 <| by
    rw [assembleImage_line_iff hv hr]
    simp

theorem clearLines_zeroImage (c : Config) (f : Nat → Nat) (n : Nat) : clearLines c f n zeroImage = zeroImage := by
  induction n with
  | zero => rfl
  | succ n ih => rw [clearLines_succ, ih, putLine_zeroImage]

/-- From the zero image the row select of either polarity leaves one line at 1: step (2) of AF. -/
theorem effect_rowSelect_of_zeroImage {s : State} (h : s.img = zeroImage) (set : Bool) (r : Nat) :
    (effect (if set then .setrowset r else .setrowreset r) s).img =
      putLine s.cfg (if set then rowSet s.cfg r else rowReset s.cfg r) true zeroImage := by
  cases set <;> simp [effect, h, clearLines_zeroImage]

/-- SETADDR with a module's address drives it unchanged: it fits WDATA (R12). -/
theorem toNat_ofNat_moduleAddr {c : Config} (hv : validConfig c = true) {m : Nat} (hm : m < c.modules) :
    (BitVec.ofNat 32 (moduleAddr c m)).toNat = moduleAddr c m := by
  obtain ⟨-, -, hnaw⟩ := widths_of_valid hv
  have hlt : moduleAddr c m < 2 ^ 32 := (moduleAddr_lt hv hm).trans_le (Nat.pow_le_pow_right (by decide) hnaw)
  rw [BitVec.toNat_ofNat, Nat.mod_eq_of_lt hlt]

theorem inBounds_rowSelect {c : Config} {r : Nat} (hr : r < c.rows) (set : Bool) :
    inBounds c (if set then .setrowset r else .setrowreset r) = true := by
  cases set <;> exact decide_eq_true hr

/-- The accessors' sequence of R245 stages steps (1) to (5) of AF. -/
theorem accessors_stage_stagedImage {s t1 t2 t3 t4 t5 : State} {r m c : Nat} {set : Bool} (hf : s.faulted = false)
    (hv : validConfig s.cfg = true) (hr : r < s.cfg.rows) (hm : m < s.cfg.modules) (hc : c < colCount s.cfg m)
    (h1 : exec .clrimg s = .next t1) (h2 : exec (if set then .setrowset r else .setrowreset r) t1 = .next t2)
    (h3 : exec (.setcol m c) t2 = .next t3)
    (h4 : exec .setaddr { t3 with wdata := BitVec.ofNat 32 (moduleAddr s.cfg m) } = .next t4)
    (h5 : exec (.setdir (!set)) t4 = .next t5) : t5.img = stagedImage s.cfg ⟨r, m, c⟩ set := by
  obtain ⟨hf1, hcfg1, himg1⟩ := next_reads_of_exec_runs hf rfl h1
  have hb2 : inBounds t1.cfg (if set then .setrowset r else .setrowreset r) = true := by
    rw [hcfg1]; exact inBounds_rowSelect hr set
  obtain ⟨hf2, hcfg2, himg2⟩ := next_reads_of_exec_runs hf1 hb2 h2
  have hb3 : inBounds t2.cfg (.setcol m c) = true := by
    rw [hcfg2, hcfg1]; exact columnOk_of_lt hm hc
  obtain ⟨hf3, hcfg3, himg3⟩ := next_reads_of_exec_runs hf2 hb3 h3
  obtain ⟨hf4, hcfg4, himg4⟩ := next_reads_of_exec_runs
    (s := { t3 with wdata := BitVec.ofNat 32 (moduleAddr s.cfg m) }) hf3 rfl h4
  obtain ⟨-, -, himg5⟩ := next_reads_of_exec_runs hf4 rfl h5
  rw [effect_rowSelect_of_zeroImage himg1] at himg2
  simp only [effect, State.withImg_img] at himg3 himg4 himg5
  rw [himg5, himg4, himg3, himg2, hcfg4, hcfg3, hcfg2, hcfg1, toNat_ofNat_moduleAddr hv hm, stagedImage]

/-- Settles O53: the accessors stage AF's image before its indicator lines, and step (6) adds those of the flags that
are 1, which AF leaves as they are in STATIC mode. -/
theorem accessorsStageTheAssembledImage : Obligations.AccessorsStageTheAssembledImage := by
  intro s t1 t2 t3 t4 t5 u r m c set hf hv hstatic hr hm hc h1 h2 h3 h4 h5 hfire
  have hstaged := accessors_stage_stagedImage hf hv hr hm hc h1 h2 h3 h4 h5
  have hdot : inBounds s.cfg (.fire r m c set) = true := by
    rw [inBounds, dotOk, rowOk, decide_eq_true hr, columnOk_of_lt hm hc, Bool.and_self]
  have hfired : u.img = assembleImage s.cfg ⟨r, m, c⟩ set s.ind := by
    obtain ⟨-, -, himg⟩ := next_reads_of_exec_runs hf hdot hfire
    simpa [effect, autoToggle, hstatic] using himg
  rw [hstaged, hfired]
  refine ⟨fun hind => ?_, assembleImage_line_iff hv hr set s.ind⟩
  rw [hind, assembleImage_of_flags_zero hv hr set]

end Sys2Proof.Machine
end

section
/-! PROOF. The checks of a presented command in their order, refusal, and the fault mechanism (60_exceptions.md R304,
R310, R311). What a command does is the same from every sequencer (10_state.md R41): its response ends in IDLE. -/

namespace Sys2Proof.Machine

/-! ## No command reads the sequencer (10_state.md R41) -/

theorem answer_withSeq (i : Instr) (s : State) (q : Sequencer) : answer i (s.withSeq q) = answer i s := by
  cases i <;> rfl

/-- Each field of the effect but the sequencer is a function of the fields but the sequencer, and the response sets the
sequencer to IDLE. -/
theorem respond_effect_withSeq (i : Instr) (s : State) (q : Sequencer) (status : BitVec 3) (rdata : Word) :
    (effect i (s.withSeq q)).respond status rdata = (effect i s).respond status rdata := by
  cases i
  case inverse => cases h : s.cfg.inverseCycle <;> simp [effect, State.respond, h]
  all_goals simp [effect, State.respond]

/-- A command ends in the same state from every sequencer: refused, BOUNDS, or run. -/
theorem exec_withSeq (i : Instr) (s : State) (q : Sequencer) : exec i (s.withSeq q) = exec i s := by
  cases hf : s.faulted with
  | true =>
    rw [exec_refused i s hf, exec_refused i (s.withSeq q) hf]
    rfl
  | false =>
    cases hb : inBounds s.cfg i with
    | false =>
      rw [exec_bounds i s hf hb, exec_bounds i (s.withSeq q) hf hb]
      rfl
    | true => rw [exec_runs i s hf hb, exec_runs i (s.withSeq q) hf hb, answer_withSeq, respond_effect_withSeq]

/-! ## An accepted command -/

theorem runAccepted_legal (s : State) {i : Instr} (h : decode s.cmd = some i) : runAccepted s = exec i s := by
  rw [runAccepted, h]

theorem runAccepted_illegal (s : State) (hf : s.faulted = false) (h : decode s.cmd = none) :
    runAccepted s = .next (s.raiseFault stIllegal) := by
  simp [runAccepted, h, State.illegalWord, hf]

/-- Check 1 of R311 comes before the decoder's verdict: in the fault state a legal word is refused by its command's
prologue, an illegal one at once. -/
theorem runAccepted_refused (s : State) (hf : s.faulted = true) : runAccepted s = .next s.refuse := by
  cases hd : decode s.cmd with
  | none => simp [runAccepted, hd, State.illegalWord, hf]
  | some i => rw [runAccepted_legal s hd, exec_refused i s hf]

/-! ## A presented command -/

section
variable {s : State} {cmd wdata : Word} {rest : List Input} (hi : s.inputs = .command cmd wdata [] :: rest)
  (hr : s.ready = true)
include hi hr

theorem step_refused (hf : s.faulted = true) : step s = .next (s.accept cmd wdata rest).refuse := by
  rw [step_accept s cmd wdata rest hi hr, runAccepted_refused (s.accept cmd wdata rest) hf]

theorem step_illegal (hf : s.faulted = false) (hd : decode cmd = none) :
    step s = .next ((s.accept cmd wdata rest).raiseFault stIllegal) := by
  rw [step_accept s cmd wdata rest hi hr, runAccepted_illegal (s.accept cmd wdata rest) hf hd]

theorem step_legal {i : Instr} (hd : decode cmd = some i) : step s = exec i (s.accept cmd wdata rest) := by
  rw [step_accept s cmd wdata rest hi hr, runAccepted_legal (s.accept cmd wdata rest) hd]

end

/-! ## A decoded command in and out of bounds -/

theorem inBounds_of_not_boundsCondition {c : Config} {i : Instr} (h : ¬ boundsCondition c i) : inBounds c i = true := by
  rwa [← inBounds_iff, Bool.not_eq_false] at h

theorem exec_of_boundsCondition {i : Instr} {s : State} (hf : s.faulted = false) (hb : boundsCondition s.cfg i) :
    exec i s = .next (s.raiseFault stBounds) :=
  exec_bounds i s hf ((inBounds_iff s.cfg i).2 hb)

/-- A command in bounds of a fault-free DDE answers OK and keeps the fault registers (R300, R311 check 4). -/
theorem next_status_fault_of_exec_runs {i : Instr} {s t : State} (hf : s.faulted = false)
    (hb : inBounds s.cfg i = true) (h : exec i s = .next t) :
    t.status = stOk ∧ t.faulted = false ∧ t.faultCode = s.faultCode := by
  rw [next_eq_of_exec_runs hf hb h]
  exact ⟨rfl, (effect_faulted i s).trans hf, effect_faultCode i s⟩

/-- Settles O8: a command is refused by its prologue, a presented word by check 1 of R311. -/
theorem refusedCommandHasNoEffect : Obligations.RefusedCommandHasNoEffect :=
  ⟨exec_refused, fun _ _ _ _ hf hi hr => step_refused hi hr hf⟩

/-- Settles O7: one case for each of the four checks of R311; a command that runs does the same from every sequencer. -/
theorem prologueOrder : Obligations.PrologueOrder := by
  intro s cmd wdata rest hi hr
  obtain ⟨t, ht⟩ := step_some s
  have eq_of_step : ∀ {u}, step s = .next u → t = u := fun hu => by
    rw [ht] at hu
    injection hu
  refine ⟨t, ht, fun hf => eq_of_step (step_refused hi hr hf), fun hf hd => eq_of_step (step_illegal hi hr hf hd),
    fun i hf hd => ⟨fun hb => ?_, fun hb => ?_⟩⟩
  · exact eq_of_step ((step_legal hi hr hd).trans (exec_of_boundsCondition hf hb))
  · have hrun : exec i (s.accept cmd wdata rest) = .next t := (step_legal hi hr hd).symm.trans ht
    exact ⟨fun k => (exec_withSeq i (s.accept cmd wdata rest) (.busy k)).trans hrun,
      next_status_fault_of_exec_runs (s := s.accept cmd wdata rest) hf (inBounds_of_not_boundsCondition hb) hrun⟩

/-! ## The fault state is left only by reset (R310, R314) -/

/-- A step from the fault state with no reset input asserted keeps FAULTED and FAULTCODE: the DDE waits, or refuses. -/
theorem step_faulted_cases {s t : State} (hf : s.faulted = true) (h : step s = .next t) :
    t.faulted = true ∧ t.faultCode = s.faultCode ∨
    ∃ input rest, s.inputs = input :: rest ∧
      ((∃ rst, input = .reset rst) ∨ ∃ cmd wdata k ks, input = .command cmd wdata (k :: ks)) := by
  rcases step_cases s t h with ⟨-, rfl⟩ | ⟨rst, rest, hi, -⟩ | ⟨-, -, -, -, -, -, rfl⟩ |
    ⟨cmd, wdata, rst, rest, u, hi, -, hu, rfl⟩
  · exact .inl ⟨hf, rfl⟩
  · exact .inr ⟨_, rest, hi, .inl ⟨rst, rfl⟩⟩
  · exact .inl ⟨hf, rfl⟩
  · cases rst with
    | nil =>
      rw [runAccepted_refused (s.accept cmd wdata rest) hf] at hu
      injection hu with hu
      subst hu
      exact .inl ⟨hf, rfl⟩
    | cons k ks => exact .inr ⟨_, rest, hi, .inr ⟨cmd, wdata, k, ks, rfl⟩⟩

/-- Settles O9: BOUNDS is taken by the prologue, ILLEGAL by check 2 of R311, and only a reset ends the fault state. -/
theorem faultsArePreciseAndSticky : Obligations.FaultsArePreciseAndSticky :=
  ⟨fun _ _ hf hb => exec_of_boundsCondition hf hb, fun _ _ _ _ hf hi hr hd => step_illegal hi hr hf hd,
    fun _ _ hf h => step_faulted_cases hf h⟩

end Sys2Proof.Machine
end

section
/-! PROOF. Encoding and decoding undo each other (30_encoding.md R101 to R104, R108), and which bits of a word are which
operand: every field of a word is a quotient and a remainder of its value. -/

namespace Sys2Proof

/-! ## The fields of a word as numbers (R101, R102) -/

theorem extractLsb'_toNat_eq (w : Word) (lo n : Nat) : (w.extractLsb' lo n).toNat = w.toNat / 2 ^ lo % 2 ^ n := by
  rw [BitVec.extractLsb'_toNat, Nat.shiftRight_eq_div_pow]

theorem getLsbD_eq_mod_two (w : Word) (i : Nat) : w.getLsbD i = (w.toNat / 2 ^ i % 2 == 1) := by
  rw [BitVec.getLsbD, Nat.testBit_eq_decide_div_mod_eq]
  rfl

theorem fieldOp_eq (w : Word) : fieldOp w = w.toNat / 16777216 % 256 := extractLsb'_toNat_eq w 24 8

theorem fieldA_eq (w : Word) : fieldA w = w.toNat / 65536 % 256 := extractLsb'_toNat_eq w 16 8

theorem fieldB_eq (w : Word) : fieldB w = w.toNat / 256 % 256 := extractLsb'_toNat_eq w 8 8

theorem fieldC_eq (w : Word) : fieldC w = w.toNat % 256 := by
  simp [fieldC]

theorem fieldS_eq (w : Word) : fieldS w = (w.toNat / 128 % 2 == 1) := getLsbD_eq_mod_two w 7

theorem fieldMid_eq (w : Word) : fieldMid w = w.toNat / 32 % 4 := extractLsb'_toNat_eq w 5 2

theorem fieldCol_eq (w : Word) : fieldCol w = w.toNat % 32 := by
  simp [fieldCol]

theorem fieldInd_eq (w : Word) : fieldInd w = w.toNat % 8 := by
  simp [fieldInd]

theorem fieldFlag_eq (w : Word) : fieldFlag w = (w.toNat % 2 == 1) := by
  rw [fieldFlag, getLsbD_eq_mod_two, Nat.pow_zero, Nat.div_one]

theorem fieldAboveFlag_eq (w : Word) : fieldAboveFlag w = w.toNat / 2 % 128 := extractLsb'_toNat_eq w 1 7

theorem fieldAboveInd_eq (w : Word) : fieldAboveInd w = w.toNat / 8 % 32 := extractLsb'_toNat_eq w 3 5

/-- The value of a word, field by field; an operand past its field's end is cut (R101). -/
theorem wordOf_toNat (op a b c : Nat) :
    (wordOf op a b c).toNat = op % 256 * 16777216 + a % 256 * 65536 + b % 256 * 256 + c % 256 := by
  have hor {x y : Nat} (hy : y % 256 < 2 ^ 8) : x <<< 8 ||| y % 256 = x * 256 + y % 256 := by
    rw [← Nat.shiftLeft_add_eq_or_of_lt hy, Nat.shiftLeft_eq]
  simp only [wordOf, BitVec.toNat_append, BitVec.toNat_ofNat, Nat.reducePow]
  rw [hor (Nat.mod_lt _ (by decide)), hor (Nat.mod_lt _ (by decide)), hor (Nat.mod_lt _ (by decide))]
  omega

theorem toNat_mod_two_beq_one (n : Nat) : (n % 2 == 1).toNat = n % 2 := by
  rcases Nat.mod_two_eq_zero_or_one n with h | h <;> rw [h] <;> rfl

theorem not_mod_two_beq_one (n : Nat) : (!(n % 2 == 1)) = (n % 2 == 0) := by
  rcases Nat.mod_two_eq_zero_or_one n with h | h <;> rw [h] <;> rfl

/-! ## The two directions -/

/-- Settles O1: the fields of the word are the operands again, since each fits its field. -/
theorem decodeInvertsEncode : Obligations.DecodeInvertsEncode := by
  intro i hi
  cases i
  case init | clear | fill | inverse | magnetize | clrimg | getrowset | getrowreset | setaddr | getaddr | getdir |
      getind => rfl
  case paint f | transmit f | setdir f => cases f <;> rfl
  all_goals
    simp only [Instr.wf, fitsByte, fitsCol, fitsInd, Bool.and_eq_true, decide_eq_true_iff] at hi
    simp only [decode, encode, opcode, fieldOp_wordOf, Nat.reduceMod, legalIf_eq_some_iff]
    simp only [fieldA_eq, fieldB_eq, fieldC_eq, fieldS_eq, fieldMid_eq, fieldCol_eq, fieldInd_eq, fieldAboveInd_eq,
      not_mod_two_beq_one, wordOf_toNat, Bool.and_eq_true, beq_iff_eq]
  case fire r m c set => cases set <;> simp <;> omega
  all_goals
    simp only [Instr.wrdes.injEq, Instr.rdcur.injEq, Instr.rddes.injEq, Instr.setrowset.injEq,
      Instr.setrowreset.injEq, Instr.setcol.injEq, Instr.getcol.injEq, Instr.setind.injEq, Instr.rdimg.injEq]
    omega

/-- Settles O2: the decoder found OP, the row's zeros and the operands, and the word is these fields put together. -/
theorem encodeInvertsDecode : Obligations.EncodeInvertsDecode := by
  intro w i h
  have hw := w.isLt
  rw [decode] at h
  split at h
  case h_26 => cases h
  all_goals
    rename_i hop
    obtain ⟨hzero, rfl⟩ := legalIf_eq_some_iff.1 h
    simp only [fieldOp_eq, fieldA_eq, fieldB_eq, fieldC_eq, fieldS_eq, fieldMid_eq, fieldCol_eq, fieldInd_eq,
      fieldFlag_eq, fieldAboveFlag_eq, fieldAboveInd_eq, not_mod_two_beq_one, Bool.and_eq_true, beq_iff_eq]
      at hop hzero ⊢
    refine ⟨?_, BitVec.eq_of_toNat_eq ?_⟩
    · simp only [Instr.wf, fitsByte, fitsCol, fitsInd, Bool.and_eq_true, decide_eq_true_iff] <;> omega
    · simp only [encode, opcode, wordOf_toNat, toNat_mod_two_beq_one]
      omega

/-! ## The operand fields of each row -/

/-- A word that matches a row has the row's OP and is 0 under the rest of the row's mask. -/
theorem op_and_zeros_of_match {mask pattern w : Word}
    (hrow : ∃ row ∈ opcodeRows, row.mask = mask ∧ row.pattern = pattern) (h : w &&& mask = pattern) :
    fieldOp w = fieldOp pattern ∧ w &&& (mask &&& belowOp) = 0#32 := by
  obtain ⟨row, hmem, rfl, rfl⟩ := hrow
  exact (accepts_iff hmem w).1 (beq_iff_eq.2 h)

/-- Settles O4: the row's OP selects the decoder's case, whose zeros are the row's mask below OP, and the operands are
the fields read there. -/
theorem operandFieldsOfEachRow : Obligations.OperandFieldsOfEachRow := by
  intro w
  simp only [← fieldA_eq, ← fieldB_eq, ← fieldS_eq, ← fieldCol_eq, ← fieldInd_eq, ← fieldFlag_eq]
  refine ⟨?_, ?_, ?_, ?_, ?_, ?_, ?_, ?_, ?_, ?_, ?_, ?_, ?_⟩
  all_goals
    intro h
    obtain ⟨hop, hzero⟩ := op_and_zeros_of_match (by decide) h
    simp only [fieldOp_ofNat, Nat.reducePow, Nat.reduceDiv, Nat.reduceMod] at hop
    simp only [decode, hop, fieldA_beq_zero, fieldB_beq_zero, fieldC_beq_zero, fieldMid_beq_zero,
      fieldAboveFlag_beq_zero, fieldAboveInd_beq_zero, not_fieldS, zero_under_both]
    exact legalIf_eq_some_iff.2 ⟨beq_iff_eq.2 hzero, rfl⟩

/-- Settles O5: each word runs through the decoder. -/
theorem sampleWordsDecode : Obligations.SampleWordsDecode := by
  unfold Obligations.SampleWordsDecode
  decide

end Sys2Proof
end

section
/-! PROOF. What every step keeps: the configuration, the trace so far and the invariant of Safety.lean. A step waits,
ends after a reset, or ends with an accepted command's response (60_exceptions.md R311; 70_reset_and_hazards.md
R342). -/

namespace Sys2Proof.Machine

/-! ## The events of a command -/

/-- The pin events of each command that runs (20_memory.md R78). -/
def commandEvents (i : Instr) (s : State) : Trace :=
  match i with
  | .init => selfTestTrace s.cfg
  | .paint f => fireTrace s.cfg s.ind ((everyDot s.cfg s.des.dot).filter (paintGoes s.cur f))
  | .clear => fireTrace s.cfg s.ind (everyDot s.cfg fun _ => false)
  | .fill => fireTrace s.cfg s.ind (everyDot s.cfg fun _ => true)
  | .inverse => fireTrace s.cfg s.ind (everyDot s.cfg (tabulate s.cfg fun r m => ~~~(s.cur.word r m)).dot)
  | .magnetize => fireTrace s.cfg s.ind
      (List.replicate s.wdata.toNat ((everyDot s.cfg fun _ => true).filter fun f => s.cur.dot f.dot)).flatten
  | .fire r m c set => txTrace s.cfg (assembleImage s.cfg ⟨r, m, c⟩ set (autoToggle s.cfg s.ind)) true
  | .transmit p => txTrace s.cfg s.img p
  | _ => []

/-- A command's events are appended to the trace and drive the pins. -/
theorem effect_trace_pins (i : Instr) (s : State) :
    (effect i s).trace = s.trace ++ commandEvents i s ∧ (effect i s).pins = s.pins.afterAll (commandEvents i s) := by
  cases i
  case inverse => cases h : s.cfg.inverseCycle <;> simp [effect, commandEvents, h]
  all_goals simp [effect, commandEvents]

/-! ## Everything a step can end in -/

/-- The state after reset, with the events so far before its own (R340). -/
def State.afterReset (s : State) (evs : Trace) (rest : List Input) : State :=
  { State.resetWith s.cfg with trace := s.trace ++ evs ++ (State.resetWith s.cfg).trace, inputs := rest }

theorem State.resetUnder_eq_afterReset (s : State) (ks : List Nat) :
    ∃ evs, s.resetUnder ks = s.afterReset evs s.inputs :=
  s.resetUnder_spec ks

/-- A run cut by reset ends in the state after reset, with the events it emitted in the trace (R342). -/
theorem State.abandonAt_resetUnder (s t : State) (k : Nat) (ks : List Nat) :
    ∃ evs, (s.abandonAt k t).resetUnder ks = s.afterReset evs s.inputs := by
  obtain ⟨evs, h⟩ := (s.abandonAt k t).resetUnder_eq_afterReset ks
  refine ⟨(t.trace.drop s.trace.length).take k ++ evs, ?_⟩
  rw [h, State.afterReset, State.afterReset, ← List.append_assoc]
  rfl

/-- An accepted command is refused, or takes a fault, or runs. -/
theorem runAccepted_outcomes {s t : State} (h : runAccepted s = .next t) :
    t = s.refuse ∨ (s.faulted = false ∧ (t = s.raiseFault stIllegal ∨ t = s.raiseFault stBounds)) ∨
      ∃ i, t = (effect i s).respond stOk (answer i s) := by
  rcases runAccepted_cases s t h with ⟨i, -, hi⟩ | ⟨-, rfl⟩
  · rcases exec_cases i s t hi with ⟨-, rfl⟩ | ⟨hf, -, rfl⟩ | ⟨-, -, rfl⟩
    · exact .inl rfl
    · exact .inr (.inl ⟨hf, .inr rfl⟩)
    · exact .inr (.inr ⟨i, rfl⟩)
  · cases hf : s.faulted with
    | true => exact .inl (by simp [State.illegalWord, hf])
    | false => exact .inr (.inl ⟨rfl, .inl (by simp [State.illegalWord, hf])⟩)

/-- A step leaves the state, or ends after a reset, or is the undisturbed run of an accepted command. -/
theorem step_outcomes {s t : State} (h : step s = .next t) :
    t = s ∨ (∃ evs rest, t = s.afterReset evs rest) ∨
      ∃ cmd wdata rest, runAccepted (s.accept cmd wdata rest) = .next t := by
  rcases step_cases s t h with ⟨-, rfl⟩ | ⟨rst, rest, -, rfl⟩ | ⟨-, -, -, -, -, -, rfl⟩ |
    ⟨cmd, wdata, rst, rest, u, -, -, hu, rfl⟩
  · exact .inl rfl
  · obtain ⟨evs, he⟩ := State.resetUnder_eq_afterReset { s with inputs := rest } rst
    exact .inr (.inl ⟨evs, rest, he⟩)
  · exact .inl rfl
  · cases rst with
    | nil => exact .inr (.inr ⟨cmd, wdata, rest, hu⟩)
    | cons k ks =>
      obtain ⟨evs, he⟩ := (s.accept cmd wdata rest).abandonAt_resetUnder u k ks
      exact .inr (.inl ⟨evs, rest, he⟩)

/-- Settles O13: no outcome of a step has another configuration. -/
theorem configurationIsNeverWritten : Obligations.ConfigurationIsNeverWritten := by
  intro s t h
  rcases step_outcomes h with rfl | ⟨evs, rest, rfl⟩ | ⟨cmd, wdata, rest, hrun⟩
  · rfl
  · rfl
  · rcases runAccepted_outcomes hrun with rfl | ⟨-, rfl | rfl⟩ | ⟨i, rfl⟩
    · rfl
    · rfl
    · rfl
    · exact effect_cfg i (s.accept cmd wdata rest)

/-- Settles O14: a reset appends the events of the cut runs and its own, a command its own, a fault none. -/
theorem traceOnlyGrows : Obligations.TraceOnlyGrows := by
  intro s t h
  rcases step_outcomes h with rfl | ⟨evs, rest, rfl⟩ | ⟨cmd, wdata, rest, hrun⟩
  · exact ⟨[], (List.append_nil _).symm⟩
  · exact ⟨evs ++ (State.resetWith s.cfg).trace, List.append_assoc _ _ _⟩
  · rcases runAccepted_outcomes hrun with rfl | ⟨-, rfl | rfl⟩ | ⟨i, rfl⟩
    · exact ⟨[], (List.append_nil _).symm⟩
    · exact ⟨[], (List.append_nil _).symm⟩
    · exact ⟨[], (List.append_nil _).symm⟩
    · exact ⟨_, (effect_trace_pins i (s.accept cmd wdata rest)).1⟩

/-! ## The resting levels of the control pins (10_state.md R40) -/

/-- CLK, LATCH and EN low, CLR high. -/
def Pins.Resting (p : Pins) : Prop := p.clk = false ∧ p.latch = false ∧ p.clr = true ∧ p.en = false

theorem Pins.resting_afterAll_txTrace (c : Config) (img : Memory) (b : Bool) {p : Pins} (h : p.Resting) :
    (p.afterAll (txTrace c img b)).Resting := by
  obtain ⟨-, -, -, hen⟩ := h
  rw [Pins.afterAll_txTrace]
  exact ⟨rfl, rfl, rfl, by cases b <;> simp [hen]⟩

theorem Pins.resting_afterAll_fireTrace (c : Config) (ind : BitVec 3) (fs : List Fire) {p : Pins} (h : p.Resting) :
    (p.afterAll (fireTrace c ind fs)).Resting := by
  induction fs generalizing ind p with
  | nil => exact h
  | cons f fs ih =>
    rw [fireTrace, Pins.afterAll_append]
    exact ih _ (Pins.resting_afterAll_txTrace c _ true h)

theorem Pins.resting_afterAll_selfTestTrace (c : Config) {p : Pins} (h : p.Resting) :
    (p.afterAll (selfTestTrace c)).Resting := by
  obtain ⟨-, -, -, hen⟩ := h
  simp [selfTestTrace, List.replicate_succ, Pins.afterAll_append, Pins.afterAll_showTrace, Pins.Resting, hen]

/-- A command whose pins rest at its start leaves them at rest. -/
theorem Pins.resting_afterAll_commandEvents (i : Instr) (s : State) {p : Pins} (h : p.Resting) :
    (p.afterAll (commandEvents i s)).Resting := by
  cases i
  case init => exact Pins.resting_afterAll_selfTestTrace _ h
  case paint | clear | fill | inverse | magnetize => exact Pins.resting_afterAll_fireTrace _ _ _ h
  case fire | transmit => exact Pins.resting_afterAll_txTrace _ _ _ h
  all_goals exact h

/-! ## The image and the snapshots after a command -/

/-- Every command keeps the image's canonical form (10_state.md R35). -/
theorem wf_effect_img (i : Instr) {s : State} (h : s.img.wf = true) : (effect i s).img.wf = true := by
  cases i
  case inverse => cases hc : s.cfg.inverseCycle <;> simp [effect, hc, wf_imageAfter, h]
  all_goals
    simp [effect, h, wf_imageAfter, wf_assembleImage, wf_putLine, wf_clearLines, wf_driveField]

/-- No command drives a padding line (R35). -/
theorem padding_effect_img (i : Instr) {s : State} {L : Nat} (hL : s.cfg.nl ≤ L) (h : s.img.line L = false) :
    (effect i s).img.line L = false := by
  cases i
  case inverse => cases hc : s.cfg.inverseCycle <;> simp [effect, hc, padding_imageAfter, hL, h]
  all_goals
    simp [effect, h, hL, padding_imageAfter, padding_assembleImage, padding_putLine, padding_clearLines,
      padding_driveField]

/-- Every command keeps the shape of both snapshots (R32, R33). -/
theorem fits_effect (i : Instr) {s : State} (hcur : s.cur.fits s.cfg = true) (hdes : s.des.fits s.cfg = true) :
    (effect i s).cur.fits s.cfg = true ∧ (effect i s).des.fits s.cfg = true := by
  cases i
  case inverse => cases hc : s.cfg.inverseCycle <;> simp [effect, hc, tabulate_fits, hcur]
  all_goals simp [effect, hcur, hdes, tabulate_fits, Snapshot.put_fits]

/-! ## The invariant -/

/-- The state after a reset meets the invariant, whatever the trace before it: the mark gives the pins their levels. -/
theorem State.inv_afterReset (s : State) (evs : Trace) (rest : List Input) : (s.afterReset evs rest).Inv where
  curFits := zeroSnapshot_fits _
  desFits := zeroSnapshot_fits _
  imgCanonical := Memory.wf_zeroImage
  padding L _ := Memory.line_zeroImage L
  statusCode := show (0#3).toNat ≤ 4 by decide
  faultCode := by
    cases h : validConfig s.cfg <;> simp [State.afterReset, State.resetWith, h]
  faultFlag := by
    cases h : validConfig s.cfg <;> simp [State.afterReset, State.resetWith, h]
  config := by
    cases h : validConfig s.cfg <;> simp [State.afterReset, State.resetWith, h]
  idle := rfl
  resting := ⟨rfl, rfl, rfl, rfl⟩
  levels := by
    cases h : validConfig s.cfg <;>
      simp [State.afterReset, State.resetWith, h, Pins.afterAll_append, Pins.afterAll_selfTest]

section
variable {s : State} (h : (s.withSeq .idle).Inv)
include h

/-- A refusal writes the response alone (R304). -/
theorem State.inv_refuse : s.refuse.Inv :=
  { h with
    statusCode := show stFaulted.toNat ≤ 4 by decide
    idle := rfl }

/-- FAULTCODE is 0 outside the fault state, so the configuration is valid there (R306, R341). -/
theorem State.inv_config_of_not_faulted (hf : s.faulted = false) : validConfig s.cfg ≠ false := by
  intro hv
  have hcode : s.faultCode = 3#3 := h.config.1 hv
  have hfaulted : s.faulted = true := h.faultFlag.2 (by rw [State.withSeq_faultCode, hcode]; decide)
  rw [hf] at hfaulted
  cases hfaulted

/-- A fault with a code below CONFIG is taken on a valid configuration only (R310, R311). -/
theorem State.inv_raiseFault (hf : s.faulted = false) {e : BitVec 3} (hpos : e ≠ 0#3) (hlt : e.toNat < 3) :
    (s.raiseFault e).Inv :=
  { h with
    statusCode := show e.toNat ≤ 4 by omega
    faultCode := hlt.le
    faultFlag := iff_of_true rfl hpos
    config := by
      refine iff_of_false (State.inv_config_of_not_faulted (s := s) h hf) fun he => ?_
      rw [State.raiseFault_faultCode] at he
      simp [he] at hlt
    idle := rfl }

/-- A command that runs keeps every part of the invariant. -/
theorem State.inv_respond_effect (i : Instr) : ((effect i s).respond stOk (answer i s)).Inv := by
  obtain ⟨hcur, hdes⟩ := fits_effect i (s := s) h.curFits h.desFits
  obtain ⟨htrace, hpins⟩ := effect_trace_pins i s
  have hcfg := effect_cfg i s
  exact
  { curFits := by rw [State.respond_cfg, hcfg]; exact hcur
    desFits := by rw [State.respond_cfg, hcfg]; exact hdes
    imgCanonical := wf_effect_img i (s := s) h.imgCanonical
    padding := fun L hL => by
      rw [State.respond_cfg, hcfg] at hL
      exact padding_effect_img i hL (h.padding L hL)
    statusCode := by rw [State.respond_status]; decide
    faultCode := by rw [State.respond_faultCode, effect_faultCode]; exact h.faultCode
    faultFlag := by
      rw [State.respond_faulted, State.respond_faultCode, effect_faulted, effect_faultCode]; exact h.faultFlag
    config := by rw [State.respond_cfg, State.respond_faultCode, hcfg, effect_faultCode]; exact h.config
    idle := rfl
    resting := by
      rw [State.respond_pins, hpins]; exact Pins.resting_afterAll_commandEvents i s h.resting
    levels := by
      have hlevels : s.pins = Pins.reset.afterAll s.trace := h.levels
      rw [State.respond_pins, State.respond_trace, hpins, htrace, Pins.afterAll_append, ← hlevels] }

end

/-- An accepted command meets the invariant but for the sequencer. -/
theorem State.inv_accept {s : State} (h : s.Inv) (cmd wdata : Word) (rest : List Input) :
    ((s.accept cmd wdata rest).withSeq .idle).Inv := { h with idle := rfl }

/-- Settles O11: a step that is no waiting ends after a reset, or in a refusal, a fault or a command's response. -/
theorem stepKeepsTheInvariant : Obligations.StepKeepsTheInvariant := by
  intro s t h hstep
  rcases step_outcomes hstep with rfl | ⟨evs, rest, rfl⟩ | ⟨cmd, wdata, rest, hrun⟩
  · exact h
  · exact s.inv_afterReset evs rest
  · have hacc := State.inv_accept h cmd wdata rest
    rcases runAccepted_outcomes hrun with rfl | ⟨hf, rfl | rfl⟩ | ⟨i, rfl⟩
    · exact State.inv_refuse hacc
    · exact State.inv_raiseFault hacc hf (by decide) (by decide)
    · exact State.inv_raiseFault hacc hf (by decide) (by decide)
    · exact State.inv_respond_effect hacc i

/-- Settles O12: from power-up the trace before the reset is empty. -/
theorem resetMeetsTheInvariant : Obligations.ResetMeetsTheInvariant := by
  have hreset (c : Config) : (State.resetWith c).Inv :=
    State.inv_afterReset { State.resetWith c with trace := [] } [] []
  exact ⟨hreset, hreset Config.ex1⟩

end Sys2Proof.Machine
end

section
/-! PROOF. How commands complete, what a reset leaves and what the port waits for (60_exceptions.md R300, R306, R312;
70_reset_and_hazards.md R340 to R354). -/

namespace Sys2Proof.Machine

/-! ## Commands complete (60_exceptions.md R300, R312; 20_memory.md R82) -/

/-- READY is 1 after every response, and STATUS is a code of R300. -/
theorem exec_ready_status {i : Instr} {s t : State} (h : exec i s = .next t) : t.ready = true ∧ t.status.toNat ≤ 4 := by
  rcases exec_cases i s t h with ⟨-, rfl⟩ | ⟨-, -, rfl⟩ | ⟨-, -, rfl⟩
  · exact ⟨rfl, show stFaulted.toNat ≤ 4 by decide⟩
  · exact ⟨rfl, show stBounds.toNat ≤ 4 by decide⟩
  · exact ⟨rfl, show stOk.toNat ≤ 4 by decide⟩

/-- Settles O10: in bounds of a fault-free DDE the effect runs, which leaves the port's and the fault registers. -/
theorem commandsComplete : Obligations.CommandsComplete := by
  refine ⟨fun i s hf hb => ?_, fun i s => ?_, step_some⟩
  · refine ⟨_, exec_runs i s hf (inBounds_of_not_boundsCondition hb), rfl, rfl, ?_⟩
    simp [effect_faulted, hf, effect_faultCode, effect_cmd, effect_wdata, effect_inputs, effect_cfg]
  · obtain ⟨t, ht⟩ := exec_some i s
    exact ⟨t, ht, exec_ready_status ht⟩

/-! ## Reset and the port (70_reset_and_hazards.md) -/

theorem step_reset {s : State} {rst : List Nat} {rest : List Input} (hi : s.inputs = .reset rst :: rest) :
    step s = .next (State.resetUnder { s with inputs := rest } rst) := by
  rw [step, serve, hi]

/-- An undisturbed reset. -/
theorem step_reset_nil {s : State} {rest : List Input} (hi : s.inputs = .reset [] :: rest) :
    step s = .next (s.afterReset [] rest) := by
  rw [step_reset hi, State.resetUnder, State.resetSequence_spec, State.afterReset, List.append_nil]

/-- An accepted command cut by the reset input (R342). -/
theorem step_command_cut {s t : State} {cmd wdata : Word} {k : Nat} {ks : List Nat} {rest : List Input}
    (hi : s.inputs = .command cmd wdata (k :: ks) :: rest) (hr : s.ready = true)
    (ht : runAccepted (s.accept cmd wdata rest) = .next t) :
    step s = .next (((s.accept cmd wdata rest).abandonAt k t).resetUnder ks) := by
  simp [step, serve, hi, hr, ht, underReset]

/-- Settles O15: the state after an undisturbed reset, read field by field. -/
theorem resetLeavesTheResetValues : Obligations.ResetLeavesTheResetValues := by
  intro s rest hi hv
  refine ⟨_, step_reset_nil hi, fun r m => ⟨zeroSnapshot_word _ r m, zeroSnapshot_word _ r m⟩,
    Memory.line_zeroImage, ?_⟩
  simp [State.afterReset, State.resetWith, hv, State.ready, Sequencer.ready, Pins.reset]

/-- Settles O16: the reset sequence ends in the CONFIG fault, in which the prologue refuses every command. -/
theorem invalidConfigurationFaultsAtReset : Obligations.InvalidConfigurationFaultsAtReset := by
  intro s rest hi hv
  have hfaulted : (s.afterReset [] rest).faulted = true := by simp [State.afterReset, State.resetWith, hv]
  have hcode : (s.afterReset [] rest).faultCode = 3#3 := by simp [State.afterReset, State.resetWith, hv]
  refine ⟨_, step_reset_nil hi, hfaulted, hcode, rfl, ?_, rfl, fun i => ?_⟩
  · simp [State.afterReset, State.resetWith, hv]
  · have hanswer : (s.afterReset [] rest).faultCode.setWidth 32 = 3#32 := by rw [hcode]; rfl
    rw [exec_refused i _ hfaulted, State.refuse, hanswer]
    rfl

/-- Settles O17: the command's run from the accepted state is cut after k of its events, and the reset sequence
overwrites all but the trace. -/
theorem resetAbandonsTheCommand : Obligations.ResetAbandonsTheCommand := by
  intro s t cmd wdata k rest i evs q hi hr hd ht htrace
  have hrun : runAccepted (s.accept cmd wdata rest) = .next t := by
    rw [runAccepted_legal (s.accept cmd wdata rest) hd, ← exec_withSeq i (s.accept cmd wdata rest) (.busy q)]
    exact ht
  rw [step_command_cut hi hr hrun, State.resetUnder, State.resetSequence_spec]
  simp [State.abandonAt, htrace]

/-- Settles O18: a reset, or a command cut by one, ends after the last reset sequence. -/
theorem cutResetsEndInTheResetState : Obligations.CutResetsEndInTheResetState := by
  rintro s input rest hi (⟨rst, rfl⟩ | ⟨hr, cmd, wdata, k, ks, rfl⟩)
  · obtain ⟨evs, h⟩ := State.resetUnder_eq_afterReset { s with inputs := rest } rst
    exact ⟨evs, (step_reset hi).trans (congrArg _ h)⟩
  · obtain ⟨u, hu⟩ := runAccepted_some (s.accept cmd wdata rest)
    obtain ⟨evs, h⟩ := (s.accept cmd wdata rest).abandonAt_resetUnder u k ks
    exact ⟨evs, (step_command_cut hi hr hu).trans (congrArg _ h)⟩

/-- Settles O19: the port accepts a command only when READY is 1, and has nothing to do when nothing is presented. -/
theorem portWaits : Obligations.PortWaits := by
  refine ⟨fun s cmd wdata rst rest hi hr => ?_, fun s hi => ?_⟩
  · simp [step, serve, hi, hr]
  · simp [step, serve, hi]

/-- Settles O58: the response ends every run in IDLE, and no field but the sequencer is computed from it. -/
theorem noCommandReadsTheSequencer : Obligations.NoCommandReadsTheSequencer := exec_withSeq

/-- Settles O6: the step runs the decoded command from the accepted state, whose cursors no command reads. -/
theorem stepRunsTheDecodedCommand : Obligations.StepRunsTheDecodedCommand := by
  intro s cmd wdata rest i k hi hr hd
  rw [step_legal hi hr hd]
  exact (exec_withSeq i (s.accept cmd wdata rest) (.busy k)).symm

end Sys2Proof.Machine
end

section
/-! PROOF. The dot-matrix commands one by one (40_dot_matrix.md R140 to R157), the order of the sweep (00_scope.md R22)
and the flags after a number of fires (41_image_assembly.md R177). -/

namespace Sys2Proof.Machine

theorem wordOk_of_lt {c : Config} {r m : Nat} (hr : r < c.rows) (hm : m < c.modules) : wordOk c r m = true := by
  rw [wordOk, rowOk, moduleOk, decide_eq_true hr, decide_eq_true hm, Bool.and_self]

/-! ## Single words (R140 to R142) -/

/-- Settles O20: the word in bounds is replaced in DES, nothing else but the response. -/
theorem wrdesWritesOneWord : Obligations.WrdesWritesOneWord := by
  intro s r m hf hfits hr hm
  exact ⟨s.des.put r m s.wdata, exec_runs (.wrdes r m) s hf (wordOk_of_lt hr hm),
    s.des.put_fits s.cfg r m s.wdata hfits, s.des.put_word s.cfg r m s.wdata hfits hr hm⟩

/-- Settles O21: the two reads have no effect but their answer. -/
theorem snapshotReadsAnswerOneWord : Obligations.SnapshotReadsAnswerOneWord := by
  intro s r m hf hr hm
  exact ⟨exec_runs (.rdcur r m) s hf (wordOk_of_lt hr hm), exec_runs (.rddes r m) s hf (wordOk_of_lt hr hm)⟩

/-! ## The sweep (00_scope.md R22) -/

/-- The rows ascend; within a row the modules do; within a module the columns. -/
theorem pairwise_sweep (c : Config) :
    (sweep c).Pairwise fun x y => x.r < y.r ∨ x.r = y.r ∧ (x.m < y.m ∨ x.m = y.m ∧ x.c < y.c) := by
  refine List.pairwise_flatMap.2 ⟨fun r _ => List.pairwise_flatMap.2 ⟨fun m _ => ?_, ?_⟩, ?_⟩
  · exact List.pairwise_map.2 (List.pairwise_lt_range.imp fun hlt => .inr ⟨rfl, .inr ⟨rfl, hlt⟩⟩)
  · refine List.pairwise_lt_range.imp fun hlt x hx y hy => ?_
    obtain ⟨i, -, rfl⟩ := List.mem_map.1 hx
    obtain ⟨j, -, rfl⟩ := List.mem_map.1 hy
    exact .inr ⟨rfl, .inl hlt⟩
  · refine List.pairwise_lt_range.imp fun hlt x hx y hy => ?_
    simp only [List.mem_flatMap, List.mem_map] at hx hy
    obtain ⟨m, -, i, -, rfl⟩ := hx
    obtain ⟨n, -, j, -, rfl⟩ := hy
    exact .inl hlt

/-- Settles O31: the three nested loops visit the dots in bounds in the lexicographic order of r, m and c. -/
theorem sweepVisitsInOrder : Obligations.SweepVisitsInOrder := fun c => ⟨fun _ => mem_sweep, pairwise_sweep c⟩

/-! ## PAINT (R143) -/

/-- The state that a sweep, the cycle and an OK response leave, with its frame. -/
theorem State.sweepWhere_cycle_respond (s : State) (go : Fire → Bool) (fs : List Fire) :
    (s.sweepWhere go fs).cycle.respond stOk 0#32 =
      { s with cur := tabulate s.cfg s.des.word, img := imageAfter s.cfg s.ind s.img (fs.filter go),
               ind := indAfter s.cfg s.ind (fs.filter go).length,
               trace := s.trace ++ fireTrace s.cfg s.ind (fs.filter go),
               pins := s.pins.afterAll (fireTrace s.cfg s.ind (fs.filter go)),
               status := 0#3, rdata := 0#32, seq := Sequencer.idle } := by
  rw [State.mk.injEq]
  simp [stOk]

/-- The dots PAINT fires, written out (R143). -/
theorem paint_fires_eq (c : Config) (cur des : Snapshot) (force : Bool) :
    (everyDot c des.dot).filter (paintGoes cur force) =
      ((sweep c).map fun d => ⟨d, (des.word d.r d.m).getLsbD d.c⟩).filter
        (fun f => force || f.set != (cur.word f.dot.r f.dot.m).getLsbD f.dot.c) := by
  rw [everyDot_dot]
  exact List.filter_congr fun f _ => by rw [paintGoes, Snapshot.dot, wordBit_eq]

/-- Settles O22: the sweep fires the dots of PAINT's condition, and the cycle copies DES into CUR. -/
theorem paintFiresTheDifference : Obligations.PaintFiresTheDifference := by
  rintro s force fires hf rfl
  rw [← paint_fires_eq]
  refine ⟨tabulate s.cfg s.des.word, ?_, tabulate_fits _ _, tabulate_word_of_lt _ _⟩
  rw [exec_runs (.paint force) s hf rfl]
  exact congrArg _ (s.sweepWhere_cycle_respond _ _)

/-! ## INVERSE (R152, R154) -/

/-- The fires of INVERSE, written out: every dot to the complement of its bit (R152). -/
theorem inverse_fires_eq {s : State} (hv : validConfig s.cfg = true) :
    everyDot s.cfg (effect .inverse s).des.dot =
      (sweep s.cfg).map fun d => ⟨d, !(s.cur.word d.r d.m).getLsbD d.c⟩ := by
  rw [everyDot_dot]
  exact List.map_congr_left fun d hd => by rw [effect_inverse_dot hv hd]

/-- CUR after INVERSE: the cycle runs only when INVERSE_CYCLE is true (R154). -/
theorem effect_inverse_cur (s : State) :
    (effect .inverse s).cur =
      if s.cfg.inverseCycle then tabulate s.cfg (effect .inverse s).des.word else s.cur := by
  rw [effect_inverse_des]
  cases hc : s.cfg.inverseCycle <;> simp [effect, hc]

/-- The state INVERSE leaves, with its frame; of CUR and DES, see effect_inverse_cur and effect_inverse_des. -/
theorem effect_inverse_respond {s : State} {fires : List Fire}
    (h : everyDot s.cfg (effect .inverse s).des.dot = fires) :
    (effect .inverse s).respond stOk 0#32 =
      { s with cur := (effect .inverse s).cur, des := (effect .inverse s).des,
               img := imageAfter s.cfg s.ind s.img fires, ind := indAfter s.cfg s.ind fires.length,
               trace := s.trace ++ fireTrace s.cfg s.ind fires,
               pins := s.pins.afterAll (fireTrace s.cfg s.ind fires),
               status := 0#3, rdata := 0#32, seq := Sequencer.idle } := by
  rw [effect_inverse_des] at h
  rw [State.mk.injEq]
  cases hc : s.cfg.inverseCycle <;> simp [effect, hc, h, stOk]

/-- Settles O27: DES is the complement of CUR, every dot is fired to it, and CUR follows by the cycle alone. -/
theorem inverseComplementsTheDisplay : Obligations.InverseComplementsTheDisplay := by
  rintro s fires hf hv rfl
  have hword {r m : Nat} (hr : r < s.cfg.rows) (hm : m < s.cfg.modules) :
      (effect .inverse s).des.word r m = ~~~(s.cur.word r m) := by
    rw [effect_inverse_des, tabulate_word_of_lt _ _ r m hr hm]
  refine ⟨(effect .inverse s).cur, (effect .inverse s).des, ?_, ?_, fun hc => ?_, fun hc => ?_, fun r m hr hm =>
    ⟨hword hr hm, fun hc => ?_⟩⟩
  · rw [exec_runs .inverse s hf rfl]
    exact congrArg _ (effect_inverse_respond (inverse_fires_eq hv))
  · rw [effect_inverse_des]
    exact tabulate_fits _ _
  · rw [effect_inverse_cur, hc]
    rfl
  · rw [effect_inverse_cur, hc]
    exact tabulate_fits _ _
  · rw [effect_inverse_cur, hc, if_pos rfl, tabulate_word_of_lt _ _ r m hr hm, hword hr hm]

/-! ## MAGNETIZE (R156, R157) -/

/-- The state that n sweeps, the cycle and an OK response leave, with its frame. -/
theorem State.sweepTimes_cycle_respond (s : State) (go : Fire → Bool) (fs : List Fire) (n : Nat) {fires : List Fire}
    (h : (List.replicate n (fs.filter go)).flatten = fires) :
    (s.sweepTimes go fs n).cycle.respond stOk 0#32 =
      { s with cur := tabulate s.cfg s.des.word, img := imageAfter s.cfg s.ind s.img fires,
               ind := indAfter s.cfg s.ind fires.length, trace := s.trace ++ fireTrace s.cfg s.ind fires,
               pins := s.pins.afterAll (fireTrace s.cfg s.ind fires),
               status := 0#3, rdata := 0#32, seq := Sequencer.idle } := by
  subst h
  rw [State.mk.injEq]
  simp [stOk]

/-- The dots one sweep of MAGNETIZE fires, written out (R156). -/
theorem magnetize_fires_eq (c : Config) (cur : Snapshot) :
    (everyDot c fun _ => true).filter (fun f => cur.dot f.dot) =
      ((sweep c).filter fun d => (cur.word d.r d.m).getLsbD d.c).map fun d => ⟨d, true⟩ := by
  rw [everyDot, List.filter_map]
  exact congrArg _ (List.filter_congr fun d _ => wordBit_eq _ _)

/-- Settles O29: each sweep fires the set dots of CUR, which no fire writes, and the cycle follows. -/
theorem magnetizeRefiresTheSetDots : Obligations.MagnetizeRefiresTheSetDots := by
  rintro s once fires hf rfl rfl
  refine ⟨tabulate s.cfg s.des.word, ?_, tabulate_fits _ _, tabulate_word_of_lt _ _⟩
  rw [exec_runs .magnetize s hf rfl]
  exact congrArg _ (s.sweepTimes_cycle_respond _ _ _ (by rw [magnetize_fires_eq]))

/-! ## The flags after a number of fires (R177) -/

theorem getLsbD_toggleFlag (ind : BitVec 3) {i k : Nat} (hk : k < 3) :
    (toggleFlag ind i).getLsbD k = if k = i then !ind.getLsbD k else ind.getLsbD k := by
  rw [toggleFlag, ← BitVec.twoPow_eq, BitVec.getLsbD_xor, BitVec.getLsbD_twoPow]
  by_cases h : k = i
  · subst h
    simp [hk]
  · simp [h, Ne.symm h]

theorem getLsbD_autoToggle (c : Config) (ind : BitVec 3) {k : Nat} (hk : k < 3) :
    (autoToggle c ind).getLsbD k = if c.indMode = .auto ∧ k = c.indToggle then !ind.getLsbD k else ind.getLsbD k := by
  cases hmode : c.indMode with
  | static => simp [autoToggle, hmode]
  | auto => simp [autoToggle, hmode, getLsbD_toggleFlag ind hk]

/-- Settles O55: each AF inverts the toggling flag once more. -/
theorem autoToggleShowsTheParity : Obligations.AutoToggleShowsTheParity := by
  intro c ind n k hk
  induction n generalizing ind with
  | zero => simp [indAfter]
  | succ n ih =>
    rw [indAfter, ih, getLsbD_autoToggle c ind hk]
    by_cases htoggle : c.indMode = .auto ∧ k = c.indToggle
    · obtain ⟨hmode, rfl⟩ := htoggle
      rcases Nat.mod_two_eq_zero_or_one n with hn | hn
      · have hsucc : (n + 1) % 2 = 1 := by omega
        simp [hmode, hn, hsucc]
      · have hsucc : (n + 1) % 2 = 0 := by omega
        simp [hmode, hn, hsucc]
    · have h (p : Prop) : ¬ (c.indMode = .auto ∧ k = c.indToggle ∧ p) := fun ⟨h1, h2, _⟩ => htoggle ⟨h1, h2⟩
      rw [if_neg (h _), if_neg (h _), if_neg htoggle]

end Sys2Proof.Machine
end

section
/-! PROOF. The accessors of the staged image and of the flags (43_accessors.md): what each drives or reads, line
by line. -/

namespace Sys2Proof.Machine

/-! ## The row selects (R231 to R234) -/

/-- Clearing the n lines of g and then driving line f r leaves it alone at 1 among them, and every other line as it
was. -/
theorem line_rowSelect {c : Config} {f g : Nat → Nat} {n r : Nat} (mem : Memory) (hf : f r < c.nl)
    (hg : ∀ q < n, g q < c.nl) (hne : ∀ q < n, g q ≠ f r) :
    (putLine c (f r) true (clearLines c g n mem)).line (f r) = true ∧
      (∀ q, q < n → (putLine c (f r) true (clearLines c g n mem)).line (g q) = false) ∧
      ∀ L, L ≠ f r → (∀ q, q < n → L ≠ g q) →
        (putLine c (f r) true (clearLines c g n mem)).line L = mem.line L := by
  refine ⟨?_, fun q hq => ?_, fun L hL hLg => ?_⟩
  · rw [line_putLine, if_pos ⟨rfl, hf⟩]
  · rw [line_putLine, if_neg fun h => hne q hq h.1, line_clearLines _ _ _ _ _ hg, if_pos ⟨q, hq, rfl⟩]
  · rw [line_putLine, if_neg fun h => hL h.1, line_clearLines _ _ _ _ _ hg, if_neg]
    rintro ⟨q, hq, e⟩
    exact hLg q hq e

theorem rowReset_ne_rowSet {c : Config} (hv : validConfig c = true) {q r : Nat} (hq : q < c.rows) (hr : r < c.rows) :
    rowReset c q ≠ rowSet c r := by
  obtain ⟨-, -, -, -, -, hset, -⟩ := roles_disjoint hv
  exact fun e => (hset _ (rowSet_mem hv hr)).1 (e ▸ rowReset_mem hv hq)

/-- Settles O44: the two commands are one, with the polarities exchanged. -/
theorem rowSelectIsExclusive : Obligations.RowSelectIsExclusive := by
  intro s r hf hv hr
  have hb : rowOk s.cfg r = true := decide_eq_true hr
  exact ⟨⟨_, exec_runs (.setrowset r) s hf hb, line_rowSelect (f := rowSet s.cfg) s.img (rowSet_lt hv hr)
      (fun _ => rowReset_lt hv) fun q hq => rowReset_ne_rowSet hv hq hr⟩,
    ⟨_, exec_runs (.setrowreset r) s hf hb, line_rowSelect (f := rowReset s.cfg) s.img (rowReset_lt hv hr)
      (fun _ => rowSet_lt hv) fun q hq => (rowReset_ne_rowSet hv hr hq).symm⟩⟩

theorem firstRow_eq_of_lowest {c : Config} {f : Nat → Nat} {img : Memory} {r : Nat} (hr : r < c.rows)
    (hline : img.line (f r) = true) (hlow : ∀ q, q < r → img.line (f q) = false) :
    firstRow c f img = BitVec.ofNat 32 r := by
  have hfind : (List.range c.rows).find? (fun r => img.line (f r)) = some r :=
    List.find?_range_eq_some.2 ⟨hline, List.mem_range.2 hr, fun q hq => by rw [hlow q hq]; rfl⟩
  rw [firstRow, hfind]

theorem firstRow_eq_sentinel {c : Config} {f : Nat → Nat} {img : Memory}
    (h : ∀ r, r < c.rows → img.line (f r) = false) : firstRow c f img = sentinel := by
  have hfind : (List.range c.rows).find? (fun r => img.line (f r)) = none :=
    List.find?_eq_none.2 fun r hr => by rw [h r (List.mem_range.1 hr)]; exact Bool.false_ne_true
  rw [firstRow, hfind]

/-- Settles O45: both commands scan the rows from row 0 up. -/
theorem rowScanFindsTheLowestRow : Obligations.RowScanFindsTheLowestRow := by
  intro s hf
  exact ⟨⟨_, exec_runs .getrowset s hf rfl, fun _ => firstRow_eq_of_lowest (f := rowSet s.cfg),
      firstRow_eq_sentinel (f := rowSet s.cfg)⟩,
    ⟨_, exec_runs .getrowreset s hf rfl, fun _ => firstRow_eq_of_lowest (f := rowReset s.cfg),
      firstRow_eq_sentinel (f := rowReset s.cfg)⟩⟩

/-! ## The column code (R235, R236) -/

/-- Settles O46: the column-code lines are a field of distinct lines, driven to the code. -/
theorem setcolDrivesTheColumnCode : Obligations.SetcolDrivesTheColumnCode := by
  intro s m c hf hv hm hc
  exact ⟨_, exec_runs (.setcol m c) s hf (columnOk_of_lt hm hc),
    fun j hj => line_driveField _ (codeLine s.cfg) _ _ j _ hj (fun _ => codeLine_lt hv) (codeLine_inj hv),
    fun L => line_driveField_of_ne _ (codeLine s.cfg) _ _ L _⟩

/-- The lines of a field show a value that fits it exactly when the field reads back as that value. -/
theorem eq_readField_iff {img : Memory} {f : Nat → Nat} {n v : Nat} (hv : v < 2 ^ n) :
    v = readField img f n ↔ ∀ j, j < n → img.line (f j) = v.testBit j := by
  obtain ⟨hlt, hbits⟩ := readField_bits img f n
  constructor
  · rintro rfl j hj
    rw [hbits, decide_eq_true hj, Bool.true_and]
  · refine fun h => Nat.eq_of_testBit_eq fun j => ?_
    by_cases hj : j < n
    · rw [hbits, decide_eq_true hj, Bool.true_and, h j hj]
    · have hhigh : 2 ^ n ≤ 2 ^ j := Nat.pow_le_pow_right (by decide) (by omega)
      rw [Nat.testBit_lt_two_pow (hv.trans_le hhigh), Nat.testBit_lt_two_pow (hlt.trans_le hhigh)]

section
variable {c : Config} (hv : validConfig c = true) {m : Nat} (hm : m < c.modules) {img : Memory}
include hv hm

/-- A column of the window whose code is not on the column-code lines differs from them in a line. -/
theorem columnCode_ne_readField {b j : Nat} (hb : b < colCount c m) (hj : j < c.ncc)
    (hne : img.line (codeLine c j) ≠ (columnCode c m b).testBit j) :
    columnCode c m b ≠ readField img (codeLine c) c.ncc :=
  fun e => hne ((eq_readField_iff (columnCode_lt hv hm hb)).1 e j hj)

theorem matchColumn_eq_of_lowest {col : Nat} (hcol : col < colCount c m)
    (hcode : ∀ j, j < c.ncc → img.line (codeLine c j) = (columnCode c m col).testBit j)
    (hlow : ∀ b, b < col → ∃ j, j < c.ncc ∧ img.line (codeLine c j) ≠ (columnCode c m b).testBit j) :
    matchColumn c m img = BitVec.ofNat 32 col := by
  have hfind : (List.range (colCount c m)).find?
      (fun b => columnCode c m b == readField img (codeLine c) c.ncc) = some col := by
    refine List.find?_range_eq_some.2
      ⟨beq_iff_eq.2 ((eq_readField_iff (columnCode_lt hv hm hcol)).2 hcode), List.mem_range.2 hcol, fun b hb => ?_⟩
    obtain ⟨j, hj, hne⟩ := hlow b hb
    simpa using columnCode_ne_readField hv hm (hb.trans hcol) hj hne
  rw [matchColumn, hfind]

theorem matchColumn_eq_sentinel
    (h : ∀ b, b < colCount c m → ∃ j, j < c.ncc ∧ img.line (codeLine c j) ≠ (columnCode c m b).testBit j) :
    matchColumn c m img = sentinel := by
  have hfind : (List.range (colCount c m)).find?
      (fun b => columnCode c m b == readField img (codeLine c) c.ncc) = none := by
    refine List.find?_eq_none.2 fun b hb => ?_
    obtain ⟨j, hj, hne⟩ := h b (List.mem_range.1 hb)
    simpa using columnCode_ne_readField hv hm (List.mem_range.1 hb) hj hne
  rw [matchColumn, hfind]

end

/-- Settles O47: the scan compares each column's code with the column-code lines, from column 0 up. -/
theorem getcolDecodesTheColumnCode : Obligations.GetcolDecodesTheColumnCode := by
  intro s m hf hv hm
  exact ⟨_, exec_runs (.getcol m) s hf (decide_eq_true hm), fun c => matchColumn_eq_of_lowest hv hm,
    matchColumn_eq_sentinel hv hm⟩

/-! ## The address lines, the direction line and the flags (R237 to R242) -/

/-- Settles O49: the address lines are a field of distinct lines, driven to WDATA and read as a number. -/
theorem addressLinesHoldTheAddress : Obligations.AddressLinesHoldTheAddress := by
  intro s hf hv
  refine ⟨⟨_, exec_runs .setaddr s hf rfl,
    fun i hi => line_driveField _ (addressLine s.cfg) _ _ i _ hi (fun _ => addressLine_lt hv) (addressLine_inj hv),
    fun L => line_driveField_of_ne _ (addressLine s.cfg) _ _ L _⟩, ⟨_, exec_runs .getaddr s hf rfl, fun i hi => ?_⟩⟩
  obtain ⟨-, hbits⟩ := readField_bits s.img (addressLine s.cfg) s.cfg.naw
  rw [answer, readAddress, BitVec.getLsbD_ofNat, hbits, decide_eq_true hi, Bool.true_and]
  rfl

theorem readDirection_eq (c : Config) (img : Memory) :
    readDirection c img = if img.line c.dirLine then 1#32 else 0#32 := by
  rw [readDirection]
  cases img.line c.dirLine <;> rfl

/-- Settles O50: the direction line exists, so it takes the value driven. -/
theorem directionLineIsDriven : Obligations.DirectionLineIsDriven := by
  intro s d hf hv
  refine ⟨⟨_, exec_runs (.setdir d) s hf rfl, fun L => ?_⟩, ?_⟩
  · rw [effect, State.withImg_img, line_putLine]
    simp [dirLine_lt hv]
  · rw [exec_runs .getdir s hf rfl, answer, readDirection_eq]
    rfl

/-- Settles O51: the flags are the low three bits of IB, and GETIND's answer is the flags with zeros above. -/
theorem indicatorFlagsAreWrittenAndRead : Obligations.IndicatorFlagsAreWrittenAndRead := by
  intro s ib hf
  refine ⟨⟨_, exec_runs (.setind ib) s hf rfl, fun k hk => ?_⟩, ⟨_, exec_runs .getind s hf rfl, fun k hk => ?_⟩⟩
  · rw [effect, State.withInd_ind, indOfBits, BitVec.getLsbD_ofNat, decide_eq_true hk, Bool.true_and]
  · rw [answer, bitsOfInd, BitVec.getLsbD_setWidth, decide_eq_true hk, Bool.true_and]
    by_cases h3 : k < 3
    · rw [decide_eq_true h3, Bool.true_and]
    · rw [decide_eq_false h3, Bool.false_and, BitVec.getLsbD_of_ge _ _ (by omega)]

/-- Settles O43: the zero image has every line 0. -/
theorem clrimgZeroesTheImage : Obligations.ClrimgZeroesTheImage :=
  fun s hf => ⟨zeroImage, exec_runs .clrimg s hf rfl, Memory.line_zeroImage⟩

end Sys2Proof.Machine
end

section
/-! PROOF. FIRE, the lines of an assembled image (41_image_assembly.md R170 to R179), TRANSMIT (42_serial_transmit.md
R201) and INIT (44_system.md R270 to R272). -/

namespace Sys2Proof.Machine

/-! ## The lines of an assembled image (R172 to R176) -/

/-- The row line of a target state (R173). -/
theorem ite_rowLine_lt {c : Config} (hv : validConfig c = true) {r : Nat} (hr : r < c.rows) (set : Bool) :
    (if set then rowSet c r else rowReset c r) < c.nl := by
  cases set
  · exact rowReset_lt hv hr
  · exact rowSet_lt hv hr

section
variable {c : Config} (hv : validConfig c = true)
include hv

/-- No row line is a line of a later step (R16). -/
theorem rowLine_ne {r : Nat} (hr : r < c.rows) (set : Bool) :
    (∀ j < c.ncc, (if set then rowSet c r else rowReset c r) ≠ codeLine c j) ∧
      (∀ i < c.naw, (if set then rowSet c r else rowReset c r) ≠ addressLine c i) ∧
      (if set then rowSet c r else rowReset c r) ≠ c.dirLine := by
  obtain ⟨-, -, -, -, -, hset, hreset, -⟩ := roles_disjoint hv
  cases set
  · obtain ⟨hcode, haddr, hdir, -⟩ := hreset _ (rowReset_mem hv hr)
    exact ⟨fun j hj (e : rowReset c r = _) => hcode (e ▸ codeLine_mem hv hj),
      fun i hi (e : rowReset c r = _) => haddr (e ▸ addressLine_mem hv hi), hdir⟩
  · obtain ⟨-, hcode, haddr, hdir, -⟩ := hset _ (rowSet_mem hv hr)
    exact ⟨fun j hj (e : rowSet c r = _) => hcode (e ▸ codeLine_mem hv hj),
      fun i hi (e : rowSet c r = _) => haddr (e ▸ addressLine_mem hv hi), hdir⟩

theorem codeLine_ne {j : Nat} (hj : j < c.ncc) :
    (∀ i < c.naw, codeLine c j ≠ addressLine c i) ∧ codeLine c j ≠ c.dirLine := by
  obtain ⟨-, -, -, -, -, -, -, hcode, -⟩ := roles_disjoint hv
  obtain ⟨haddr, hdir, -⟩ := hcode _ (codeLine_mem hv hj)
  exact ⟨fun i hi e => haddr (e ▸ addressLine_mem hv hi), hdir⟩

theorem addressLine_ne_dirLine {i : Nat} (hi : i < c.naw) : addressLine c i ≠ c.dirLine := by
  obtain ⟨-, -, -, -, -, -, -, -, haddr, -⟩ := roles_disjoint hv
  exact (haddr _ (addressLine_mem hv hi)).1

/-- The lines at 1 after steps (1) to (5) of AF: no step drives a line of an earlier one. -/
theorem stagedImage_line_iff {d : Dot} (hr : d.r < c.rows) (set : Bool) (L : Nat) :
    (stagedImage c d set).line L = true ↔
      (L = if set then rowSet c d.r else rowReset c d.r) ∨
      (∃ j, j < c.ncc ∧ L = codeLine c j ∧ (columnCode c d.m d.c).testBit j = true) ∨
      (∃ i, i < c.naw ∧ L = addressLine c i ∧ (moduleAddr c d.m).testBit i = true) ∨
      (L = c.dirLine ∧ (!set) = true) := by
  obtain ⟨hrowCode, hrowAddr, hrowDir⟩ := rowLine_ne hv hr set
  rw [stagedImage, line_putLine_iff _ _ _ _ _ (dirLine_lt hv),
    line_driveField_iff _ _ _ _ _ _ (fun _ => addressLine_lt hv) (addressLine_inj hv),
    line_driveField_iff _ _ _ _ _ _ (fun _ => codeLine_lt hv) (codeLine_inj hv),
    line_putLine_iff _ _ _ _ _ (ite_rowLine_lt hv hr set), Memory.line_zeroImage]
  constructor
  · rintro (hdir | ⟨-, haddr | ⟨-, hcode | ⟨-, ⟨hrow, -⟩ | ⟨-, hzero⟩⟩⟩⟩)
    · exact .inr (.inr (.inr hdir))
    · exact .inr (.inr (.inl haddr))
    · exact .inr (.inl hcode)
    · exact .inl hrow
    · cases hzero
  · rintro (rfl | ⟨j, hj, rfl, hbit⟩ | ⟨i, hi, rfl, hbit⟩ | hdir)
    · exact .inr ⟨hrowDir, .inr ⟨hrowAddr, .inr ⟨hrowCode, .inl ⟨rfl, rfl⟩⟩⟩⟩
    · obtain ⟨hcodeAddr, hcodeDir⟩ := codeLine_ne hv hj
      exact .inr ⟨hcodeDir, .inr ⟨hcodeAddr, .inl ⟨j, hj, rfl, hbit⟩⟩⟩
    · exact .inr ⟨addressLine_ne_dirLine hv hi, .inl ⟨i, hi, rfl, hbit⟩⟩
    · exact .inl hdir

end

/-- Settles O33: the lines of steps (1) to (5), and the indicator lines of step (6). -/
theorem assembledImageLines : Obligations.AssembledImageLines := by
  intro c d set ind L hv hr hm hc
  rw [assembleImage_line_iff hv hr, stagedImage_line_iff hv hr]
  simp only [rowSet, rowReset, codeLine, columnCode, off, colCount, addressLine, moduleAddr, indicatorLine]
  cases set <;> simp [or_assoc]

/-! ## FIRE (R170, R171, R178) -/

theorem dotOk_of_lt {c : Config} {r m col : Nat} (hr : r < c.rows) (hm : m < c.modules) (hcol : col < colCount c m) :
    dotOk c r m col = true := by
  rw [dotOk, rowOk, decide_eq_true hr, columnOk_of_lt hm hcol, Bool.and_self]

/-- The state that AF and an OK response leave, with its frame. -/
theorem State.af_respond (s : State) (d : Dot) (set : Bool) {ind : BitVec 3} (h : autoToggle s.cfg s.ind = ind) :
    (s.af d set).respond stOk 0#32 =
      { s with ind := ind, img := assembleImage s.cfg d set ind,
               trace := s.trace ++ txTrace s.cfg (assembleImage s.cfg d set ind) true,
               pins := s.pins.afterAll (txTrace s.cfg (assembleImage s.cfg d set ind) true),
               status := 0#3, rdata := 0#32, seq := Sequencer.idle } := by
  rw [State.mk.injEq]
  simp [h, stOk]

/-- Settles O32: FIRE is one AF. -/
theorem fireActuatesOneDot : Obligations.FireActuatesOneDot := by
  intro s r m c set hf hr hm hc
  refine ⟨autoToggle s.cfg s.ind, fun hmode => ?_, fun hmode k hk => ?_, ?_⟩
  · rw [autoToggle, hmode]
  · rw [getLsbD_autoToggle _ _ hk]
    simp [hmode]
  · rw [exec_runs (.fire r m c set) s hf (dotOk_of_lt hr hm hc)]
    exact congrArg _ (s.af_respond ⟨r, m, c⟩ set rfl)

/-! ## TRANSMIT (R200 to R206) -/

/-- The state that TX and an OK response leave, with its frame. -/
theorem State.tx_respond (s : State) (p : Bool) :
    (s.tx p).respond stOk 0#32 =
      { s with trace := s.trace ++ txTrace s.cfg s.img p, pins := s.pins.afterAll (txTrace s.cfg s.img p),
               status := 0#3, rdata := 0#32, seq := Sequencer.idle } := by
  rw [State.mk.injEq]
  simp [stOk]

/-- The events of a transmission in full (R201). -/
theorem txTrace_eq (c : Config) (img : Memory) (p : Bool) :
    txTrace c img p =
      ([.pin .clk false, .pin .clr false, .hold c.tClr, .pin .clr true] : Trace) ++
        ((List.range c.nl).reverse.flatMap fun L =>
          ([.pin .data (img.line L), .pin .clk true, .hold c.tClk, .pin .clk false] : Trace)) ++
        ([.pin .latch true, .hold c.tLatch, .pin .latch false] : Trace) ++
        if p then ([.pin .en true, .hold c.tEn, .pin .en false] : Trace) else [] := by
  rw [txTrace, shiftLines_eq]
  simp [clearPulse, shiftLine, latchPulse, energizePulse]

/-- Settles O35: TRANSMIT is one TX of the staged image. -/
theorem transmitShiftsOutTheImage : Obligations.TransmitShiftsOutTheImage := by
  intro s p hf
  rw [← txTrace_eq, ← Pins.afterAll_txTrace, exec_runs (.transmit p) s hf rfl]
  exact congrArg _ (s.tx_respond p)

/-! ## INIT (44_system.md R270 to R272) -/

/-- The state that INITSEQ and an OK response leave, with its frame. -/
theorem State.initSeq_respond (s : State) :
    s.initSeq.respond stOk 0#32 =
      { s with cur := zeroSnapshot s.cfg, des := zeroSnapshot s.cfg, img := zeroImage, ind := 0#3,
               pins := s.pins.afterAll (selfTestTrace s.cfg), trace := s.trace ++ selfTestTrace s.cfg,
               status := 0#3, rdata := 0#32, seq := Sequencer.idle } := by
  rw [State.mk.injEq]
  simp [stOk]

theorem selfTestTrace_eq (c : Config) :
    selfTestTrace c = (List.replicate 3 (txTrace c (indicatorImage c 7#3) false ++ [.hold c.tSt] ++
      txTrace c zeroImage false ++ [.hold c.tSt])).flatten := by
  simp [selfTestTrace, showTrace, indicatorImage_zero]

/-- With all flags on, the lines at 1 are the three indicator lines. -/
theorem indicatorImage_seven_line_iff {c : Config} (hv : validConfig c = true) (L : Nat) :
    (indicatorImage c 7#3).line L = true ↔ ∃ k, k < 3 ∧ L = indicatorLine c k := by
  have hbits : ∀ k < 3, (7#3).toNat.testBit k = true := by decide
  rw [indicatorImage, line_driveField_iff _ _ _ _ _ _ (fun _ => indicatorLine_lt hv) (indicatorLine_inj hv),
    Memory.line_zeroImage]
  constructor
  · rintro (⟨k, hk, hL, -⟩ | ⟨-, hzero⟩)
    · exact ⟨k, hk, hL⟩
    · cases hzero
  · rintro ⟨k, hk, hL⟩
    exact .inl ⟨k, hk, hL, hbits k hk⟩

/-- The self-test's last transmission is of the zero image, which has a line. -/
theorem afterAll_selfTestTrace {c : Config} (hv : validConfig c = true) (p : Pins) :
    p.afterAll (selfTestTrace c) = { clk := false, data := false, latch := false, clr := true, en := p.en } := by
  have hnl : c.nl ≠ 0 := Nat.ne_of_gt (Nat.zero_lt_of_lt (dirLine_lt hv))
  simp [selfTestTrace, List.replicate_succ, Pins.afterAll_append, Pins.afterAll_showTrace, indicatorImage_zero, hnl]

/-- Settles O54: INIT is INITSEQ, whose self-test shows all indicators on, then off, three times. -/
theorem initRunsTheSelfTest : Obligations.InitRunsTheSelfTest := by
  intro s hf hv
  refine ⟨zeroSnapshot s.cfg, zeroSnapshot s.cfg, zeroImage, indicatorImage s.cfg 7#3,
    s.pins.afterAll (selfTestTrace s.cfg), ?_, zeroSnapshot_fits _, zeroSnapshot_fits _,
    fun r m => ⟨zeroSnapshot_word _ r m, zeroSnapshot_word _ r m⟩, Memory.line_zeroImage,
    indicatorImage_seven_line_iff hv, afterAll_selfTestTrace hv s.pins⟩
  rw [← selfTestTrace_eq, exec_runs .init s hf rfl]
  exact congrArg _ s.initSeq_respond

end Sys2Proof.Machine
end

section
/-! PROOF. Which commands emit events and which can raise EN (20_memory.md R78); the energize pulse in time
(42_serial_transmit.md R207, R208) and the least duration of a trace (70_reset_and_hazards.md R360). -/

namespace Sys2Proof.Machine

/-! ## The events of each command (20_memory.md R78) -/

/-- A command that does not run emits nothing; one that runs emits its events. -/
theorem events_of_exec {i : Instr} {s t : State} {evs : Trace} (h : exec i s = .next t)
    (htrace : t.trace = s.trace ++ evs) : evs = [] ∨ evs = commandEvents i s := by
  rcases exec_cases i s t h with ⟨-, rfl⟩ | ⟨-, -, rfl⟩ | ⟨-, -, rfl⟩
  · exact .inl (List.self_eq_append_right.1 htrace)
  · exact .inl (List.self_eq_append_right.1 htrace)
  · rw [State.respond_trace, (effect_trace_pins i s).1] at htrace
    exact .inr (List.append_cancel_left htrace).symm

theorem enable_not_mem_selfTestTrace (c : Config) : PinEvent.pin .en true ∉ selfTestTrace c := by
  simp [selfTestTrace, showTrace, enable_not_mem_txTrace]

/-- Settles O39: the events of each command by R78; an unpulsed transmission has no energize pulse. -/
theorem onlyPulsedTransmissionsRaiseEnable : Obligations.OnlyPulsedTransmissionsRaiseEnable := by
  intro i s t evs h htrace
  rcases events_of_exec h htrace with rfl | rfl
  · simp
  · cases i
    case init => simp [commandEvents, enable_not_mem_selfTestTrace]
    case transmit p => cases p <;> simp [commandEvents, enable_not_mem_txTrace]
    all_goals simp [commandEvents]

/-! ## The EN-high intervals of a transmission (42_serial_transmit.md R207, R208) -/

/-- Before EN is raised there is no interval. -/
theorem enIntervals_append_of_low {x : TimedTrace} (h : PinEvent.pin .en true ∉ x.map Prod.fst) (y : TimedTrace) :
    enIntervals none (x ++ y) = enIntervals none y := by
  induction x with
  | nil => rfl
  | cons ed x ih =>
    obtain ⟨e, d⟩ := ed
    simp only [List.map_cons, List.mem_cons, not_or] at h
    obtain ⟨hne, hrest⟩ := h
    rw [List.cons_append, enIntervals, ih hrest]
    rintro rfl
    exact hne rfl

/-- The one EN-high interval of a pulsed transmission: the time from the rise and the time of the hold (R206). -/
theorem enIntervals_txTrace_true {c : Config} {img : Memory} {tt : TimedTrace}
    (h : tt.map Prod.fst = txTrace c img true) :
    ∃ a b, enIntervals none tt = [a + b] ∧ (PinEvent.pin .en true, a) ∈ tt ∧ (PinEvent.hold c.tEn, b) ∈ tt := by
  rw [txTrace_pulsed] at h
  obtain ⟨x, y, rfl, hx, hy⟩ := List.map_eq_append_iff.1 h
  obtain ⟨⟨e1, a⟩, y1, rfl, rfl, hy1⟩ := List.map_eq_cons_iff.1 hy
  obtain ⟨⟨e2, b⟩, y2, rfl, rfl, hy2⟩ := List.map_eq_cons_iff.1 hy1
  obtain ⟨⟨e3, d⟩, y3, rfl, rfl, hy3⟩ := List.map_eq_cons_iff.1 hy2
  obtain rfl := List.map_eq_nil_iff.1 hy3
  refine ⟨a, b, ?_, by simp, by simp⟩
  rw [enIntervals_append_of_low (hx ▸ enable_not_mem_txTrace c img)]
  rfl

/-- A transmission without the energize pulse keeps EN low. -/
theorem enIntervals_txTrace_false {c : Config} {img : Memory} {tt : TimedTrace}
    (h : tt.map Prod.fst = txTrace c img false) : enIntervals none tt = [] := by
  rw [← List.append_nil tt, enIntervals_append_of_low (h ▸ enable_not_mem_txTrace c img), enIntervals]
  rfl

/-- The holds of a transmission are those of its four pulses (R203 to R206). -/
theorem hold_mem_txTrace {c : Config} {img : Memory} {p : Bool} {t : Rat} (h : PinEvent.hold t ∈ txTrace c img p) :
    t = c.tClr ∨ t = c.tClk ∨ t = c.tLatch ∨ t = c.tEn := by
  cases p <;> simp [txTrace, clearPulse, shiftLines_eq, shiftLine, latchPulse, energizePulse] at h <;> tauto

theorem timings_of_valid {c : Config} (hv : validConfig c = true) :
    0 ≤ c.tClr ∧ 0 ≤ c.tClk ∧ 0 ≤ c.tLatch ∧ 0 ≤ c.tEn ∧ c.tEn ≤ c.tEnMax := by
  obtain ⟨-, -, -, -, ht⟩ := validConfig_parts hv
  simp only [timingFits, Bool.and_eq_true, decide_eq_true_eq] at ht
  tauto

/-- The timing of a trace that waits exactly its holds (R360). -/
def exactTiming (tr : Trace) : TimedTrace := tr.map fun e => (e, minTime [e])

theorem exactTiming_fst (tr : Trace) : (exactTiming tr).map Prod.fst = tr := by
  rw [exactTiming, List.map_map]
  exact List.map_id tr

theorem mem_exactTiming {tr : Trace} {e : PinEvent} {d : Rat} (h : (e, d) ∈ exactTiming tr) :
    e ∈ tr ∧ d = minTime [e] := by
  obtain ⟨e', he, heq⟩ := List.mem_map.1 h
  obtain ⟨rfl, rfl⟩ := Prod.mk.inj heq
  exact ⟨he, rfl⟩

/-- Waiting exactly the holds keeps them, since none is negative (R15, R207). -/
theorem paced_exactTiming {c : Config} (hv : validConfig c = true) (img : Memory) (p : Bool) :
    paced (exactTiming (txTrace c img p)) := by
  rintro ⟨e, d⟩ hmem
  obtain ⟨he, rfl⟩ := mem_exactTiming hmem
  cases e with
  | pin q v => simp [minTime]
  | rst => simp [minTime]
  | hold t =>
    have ht : 0 ≤ t := by
      obtain ⟨h1, h2, h3, h4, -⟩ := timings_of_valid hv
      rcases hold_mem_txTrace he with rfl | rfl | rfl | rfl <;> assumption
    simp [minTime, ht]

/-- Settles O40: the one interval is the time from the rise of EN to its fall, which includes the pulse's hold. -/
theorem energizeIntervals : Obligations.EnergizeIntervals := by
  refine ⟨fun c img tt hp htt => ?_, fun c img tt htt => enIntervals_txTrace_false htt, fun c img hv =>
    ⟨paced_exactTiming hv img true, fun d hd => ?_⟩⟩
  · obtain ⟨a, b, hen, ha, hb⟩ := enIntervals_txTrace_true htt
    obtain ⟨hpos, -⟩ := hp _ ha
    obtain ⟨-, hhold⟩ := hp _ hb
    exact ⟨a + b, hen, (hhold _ rfl).trans (le_add_of_nonneg_left hpos)⟩
  · obtain ⟨a, b, hen, ha, hb⟩ := enIntervals_txTrace_true (exactTiming_fst (txTrace c img true))
    obtain ⟨-, rfl⟩ := mem_exactTiming ha
    obtain ⟨-, rfl⟩ := mem_exactTiming hb
    obtain ⟨-, -, -, -, hmax⟩ := timings_of_valid hv
    obtain rfl : d = _ := List.mem_singleton.1 (hen ▸ hd)
    simpa [minTime] using hmax

/-! ## The least durations (70_reset_and_hazards.md R360) -/

theorem minTime_shiftLines (c : Config) (img : Memory) (n : Nat) : minTime (shiftLines c img n) = n * c.tClk := by
  induction n with
  | zero => simp [shiftLines, minTime]
  | succ n ih =>
    rw [shiftLines, minTime_append, ih, Nat.cast_succ, add_mul, one_mul, add_comm]
    simp [shiftLine, minTime]

theorem minTime_txTrace (c : Config) (img : Memory) (p : Bool) :
    minTime (txTrace c img p) = c.tClr + c.nl * c.tClk + c.tLatch + if p then c.tEn else 0 := by
  simp only [txTrace, minTime, minTime_append, minTime_shiftLines]
  cases p <;> simp [clearPulse, latchPulse, energizePulse, minTime] <;> ring

theorem minTime_fireTrace (c : Config) (ind : BitVec 3) (fs : List Fire) :
    minTime (fireTrace c ind fs) = fs.length * (c.tClr + c.nl * c.tClk + c.tLatch + c.tEn) := by
  induction fs generalizing ind with
  | nil => simp [fireTrace, minTime]
  | cons f fs ih =>
    rw [fireTrace, minTime_append, minTime_txTrace, ih, if_pos rfl, List.length_cons, Nat.cast_succ]
    ring

theorem minTime_showTrace (c : Config) (ind : BitVec 3) :
    minTime (showTrace c ind) = c.tClr + c.nl * c.tClk + c.tLatch + c.tSt := by
  rw [showTrace, minTime_append, minTime_txTrace]
  simp [minTime]

theorem minTime_selfTestTrace (c : Config) :
    minTime (selfTestTrace c) = 6 * (c.tClr + c.nl * c.tClk + c.tLatch + c.tSt) := by
  simp only [selfTestTrace, List.replicate_succ, List.replicate_zero, List.flatten_cons, List.flatten_nil,
    minTime_append, minTime_showTrace, minTime]
  ring

/-- Settles O41: a trace takes at least its parts' least times together. -/
theorem minimumDurations : Obligations.MinimumDurations := fun c =>
  ⟨minTime_txTrace c, minTime_fireTrace c, minTime_selfTestTrace c⟩

end Sys2Proof.Machine
end

section
/-! PROOF. What a transmission leaves in the informative model of the external chain (42_serial_transmit.md R212,
R213). -/

namespace Sys2Proof.Machine

theorem Chain.seesAll_append (ch : Chain) (p : Pins) (x y : Trace) :
    ch.seesAll p (x ++ y) = (ch.seesAll p x).seesAll (p.afterAll x) y := by
  induction x generalizing ch p with
  | nil => rfl
  | cons e x ih => exact ih _ _

/-- The clear pulse empties the stages and, with LATCH and EN low, does nothing else, whatever CLK and CLR were. -/
theorem Chain.seesAll_clear (ch : Chain) (c : Config) {p : Pins} (hlatch : p.latch = false) (hen : p.en = false) :
    ch.seesAll p (.pin .clk false :: clearPulse c) = { ch with sr := List.replicate ch.sr.length false } := by
  cases hclr : p.clr <;>
    simp [clearPulse, Chain.seesAll, Chain.sees, Pins.drive, hlatch, hen, hclr, List.map_const']

theorem Pins.resting_afterAll_clear (c : Config) {p : Pins} (hlatch : p.latch = false) (hen : p.en = false) :
    (p.afterAll (.pin .clk false :: clearPulse c)).Resting := ⟨rfl, hlatch, rfl, hen⟩

/-- The one rising edge of CLK in a line's step shifts the line in. -/
theorem Chain.seesAll_shiftLine (ch : Chain) (c : Config) (b : Bool) {p : Pins} (h : p.Resting) :
    ch.seesAll p (shiftLine c b) = { ch with sr := shiftIn ch.sr b } := by
  obtain ⟨hclk, hlatch, hclr, hen⟩ := h
  simp [shiftLine, Chain.seesAll, Chain.sees, Pins.drive, hclk, hlatch, hclr, hen]

theorem Pins.resting_afterAll_shiftLine (c : Config) (b : Bool) {p : Pins} (h : p.Resting) :
    (p.afterAll (shiftLine c b)).Resting := by
  obtain ⟨-, hlatch, hclr, hen⟩ := h
  exact ⟨rfl, hlatch, hclr, hen⟩

/-- Cutting the tail of a list first does not change the head of the list. -/
theorem take_append_take {α : Type} (n : Nat) (x y : List α) : (x ++ y.take n).take n = (x ++ y).take n := by
  rw [List.take_append, List.take_append, List.take_take, Nat.min_eq_left (Nat.sub_le _ _)]

/-- Lines n-1 down to 0 shifted in one after the other stand in the stages with line 0 first (R204). -/
theorem Chain.seesAll_shiftLines (ch : Chain) (c : Config) (img : Memory) (n : Nat) {p : Pins} (h : p.Resting) :
    ch.seesAll p (shiftLines c img n) =
      { ch with sr := ((List.range n).map img.line ++ ch.sr).take ch.sr.length } := by
  induction n generalizing ch p with
  | zero => simp [shiftLines, Chain.seesAll]
  | succ n ih =>
    rw [shiftLines, Chain.seesAll_append, Chain.seesAll_shiftLine _ _ _ h,
      ih _ (Pins.resting_afterAll_shiftLine c _ h)]
    simp [shiftIn, take_append_take, List.range_succ]

theorem Pins.resting_afterAll_shiftLines (c : Config) (img : Memory) (n : Nat) {p : Pins} (h : p.Resting) :
    (p.afterAll (shiftLines c img n)).Resting := by
  obtain ⟨hclk, hlatch, hclr, hen⟩ := h
  rw [Pins.afterAll_shiftLines _ _ _ _ hclk]
  exact ⟨hclk, hlatch, hclr, hen⟩

/-- The latch pulse copies the stages to the outputs, and the energize pulse drives them (R205, R206). -/
theorem Chain.seesAll_latch_energize (ch : Chain) (c : Config) (b : Bool) {p : Pins} (h : p.Resting) :
    ch.seesAll p (latchPulse c ++ if b then energizePulse c else []) =
      { ch with q := ch.sr, energized := ch.energized ++ if b then [ch.sr] else [] } := by
  obtain ⟨hclk, hlatch, hclr, hen⟩ := h
  cases b <;> simp [latchPulse, energizePulse, Chain.seesAll, Chain.sees, Pins.drive, hclk, hlatch, hclr, hen]

/-- A list shifted into a row of zeros. -/
theorem take_map_append_replicate (n N : Nat) (f : Nat → Bool) :
    ((List.range n).map f ++ List.replicate N false).take N = (List.range N).map fun k => decide (k < n) && f k := by
  refine List.ext_getElem (by simp) fun k hk _ => ?_
  by_cases h : k < n <;> simp [List.getElem_append, h]

/-- Line k at output k for k below NL, and 0 at the outputs above (R213). -/
def Chain.shown (ch : Chain) (c : Config) (img : Memory) : List Bool :=
  (List.range ch.sr.length).map fun k => decide (k < c.nl) && img.line k

/-- A transmission from low LATCH and EN: the stages cleared, the lines shifted in, the outputs latched. -/
theorem Chain.seesAll_txTrace (ch : Chain) (c : Config) (img : Memory) (b : Bool) {p : Pins} (hlatch : p.latch = false)
    (hen : p.en = false) :
    ch.seesAll p (txTrace c img b) =
      { sr := ch.shown c img, q := ch.shown c img,
        energized := ch.energized ++ if b then [ch.shown c img] else [] } := by
  have hrest := Pins.resting_afterAll_clear c hlatch hen
  change ch.seesAll p ((.pin .clk false :: clearPulse c) ++ (shiftLines c img c.nl ++ _)) = _
  rw [Chain.seesAll_append, Chain.seesAll_append, Chain.seesAll_clear _ _ hlatch hen,
    Chain.seesAll_shiftLines _ _ _ _ hrest,
    Chain.seesAll_latch_energize _ _ _ (Pins.resting_afterAll_shiftLines c img _ hrest), List.length_replicate,
    take_map_append_replicate, Chain.shown]

/-- Settles O38: the outputs and the energized outputs are the lines, with zeros above them; a chain shorter than NL,
which the statement leaves aside, would hold the lowest lines. -/
theorem chainHoldsTheImage : Obligations.ChainHoldsTheImage := by
  intro c img p pins ch hlatch hen _
  rw [ch.seesAll_txTrace c img p hlatch hen]
  exact ⟨rfl, rfl⟩

end Sys2Proof.Machine
end

section
/-! PROOF. The normal form of a trace, dwell by dwell, equivalence and conformance (42_serial_transmit.md R209). -/

namespace Sys2Proof.Machine

/-! ## The dwells of a trace in two parts -/

/-- The dwells of a trace are some closed dwells and the one in force at its end, from which the rest of a longer trace
goes on. -/
theorem dwellsFrom_split (d : Dwell) (x : Trace) :
    ∃ closed last, last.levels = d.levels.afterAll x ∧ ∀ y, dwellsFrom d (x ++ y) = closed ++ dwellsFrom last y := by
  induction x generalizing d with
  | nil => exact ⟨[], d, rfl, fun _ => rfl⟩
  | cons e x ih =>
    by_cases he : d.levels.after e = d.levels
    · obtain ⟨t, -, -, -, hkeep⟩ := dwellsFrom_keep d e he
      obtain ⟨closed, last, hlast, hrest⟩ := ih ⟨d.levels, t⟩
      refine ⟨closed, last, ?_, fun y => (hkeep (x ++ y)).trans (hrest y)⟩
      rw [hlast, Pins.afterAll_cons, he]
    · obtain ⟨closed, last, hlast, hrest⟩ := ih ⟨d.levels.after e, 0⟩
      refine ⟨d :: closed, last, hlast, fun y => ?_⟩
      rw [List.cons_append, dwellsFrom_change d e (x ++ y) he, hrest y, List.cons_append]

theorem normalise_split (p : Pins) (x : Trace) :
    ∃ closed last, last.levels = p.afterAll x ∧ ∀ y, normalise p (x ++ y) = closed ++ dwellsFrom last y :=
  dwellsFrom_split ⟨p, 0⟩ x

/-- An entry that changes the levels begins a normal form of its own. -/
theorem normalise_append_change (p : Pins) (x y : Trace) (e : PinEvent) (h : (p.afterAll x).after e ≠ p.afterAll x) :
    normalise p (x ++ e :: y) = normalise p x ++ normalise ((p.afterAll x).after e) y := by
  obtain ⟨closed, last, hlast, hrest⟩ := normalise_split p x
  have hx : normalise p x = closed ++ [last] := by simpa [dwellsFrom] using hrest []
  rw [hrest, hx, dwellsFrom_change last e y (hlast ▸ h), hlast, normalise, List.append_assoc]
  rfl

/-- Entries that keep the levels are one dwell, whose hold is the longest of theirs and the one in force. -/
theorem dwellsFrom_of_keep (p : Pins) (x : Trace) (h : ∀ e ∈ x, p.after e = p) (t : Rat) :
    ∃ u, dwellsFrom ⟨p, t⟩ x = [⟨p, u⟩] ∧ t ≤ u ∧ (∀ v, .hold v ∈ x → v ≤ u) ∧ (u = t ∨ .hold u ∈ x) := by
  induction x generalizing t with
  | nil => exact ⟨t, rfl, le_rfl, by simp, .inl rfl⟩
  | cons e x ih =>
    obtain ⟨t', hle, hhold, heq, hkeep⟩ := dwellsFrom_keep ⟨p, t⟩ e (h e (by simp))
    obtain ⟨u, hu, hle', hhold', heq'⟩ := ih (fun e he => h e (by simp [he])) t'
    refine ⟨u, (hkeep x).trans hu, hle.trans hle', fun v hv => ?_, ?_⟩
    · rcases List.mem_cons.1 hv with rfl | hv
      · exact (hhold v rfl).trans hle'
      · exact hhold' v hv
    · rcases heq' with rfl | hmem
      · exact heq.imp id fun he => by simp [he]
      · exact .inr (List.mem_cons_of_mem _ hmem)

/-! ## Conformance, dwell by dwell -/

/-- What conformance asks of one dwell: the levels required, held at least as long. -/
def Dwell.Serves (a b : Dwell) : Prop := a.levels = b.levels ∧ b.hold ≤ a.hold

theorem conforms_iff (p : Pins) (x y : Trace) :
    conforms p x y = true ↔ List.Forall₂ Dwell.Serves (normalise p x) (normalise p y) := by
  rw [conforms, traceEquiv, Bool.and_eq_true, beq_iff_eq, List.all_eq_true]
  generalize normalise p x = a
  generalize normalise p y = b
  induction a generalizing b with
  | nil => cases b <;> simp
  | cons d a ih =>
    cases b with
    | nil => simp
    | cons d' b =>
      simp only [List.map_cons, List.cons.injEq, List.zip_cons_cons, List.forall_mem_cons, decide_eq_true_iff,
        List.forall₂_cons, ← ih, Dwell.Serves]
      tauto

theorem Dwell.serves_refl (d : Dwell) : d.Serves d := ⟨rfl, le_rfl⟩

theorem conforms_of_normalise_eq {p : Pins} {x y : Trace} (h : normalise p x = normalise p y) :
    conforms p x y = true := by
  rw [conforms_iff, h]
  exact List.forall₂_same.2 fun d _ => d.serves_refl

theorem not_conforms {p : Pins} {x y : Trace} (h : ¬ List.Forall₂ Dwell.Serves (normalise p x) (normalise p y)) :
    conforms p x y = false := by
  rw [← Bool.not_eq_true, conforms_iff]
  exact h

theorem not_conforms_of_length_ne {p : Pins} {x y : Trace} (h : (normalise p x).length ≠ (normalise p y).length) :
    conforms p x y = false :=
  not_conforms fun hall => h hall.length_eq

/-- Settles O57: entries that keep the levels are merged, one that changes them closes the dwell. -/
theorem traceNormalForm : Obligations.TraceNormalForm :=
  ⟨fun p x h => dwellsFrom_of_keep p x h 0, normalise_append_change, conforms_iff⟩

/-! ## Equivalence as level sequences -/

theorem scanl_after_eq_cons (p : Pins) (x : Trace) : ∃ rest, x.scanl Pins.after p = p :: rest := by
  cases x with
  | nil => exact ⟨[], rfl⟩
  | cons e x => exact ⟨_, List.scanl_cons⟩

/-- The levels of the dwells are the levels after each entry, repeats dropped. -/
theorem dwellsFrom_levels (d : Dwell) (x : Trace) :
    (dwellsFrom d x).map Dwell.levels = (x.scanl Pins.after d.levels).destutter fun a b => a ≠ b := by
  induction x generalizing d with
  | nil => rfl
  | cons e x ih =>
    obtain ⟨rest, hrest⟩ := scanl_after_eq_cons (d.levels.after e) x
    rw [List.scanl_cons, hrest, List.destutter_cons_cons]
    by_cases he : d.levels.after e = d.levels
    · obtain ⟨t, -, -, -, hkeep⟩ := dwellsFrom_keep d e he
      rw [if_neg (not_not.2 he.symm), hkeep, ih, ← he, hrest, List.destutter_cons']
    · rw [if_pos (Ne.symm he), dwellsFrom_change d e x he, List.map_cons, ih, hrest, List.destutter_cons']

theorem traceEquiv_iff (p : Pins) (x y : Trace) :
    traceEquiv p x y = true ↔
      (x.scanl Pins.after p).destutter (fun a b => a ≠ b) = (y.scanl Pins.after p).destutter fun a b => a ≠ b := by
  rw [traceEquiv, beq_iff_eq, normalise, normalise, dwellsFrom_levels, dwellsFrom_levels]

/-! ## Writes that may be left out, and holds -/

theorem Pins.after_pin_ne {p : Pins} {q : Pin} {v : Bool} (h : p.level q ≠ v) : p.after (.pin q v) ≠ p :=
  Pins.drive_ne p q v h

/-- A write that leaves its pin's level is no part of the normal form. -/
theorem normalise_drop_write (p : Pins) (x y : Trace) {q : Pin} {v : Bool} (h : (p.afterAll x).level q = v) :
    normalise p (x ++ [.pin q v] ++ y) = normalise p (x ++ y) := by
  obtain ⟨closed, last, hlast, hrest⟩ := normalise_split p x
  rw [List.append_assoc, hrest, hrest, List.singleton_append, dwellsFrom, hlast, if_pos h]

/-- A write that changes its pin's level, at the end of a trace, is one dwell more. -/
theorem length_normalise_write (p : Pins) (x : Trace) {q : Pin} {v : Bool} (h : (p.afterAll x).level q ≠ v) :
    (normalise p (x ++ [.pin q v])).length = (normalise p x).length + 1 := by
  rw [normalise_append_change p x [] _ (Pins.after_pin_ne h), List.length_append]
  rfl

theorem dwellsFrom_hold (d : Dwell) (t : Rat) (y : Trace) :
    dwellsFrom d (.hold t :: y) = dwellsFrom ⟨d.levels, max d.hold t⟩ y := by
  rw [dwellsFrom, max_def]

/-- Two adjacent holds count as the longer of the two. -/
theorem normalise_merge_holds (p : Pins) (x y : Trace) (t u : Rat) :
    normalise p (x ++ [.hold t, .hold u] ++ y) = normalise p (x ++ [.hold (max t u)] ++ y) := by
  obtain ⟨closed, last, -, hrest⟩ := normalise_split p x
  rw [List.append_assoc, List.append_assoc, hrest, hrest]
  simp only [List.cons_append, List.nil_append, dwellsFrom_hold, max_assoc]

/-- A longer hold of the dwell in force serves every dwell of the rest. -/
theorem forall₂_dwellsFrom {d d' : Dwell} (h : d.Serves d') (y : Trace) :
    List.Forall₂ Dwell.Serves (dwellsFrom d y) (dwellsFrom d' y) := by
  obtain ⟨levels, hold⟩ := d
  obtain ⟨levels', hold'⟩ := d'
  obtain ⟨rfl, hle⟩ : levels = levels' ∧ hold' ≤ hold := h
  induction y generalizing hold hold' with
  | nil => exact .cons ⟨rfl, hle⟩ .nil
  | cons e y ih =>
    by_cases he : levels.after e = levels
    · obtain ⟨t, ht, hlonger, -, hkeep⟩ := dwellsFrom_keep ⟨levels, hold⟩ e he
      obtain ⟨t', -, -, heq', hkeep'⟩ := dwellsFrom_keep ⟨levels, hold'⟩ e he
      rw [hkeep, hkeep']
      refine ih _ _ ?_
      rcases heq' with rfl | rfl
      · exact hle.trans ht
      · exact hlonger t' rfl
    · rw [dwellsFrom_change ⟨levels, hold⟩ e y he, dwellsFrom_change ⟨levels, hold'⟩ e y he]
      exact .cons ⟨rfl, hle⟩ (List.forall₂_same.2 fun d _ => d.serves_refl)

theorem conforms_longer_hold (p : Pins) (x y : Trace) {t u : Rat} (h : t ≤ u) :
    conforms p (x ++ [.hold u] ++ y) (x ++ [.hold t] ++ y) = true := by
  obtain ⟨closed, last, -, hrest⟩ := normalise_split p x
  have hmax : max last.hold t ≤ max last.hold u := max_le_max le_rfl h
  have hserves : Dwell.Serves ⟨last.levels, max last.hold u⟩ ⟨last.levels, max last.hold t⟩ := ⟨rfl, hmax⟩
  have htail : List.Forall₂ Dwell.Serves (dwellsFrom last (.hold u :: y)) (dwellsFrom last (.hold t :: y)) := by
    rw [dwellsFrom_hold, dwellsFrom_hold]
    exact forall₂_dwellsFrom hserves y
  rw [conforms_iff, List.append_assoc, List.append_assoc, hrest, hrest]
  exact List.rel_append (List.forall₂_same.2 fun d _ => d.serves_refl) htail

/-- After a level change the holds asked for are the dwell's, so two that are both too short do not make up one. -/
theorem not_conforms_shorter_holds (p : Pins) (x : Trace) {q : Pin} {v : Bool} {t u w : Rat}
    (h : (p.afterAll x).level q ≠ v) (ht : 0 < t) (hu : u < t) (hw : w < t) :
    conforms p (x ++ [.pin q v, .hold u, .hold w]) (x ++ [.pin q v, .hold t]) = false := by
  have hchange := Pins.after_pin_ne h
  refine not_conforms fun hall => ?_
  rw [normalise_append_change p x _ _ hchange, normalise_append_change p x _ _ hchange] at hall
  have hlast := List.forall₂_drop_append _ _ _ hall
  rw [List.drop_left, normalise, normalise, dwellsFrom_hold, dwellsFrom_hold, dwellsFrom_hold] at hlast
  obtain ⟨⟨-, hle⟩, -⟩ := List.forall₂_cons.1 hlast
  exact absurd (le_trans (le_max_right 0 t) hle) (not_le.2 (max_lt (max_lt ht hu) hw))

/-- Settles O42: each clause is read off the normal forms, which differ only after the common part of the traces. -/
theorem equivalentTracesConform : Obligations.EquivalentTracesConform := by
  refine ⟨traceEquiv_iff, fun p x y q v h => ⟨?_, ?_⟩, fun p x q v h => ⟨?_, ?_⟩, normalise_merge_holds,
    fun p x y t u => conforms_longer_hold p x y, fun p x q v t u w => not_conforms_shorter_holds p x⟩
  · exact conforms_of_normalise_eq (normalise_drop_write p x y h).symm
  · exact conforms_of_normalise_eq (normalise_drop_write p x y h)
  · exact not_conforms_of_length_ne (by rw [length_normalise_write p x h]; omega)
  · exact not_conforms_of_length_ne (by rw [length_normalise_write p x h]; omega)

end Sys2Proof.Machine
end

section
/-! PROOF. The sequencer's cursors while a command runs (10_state.md R41, log 16). Whatever runs, the position counts
the entries added to the trace, and only a new sweep or round moves the repeat count. -/

namespace Sys2Proof.Machine

/-! ## The cursors of a transmission, an AF and a visit -/

/-- A line's step counts its four entries (42_serial_transmit.md R204). -/
theorem shiftOne_seq {s : State} {k : Cursors} (h : s.seq = .busy k) (L : Nat) :
    (s.shiftOne L).seq = .busy { k with line := L, pos := k.pos + 4 } := by
  rw [State.shiftOne_spec, State.withSeq_seq, h]
  rfl

theorem tx_seq (s : State) (p : Bool) :
    (s.tx p).seq = s.seq.move fun k => { k with
      line := if s.cfg.nl = 0 then k.line else 0, pos := k.pos + (txTrace s.cfg s.img p).length } := by
  rw [State.tx_spec, State.withSeq_seq]

/-- An AF has r, m and c at its dot and leaves the repeat count (log 16). -/
theorem af_seq {s : State} {k : Cursors} (h : s.seq = .busy k) (d : Dot) (set : Bool) :
    ∃ line pos, (s.af d set).seq =
      .busy { rep := k.rep, r := d.r, m := d.m, c := d.c, line := line, pos := pos } := by
  rw [State.af, tx_seq, State.withImg_seq, State.withInd_seq, State.atDot_seq, h]
  exact ⟨_, _, rfl⟩

/-- A visit has r, m and c at its dot, whether it is fired or not (40_dot_matrix.md R143, R156). -/
theorem visit_seq {s : State} {k : Cursors} (h : s.seq = .busy k) (go : Fire → Bool) (f : Fire) :
    ∃ line pos, (s.visit go f).seq =
      .busy { rep := k.rep, r := f.dot.r, m := f.dot.m, c := f.dot.c, line := line, pos := pos } := by
  rw [State.visit]
  split
  · exact af_seq h f.dot f.set
  · rw [State.atDot_seq, h]
    exact ⟨_, _, rfl⟩

/-! ## The position against the trace -/

/-- How far the position is from the length of the trace, while something runs. -/
def State.lag (s : State) : Option Int :=
  match s.seq with
  | .idle => none
  | .busy k => some (k.pos - s.trace.length)

/-- Moving cursors other than the position, and writing anything but the trace and the sequencer, keeps the lag. -/
theorem State.lag_of_move {s t : State} {f : Cursors → Cursors} (hseq : t.seq = s.seq.move f)
    (hpos : ∀ k, (f k).pos = k.pos) (htrace : t.trace = s.trace) : t.lag = s.lag := by
  cases hs : s.seq <;> simp [State.lag, hseq, hs, Sequencer.move, hpos, htrace]

theorem State.lag_emit (s : State) (evs : Trace) : (s.emit evs).lag = s.lag := by
  cases hs : s.seq <;> simp [State.lag, hs, Sequencer.move]

theorem State.lag_tx (s : State) (p : Bool) : (s.tx p).lag = s.lag := by
  cases hs : s.seq <;> simp [State.lag, tx_seq, hs, Sequencer.move]

theorem State.lag_atDot (s : State) (d : Dot) : (s.atDot d).lag = s.lag :=
  State.lag_of_move (State.atDot_seq s d) (fun _ => rfl) rfl

theorem State.lag_setRep (s : State) (n : Nat) : (s.moveSeq fun k => { k with rep := n }).lag = s.lag :=
  State.lag_of_move (State.moveSeq_seq s _) (fun _ => rfl) rfl

theorem State.lag_af (s : State) (d : Dot) (set : Bool) : (s.af d set).lag = s.lag := by
  rw [State.af, State.lag_tx]
  exact s.lag_atDot d

theorem State.lag_visit (s : State) (go : Fire → Bool) (f : Fire) : (s.visit go f).lag = s.lag := by
  rw [State.visit]
  split
  · exact s.lag_af f.dot f.set
  · exact s.lag_atDot f.dot

theorem State.lag_sweepWhere (s : State) (go : Fire → Bool) (fs : List Fire) : (s.sweepWhere go fs).lag = s.lag := by
  induction fs generalizing s with
  | nil => rfl
  | cons f fs ih => rw [State.sweepWhere_cons, ih, State.lag_visit]

theorem State.lag_sweepTimes (s : State) (go : Fire → Bool) (fs : List Fire) (n : Nat) :
    (s.sweepTimes go fs n).lag = s.lag := by
  induction n with
  | zero => rfl
  | succ n ih => rw [State.sweepTimes, State.lag_sweepWhere, State.lag_setRep, ih]

theorem State.lag_showInd (s : State) (ind : BitVec 3) : (s.showInd ind).lag = s.lag := by
  rw [State.showInd, State.lag_emit, State.lag_tx]
  rfl

theorem State.lag_selfTestRound (s : State) (rep : Nat) : (s.selfTestRound rep).lag = s.lag := by
  rw [State.selfTestRound, State.lag_showInd, State.lag_showInd, State.lag_setRep]

/-! ## The repeat count -/

/-- The repeat count of what runs. -/
def State.repeatCount (s : State) : Option Nat :=
  match s.seq with
  | .idle => none
  | .busy k => some k.rep

theorem State.repeatCount_of_move {s t : State} {f : Cursors → Cursors} (hseq : t.seq = s.seq.move f)
    (hrep : ∀ k, (f k).rep = k.rep) : t.repeatCount = s.repeatCount := by
  cases hs : s.seq <;> simp [State.repeatCount, hseq, hs, Sequencer.move, hrep]

theorem State.repeatCount_tx (s : State) (p : Bool) : (s.tx p).repeatCount = s.repeatCount :=
  State.repeatCount_of_move (tx_seq s p) fun _ => rfl

theorem State.repeatCount_visit (s : State) (go : Fire → Bool) (f : Fire) :
    (s.visit go f).repeatCount = s.repeatCount := by
  have hdot : (s.atDot f.dot).repeatCount = s.repeatCount :=
    State.repeatCount_of_move (State.atDot_seq s f.dot) fun _ => rfl
  rw [State.visit]
  split
  · rw [State.af, State.repeatCount_tx]
    exact hdot
  · exact hdot

theorem State.repeatCount_sweepWhere (s : State) (go : Fire → Bool) (fs : List Fire) :
    (s.sweepWhere go fs).repeatCount = s.repeatCount := by
  induction fs generalizing s with
  | nil => rfl
  | cons f fs ih => rw [State.sweepWhere_cons, ih, State.repeatCount_visit]

theorem State.repeatCount_showInd (s : State) (ind : BitVec 3) : (s.showInd ind).repeatCount = s.repeatCount := by
  have hemit (t : State) (evs : Trace) : (t.emit evs).repeatCount = t.repeatCount :=
    State.repeatCount_of_move (State.emit_seq t evs) fun _ => rfl
  rw [State.showInd, hemit, State.repeatCount_tx]
  rfl

/-- A new sweep or round sets the repeat count to its number. -/
theorem State.repeatCount_setRep {s : State} (h : s.lag ≠ none) (n : Nat) :
    (s.moveSeq fun k => { k with rep := n }).repeatCount = some n := by
  cases hs : s.seq with
  | idle => exact absurd (by simp [State.lag, hs]) h
  | busy k => simp [State.repeatCount, hs, Sequencer.move]

/-! ## The run of a loop -/

theorem State.lag_ne_none {s : State} {k : Cursors} (h : s.seq = .busy k) : s.lag ≠ none := by simp [State.lag, h]

/-- What runs with the lag kept is BUSY, and its position has counted the entries added to the trace. -/
theorem busy_of_lag_eq {s t : State} {k : Cursors} {n : Nat} (h : s.seq = .busy k) (hlag : t.lag = s.lag)
    (hrep : t.repeatCount = some n) :
    ∃ k', t.seq = .busy k' ∧ k'.rep = n ∧ k'.pos + s.trace.length = k.pos + t.trace.length := by
  cases ht : t.seq with
  | idle => simp [State.repeatCount, ht] at hrep
  | busy k' =>
    simp only [State.lag, State.repeatCount, h, ht, Option.some.injEq] at hlag hrep
    exact ⟨k', rfl, hrep, by omega⟩

/-- After n + 1 sweeps the repeat count is n (40_dot_matrix.md R156). -/
theorem State.repeatCount_sweepTimes_succ {s : State} (h : s.lag ≠ none) (go : Fire → Bool) (fs : List Fire) (n : Nat) :
    (s.sweepTimes go fs (n + 1)).repeatCount = some n := by
  rw [State.sweepTimes, State.repeatCount_sweepWhere, State.repeatCount_setRep]
  rwa [State.lag_sweepTimes]

/-- In a round of the self-test the repeat count is its number (44_system.md R271). -/
theorem State.repeatCount_selfTestRound {s : State} (h : s.lag ≠ none) (rep : Nat) :
    (s.selfTestRound rep).repeatCount = some rep := by
  rw [State.selfTestRound, State.repeatCount_showInd, State.repeatCount_showInd, State.repeatCount_setRep h]

/-- Settles O59: each loop sets its own cursors, and the position keeps its distance from the trace's length. -/
theorem cursorsFollowTheRun : Obligations.CursorsFollowTheRun := by
  intro s k h
  have hbusy : s.lag ≠ none := State.lag_ne_none h
  refine ⟨shiftOne_seq h, fun _ => rfl, fun p => ?_, af_seq h, visit_seq h, fun go fires n =>
    busy_of_lag_eq h (s.lag_sweepTimes go fires (n + 1)) (State.repeatCount_sweepTimes_succ hbusy go fires n),
    fun rep => busy_of_lag_eq h (s.lag_selfTestRound rep) (State.repeatCount_selfTestRound hbusy rep)⟩
  rw [tx_seq, h]
  exact ⟨_, rfl⟩

end Sys2Proof.Machine
end

section
/-! PROOF. The assembler on parsed statements and the pseudo-instructions (30_encoding.md R108 to R112, log 13). -/

namespace Sys2Proof.Machine

/-! ## What the assembler takes and refuses (R108) -/

theorem assembleStatement_eq_some_iff {st : Statement} {input : Input} :
    assembleStatement st = some input ↔
      (st.instr.wf = true ∧ st.value.isSome = takesValue st.instr) ∧
        .command (encode st.instr) st.wdata [] = input := by
  rw [assembleStatement, Option.ite_none_right_eq_some, Bool.and_eq_true, beq_iff_eq, Option.some.injEq]

theorem assembleStatement_eq_none_iff {st : Statement} :
    assembleStatement st = none ↔ st.instr.wf = false ∨ st.value.isSome ≠ takesValue st.instr := by
  rw [assembleStatement, ite_eq_right_iff]
  cases st.instr.wf <;> simp

/-- WDATA is the `#` value, which only WRDES, MAGNETIZE and SETADDR have beside their operands (R108). -/
theorem wdata_of_value {st : Statement} {v : Word} (hv : st.value = some v)
    (htakes : st.value.isSome = takesValue st.instr) : st.wdata = v := by
  obtain ⟨i, value⟩ := st
  obtain rfl : value = some v := hv
  cases i
  case wrdes | magnetize | setaddr => rfl
  all_goals cases htakes

theorem wdata_of_no_value {st : Statement} (hv : st.value = none) (hind : ∀ ib, st.instr ≠ .setind ib) :
    st.wdata = 0#32 := by
  obtain ⟨i, value⟩ := st
  obtain rfl : value = none := hv
  cases i
  case setind ib => exact absurd rfl (hind ib)
  all_goals rfl

/-! ## Statements in row-major order (R110 to R112) -/

/-- The entries of n blocks of M entries each, block after block. -/
theorem flatMap_range_getElem? {α : Type} {g : Nat → List α} {M : Nat} (hg : ∀ r, (g r).length = M) (n : Nat) :
    ((List.range n).flatMap g).length = n * M ∧
      ∀ r m, r < n → m < M → ((List.range n).flatMap g)[r * M + m]? = (g r)[m]? := by
  induction n with
  | zero => simp
  | succ n ih =>
    obtain ⟨hlen, hget⟩ := ih
    rw [List.range_succ, List.flatMap_append, List.flatMap_singleton]
    refine ⟨by rw [List.length_append, hlen, hg, Nat.succ_mul], fun r m hr hm => ?_⟩
    rcases Nat.lt_succ_iff_lt_or_eq.1 hr with hlt | rfl
    · have hin : r * M + m < n * M := by
        calc r * M + m < r * M + M := by omega
          _ = (r + 1) * M := (Nat.succ_mul r M).symm
          _ ≤ n * M := Nat.mul_le_mul_right M hlt
      rw [List.getElem?_append_left (by rwa [hlen]), hget r m hlt hm]
    · rw [List.getElem?_append_right (by rw [hlen]; omega), hlen, Nat.add_sub_cancel_left]

theorem rowMajor_spec (c : Config) (f : Nat → Nat → Statement) :
    (rowMajor c f).length = c.rows * c.modules ∧
      ∀ r m, r < c.rows → m < c.modules → (rowMajor c f)[r * c.modules + m]? = some (f r m) := by
  obtain ⟨hlen, hget⟩ := flatMap_range_getElem? (g := fun r => (List.range c.modules).map fun m => f r m)
    (M := c.modules) (by simp) c.rows
  exact ⟨hlen, fun r m hr hm => (hget r m hr hm).trans (by simp [hm])⟩

theorem mem_rowMajor {c : Config} {f : Nat → Nat → Statement} {st : Statement} (h : st ∈ rowMajor c f) :
    ∃ r m, r < c.rows ∧ m < c.modules ∧ st = f r m := by
  simp only [rowMajor, List.mem_flatMap, List.mem_map, List.mem_range] at h
  obtain ⟨r, hr, m, hm, rfl⟩ := h
  exact ⟨r, m, hr, hm, rfl⟩

/-! ## Every expansion assembles -/

theorem fitsByte_of_valid {c : Config} (hv : validConfig c = true) {r m : Nat} (hr : r < c.rows) (hm : m < c.modules) :
    (fitsByte r && fitsByte m) = true := by
  obtain ⟨-, hrows, -, hmodules⟩ := grid_of_valid hv
  rw [fitsByte, fitsByte, decide_eq_true (hr.trans_le hrows), decide_eq_true (hm.trans_le hmodules), Bool.and_self]

theorem setDesired_assembles {c : Config} (hv : validConfig c = true) {snap : Snapshot} {st : Statement}
    (h : st ∈ expandSetDesired c snap) : ∃ input, assembleStatement st = some input := by
  obtain ⟨r, m, hr, hm, rfl⟩ := mem_rowMajor h
  exact ⟨_, assembleStatement_eq_some_iff.2 ⟨⟨fitsByte_of_valid hv hr hm, rfl⟩, rfl⟩⟩

/-- On a valid configuration every index of an expansion fits its field (R9, R101). -/
theorem expand_assembles {c : Config} (hv : validConfig c = true) {p : Pseudo} {st : Statement} (h : st ∈ p.expand c) :
    ∃ input, assembleStatement st = some input := by
  cases p with
  | paint =>
    obtain rfl := List.mem_singleton.1 h
    exact ⟨_, rfl⟩
  | setDesired snap => exact setDesired_assembles hv h
  | paintSnap snap =>
    rcases List.mem_append.1 h with h | h
    · exact setDesired_assembles hv h
    · obtain rfl := List.mem_singleton.1 h
      exact ⟨_, rfl⟩
  | getDots =>
    obtain ⟨r, m, hr, hm, rfl⟩ := mem_rowMajor h
    exact ⟨_, assembleStatement_eq_some_iff.2 ⟨⟨fitsByte_of_valid hv hr hm, rfl⟩, rfl⟩⟩

/-- Settles O56: the word of a well-formed command decodes back to it (O1), and the expansions are row-major lists. -/
theorem pseudoInstructionsAssemble : Obligations.PseudoInstructionsAssemble := by
  refine ⟨fun st input h => ?_, fun st => ?_, fun c snap => ?_, fun c p st hv => expand_assembles hv⟩
  · obtain ⟨⟨hwf, htakes⟩, rfl⟩ := assembleStatement_eq_some_iff.1 h
    refine ⟨_, _, rfl, decodeInvertsEncode st.instr hwf, fun v hv => wdata_of_value hv htakes, wdata_of_no_value,
      fun ib hib => ?_⟩
    rw [Statement.wdata, hib]
  · rw [assembleStatement_eq_none_iff]
    obtain ⟨i, value⟩ := st
    cases i
    all_goals cases value <;> simp [Instr.wf, fitsByte, fitsCol, fitsInd, takesValue]
    all_goals omega
  · obtain ⟨hlen, hget⟩ := rowMajor_spec c fun r m => ⟨.wrdes r m, some (snap.word r m)⟩
    obtain ⟨hlen', hget'⟩ := rowMajor_spec c fun r m => ⟨.rdcur r m, none⟩
    exact ⟨rfl, hlen, rfl, hlen', fun r m hr hm => ⟨hget r m hr hm, hget' r m hr hm⟩⟩

end Sys2Proof.Machine
end
